-- ==== Sys2Proof/Word.lean ====
section
/-!
DEFINITION. Sys2Proof/Word.lean: the word types of `pulse_classifier` (00_scope.md R8, R11).
Registers are unsigned 32-bit words and BMEM is made of bytes; there is no sign extension anywhere.
-/

namespace Sys2Proof

/-- A 32-bit register or command word, bit 0 the least significant (R8, R20). -/
abbrev Word := BitVec 32

/-- A byte of BMEM (R70). -/
abbrev Byte := BitVec 8

/-- A single bit as a 32-bit register value: `zext_32` of one bit (R10). -/
def Word.ofBit (b : Bool) : Word := BitVec.setWidth 32 (BitVec.ofBool b)

end Sys2Proof
end

