-- ==== Sys2Proof/Config.lean ====
section
/-!
DEFINITION. Sys2Proof/Config.lean: what the spec fixes as constants of the interface, what it leaves
to the implementation, and the free values (constants with no body: nothing can evaluate them).
-/

namespace Sys2Proof

/-- The three memories of pulse entries (10_state.md R48). -/
inductive PulseMemory where
  | ring
  | snap
  | det
deriving DecidableEq, Repr

namespace Config

/-- `ID` always reads this (R2, R21): ASCII "PCL1". -/
def idValue : Word := 0x50434C31#32

/-- The largest legal `PULSE_CAP` (R7). -/
def maxPulseCap : Nat := 131072

/-- The largest legal `BMEM_BYTES` (R7). -/
def maxBmemBytes : Nat := 1048576

/-- The longest pattern of `BM.MATCH` and `BM.SEEK` (R7 `PAT_MAX`). -/
def patMax : Nat := 64

/-- The longest Manchester pattern (R7 `LC_PAT_MAX`). -/
def lcPatMax : Nat := 8

/-- `PULSE_CAP` of the machine that `State.reset` describes. DESIGN CHOICE, unsafe, log 1: the spec
leaves the parameter open (R7, D3); the value is the one of 95_test_vectors.md section 2.7. -/
def resetPulseCap : Nat := 32

/-- `BMEM_BYTES` of the machine that `State.reset` describes. DESIGN CHOICE, unsafe, log 1: the spec
leaves the parameter open (R7, D3); the value is the one of 95_test_vectors.md. -/
def resetBmemBytes : Nat := 1024

/-- The byte of BMEM at an address after power-on: a draw, fixed at reset and unchanged until written
(R270, U1). Log 2, safe. -/
opaque powerOnByte : Nat → Byte

/-- The level of an entry of a pulse memory after power-on: a draw (R270, U1). Log 2, safe. -/
opaque powerOnLevel : PulseMemory → Nat → Bool

/-- The duration of an entry of a pulse memory after power-on: a draw (R270, U1). Log 2, safe. -/
opaque powerOnDur : PulseMemory → Nat → Word

/-- The word that the n-th unspecified host read returns: a fresh draw per read (R50, U2). Log 3, safe. -/
opaque busyRead : Nat → Word

end Config
end Sys2Proof
end

