-- ==== Sys2Proof/Syntax.lean ====
section
/-!
DEFINITION. Sys2Proof/Syntax.lean: the commands, one constructor per row of spec/opcode_table.json
(30_encoding.md R99), with the fields of the command word at the widths of R91. Operands in ARG
registers are no part of the word (R96).
-/

namespace Sys2Proof

/-- Format S: the pulse memory that `PC.CLASSIFY` and `PC.TOBITS` read (R98). -/
inductive Src where
  /-- `SRC = 0`: the snapshot. -/
  | snap
  /-- `SRC = 1`: the captured pulses of the held best. -/
  | det
deriving DecidableEq, Repr

/-- The fifteen commands (R99). -/
inductive Instr where
  /-- `BM.GET` (R113). -/
  | bmGet
  /-- `BM.SET` (R114), format V. -/
  | bmSet (val : Bool)
  /-- `BM.COPY` (R115). -/
  | bmCopy
  /-- `BM.REV` (R116). -/
  | bmRev
  /-- `BM.MATCH` (R118), format P. -/
  | bmMatch (plen : BitVec 7)
  /-- `BM.SEEK` (R119), format P. -/
  | bmSeek (plen : BitVec 7)
  /-- `BM.READW` (R121), format W. -/
  | bmReadw (nbits : BitVec 6)
  /-- `LC.MANCH` (R141), format M, fields from bit 31 down (R91, R95). -/
  | lcManch (opat zpat : BitVec 8) (olen zlen : BitVec 4)
  /-- `LC.DIFFM` (R145). -/
  | lcDiffm
  /-- `CRC8` (R161). -/
  | crc8
  /-- `CRC16` (R162). -/
  | crc16
  /-- `PC.SNAP` (R183). -/
  | pcSnap
  /-- `PC.CLASSIFY` (R190), format S. -/
  | pcClassify (src : Src)
  /-- `PC.TOBITS` (R195), format S. -/
  | pcTobits (src : Src)
  /-- `PC.SCAN` (R210). -/
  | pcScan
deriving DecidableEq, Repr

end Sys2Proof
end

