-- ==== Sys2Proof/WellFormed.lean ====
section
/-!
DEFINITION. Sys2Proof/WellFormed.lean: the field values a command word may hold (30_encoding.md R102).
-/

namespace Sys2Proof

/-- R102: `PLEN` is at most 64 and `NBITS` at most 32, and `ZLEN` and `OLEN` are 1 to 8; every other
field value is legal. -/
def Instr.wellFormed : Instr → Bool
  | .bmGet => true
  | .bmSet _ => true
  | .bmCopy => true
  | .bmRev => true
  | .bmMatch plen => decide (plen.toNat ≤ Config.patMax)
  | .bmSeek plen => decide (plen.toNat ≤ Config.patMax)
  | .bmReadw nbits => decide (nbits.toNat ≤ 32)
  | .lcManch _ _ olen zlen =>
    decide (1 ≤ olen.toNat ∧ olen.toNat ≤ Config.lcPatMax ∧ 1 ≤ zlen.toNat ∧ zlen.toNat ≤ Config.lcPatMax)
  | .lcDiffm => true
  | .crc8 => true
  | .crc16 => true
  | .pcSnap => true
  | .pcClassify _ => true
  | .pcTobits _ => true
  | .pcScan => true

end Sys2Proof
end

