-- ==== Sys2Proof/Decode.lean ====
section
/-!
DEFINITION. Sys2Proof/Decode.lean: the decoder, total on 32-bit words, and the encoder, both from the
tables of 30_encoding.md (R91, R99 to R103). A word that is no command is rejected by the name of the
first check that fails: the opcode, then the reserved bits, then the field values (R242).
-/

namespace Sys2Proof

/-- Why a word is no command (R100, R101, R102). -/
inductive DecodeError where
  /-- The opcode byte is not in the map (R100). -/
  | illegalOpcode
  /-- A bit the format reserves is 1 (R101). -/
  | reservedBits
  /-- A field value is illegal (R102). -/
  | fieldRange
deriving DecidableEq, Repr

/-- `CMD[7:0]`, the opcode (R90). -/
def opcodeField (w : Word) : BitVec 8 := w.extractLsb' 0 8

/-- R102, the last check on a word: the fields hold legal values. -/
def checkFields (i : Instr) : Except DecodeError Instr :=
  if i.wellFormed then .ok i else .error .fieldRange

/-- Format N: bits 31:8 are reserved (R91). -/
def decodeN (i : Instr) (w : Word) : Except DecodeError Instr :=
  if w.extractLsb' 8 24 = 0#24 then checkFields i else .error .reservedBits

/-- Format V: bit 8 is `VAL`, bits 31:9 are reserved (R91, R92). -/
def decodeV (mk : Bool → Instr) (w : Word) : Except DecodeError Instr :=
  if w.extractLsb' 9 23 = 0#23 then checkFields (mk (w.getLsbD 8)) else .error .reservedBits

/-- Format P: bits 14:8 are `PLEN`, bits 31:15 are reserved (R91, R94). -/
def decodeP (mk : BitVec 7 → Instr) (w : Word) : Except DecodeError Instr :=
  if w.extractLsb' 15 17 = 0#17 then checkFields (mk (w.extractLsb' 8 7)) else .error .reservedBits

/-- Format W: bits 13:8 are `NBITS`, bits 31:14 are reserved (R91, R93). -/
def decodeW (mk : BitVec 6 → Instr) (w : Word) : Except DecodeError Instr :=
  if w.extractLsb' 14 18 = 0#18 then checkFields (mk (w.extractLsb' 8 6)) else .error .reservedBits

/-- Format M: `OPAT`, `ZPAT`, `OLEN`, `ZLEN` from bit 31 down; no reserved bit (R91, R95). -/
def decodeM (mk : BitVec 8 → BitVec 8 → BitVec 4 → BitVec 4 → Instr) (w : Word) :
    Except DecodeError Instr :=
  checkFields (mk (w.extractLsb' 24 8) (w.extractLsb' 16 8) (w.extractLsb' 12 4) (w.extractLsb' 8 4))

/-- `SRC = 0` selects `Snap`, `SRC = 1` selects `Det` (R98). -/
def srcOfBit (b : Bool) : Src := if b then .det else .snap

/-- The bit that selects a source (R98). -/
def bitOfSrc : Src → Bool
  | .snap => false
  | .det => true

/-- Format S: bit 8 is `SRC`, bits 31:9 are reserved (R91, R98). -/
def decodeS (mk : Src → Instr) (w : Word) : Except DecodeError Instr :=
  decodeV (fun b => mk (srcOfBit b)) w

/-- The command a word stands for, or the reason it stands for none (R99 to R103). -/
def decode (w : Word) : Except DecodeError Instr :=
  if opcodeField w = 0x10#8 then decodeN .bmGet w
  else if opcodeField w = 0x11#8 then decodeV .bmSet w
  else if opcodeField w = 0x12#8 then decodeN .bmCopy w
  else if opcodeField w = 0x13#8 then decodeN .bmRev w
  else if opcodeField w = 0x14#8 then decodeP .bmMatch w
  else if opcodeField w = 0x15#8 then decodeP .bmSeek w
  else if opcodeField w = 0x16#8 then decodeW .bmReadw w
  else if opcodeField w = 0x20#8 then decodeM .lcManch w
  else if opcodeField w = 0x21#8 then decodeN .lcDiffm w
  else if opcodeField w = 0x30#8 then decodeN .crc8 w
  else if opcodeField w = 0x31#8 then decodeN .crc16 w
  else if opcodeField w = 0x40#8 then decodeN .pcSnap w
  else if opcodeField w = 0x41#8 then decodeS .pcClassify w
  else if opcodeField w = 0x42#8 then decodeS .pcTobits w
  else if opcodeField w = 0x43#8 then decodeN .pcScan w
  else .error .illegalOpcode

/-- A format N word: zeros above the opcode (R91). -/
def encodeN (op : BitVec 8) : Word := 0#24 ++ op

/-- A format V or S word: one field bit above the opcode (R91). -/
def encodeV (op : BitVec 8) (b : Bool) : Word := 0#23 ++ BitVec.ofBool b ++ op

/-- A format P word (R91). -/
def encodeP (op : BitVec 8) (plen : BitVec 7) : Word := 0#17 ++ plen ++ op

/-- A format W word (R91). -/
def encodeW (op : BitVec 8) (nbits : BitVec 6) : Word := 0#18 ++ nbits ++ op

/-- A format M word (R91). -/
def encodeM (op : BitVec 8) (opat zpat : BitVec 8) (olen zlen : BitVec 4) : Word :=
  opat ++ zpat ++ olen ++ zlen ++ op

/-- The word of a command (R99, R105). -/
def encode : Instr → Word
  | .bmGet => encodeN 0x10#8
  | .bmSet val => encodeV 0x11#8 val
  | .bmCopy => encodeN 0x12#8
  | .bmRev => encodeN 0x13#8
  | .bmMatch plen => encodeP 0x14#8 plen
  | .bmSeek plen => encodeP 0x15#8 plen
  | .bmReadw nbits => encodeW 0x16#8 nbits
  | .lcManch opat zpat olen zlen => encodeM 0x20#8 opat zpat olen zlen
  | .lcDiffm => encodeN 0x21#8
  | .crc8 => encodeN 0x30#8
  | .crc16 => encodeN 0x31#8
  | .pcSnap => encodeN 0x40#8
  | .pcClassify src => encodeV 0x41#8 (bitOfSrc src)
  | .pcTobits src => encodeV 0x42#8 (bitOfSrc src)
  | .pcScan => encodeN 0x43#8

/-- The command in the low `nbits` bits of `w`, numbered as spec/opcode_table.json numbers them; every
command is one 32-bit word written to `CMD` (R90, R104), so there is no byte order to undo. -/
def decodeTableWord (nbits w : Nat) : Option Instr :=
  match decode (BitVec.ofNat 32 (w % 2 ^ nbits)) with
  | .ok i => some i
  | .error _ => none

end Sys2Proof
end

