-- ==== Sys2Proof/Machine/State.lean ====
section
/-!
DEFINITION. Sys2Proof/Machine/State.lean: everything the spec gives the machine (10_state.md), as
plain data, the reasons a step can stop, and the state after power-on reset (70_reset_and_hazards.md
R270).
-/

namespace Sys2Proof.Machine

/-- A pulse entry: signal level (1 high) and 32-bit duration (43_classifier.md R180). -/
structure Pulse where
  level : Bool
  dur : Word
deriving DecidableEq, Repr

/-- The implementation parameters `PULSE_CAP` and `BMEM_BYTES` (R7), which `CFG_CAP` and `CFG_BMEM`
read back (R47). They are part of the state so that every statement about all states is one about
all their values; no step changes them (log 1). -/
structure Params where
  pulseCap : Nat
  bmemBytes : Nat
deriving DecidableEq, Repr

/-- The configuration registers (R30 to R38) and `CTRL.DEC_BYPASS` (R22): what a command latches
besides its word and operands (R39). Each field has the width of the bits that exist. -/
structure ConfigRegs where
  minDur : Word
  maxDur : Word
  tolPct : BitVec 7
  tolStrict : Bool
  minRun : Word
  lookback : BitVec 16
  lookahead : BitVec 16
  repCap : BitVec 16
  minClassCnt : BitVec 8
  winBase : Word
  winLen : Word
  decBypass : Bool
deriving DecidableEq, Repr

/-- One duration class: running average and sample count (R185); naturals while a run is classified,
32-bit words in the registers (R41). -/
structure Slot (α : Type) where
  avg : α
  cnt : α
deriving DecidableEq, Repr

/-- The three class slots of one level (R7 `NCLASS`, R185). -/
structure LevelTable (α : Type) where
  s0 : Slot α
  s1 : Slot α
  s2 : Slot α
deriving DecidableEq, Repr

/-- The class table: slots per level, level 0 low and level 1 high (R41, R185). -/
structure ClassTable (α : Type) where
  low : LevelTable α
  high : LevelTable α
deriving DecidableEq, Repr

/-- The held best candidate (R42) with its two `STATUS` flags (R26). -/
structure HeldBest where
  valid : Bool
  decoded : Bool
  len : Word
  unit : Word
  start : Word
  wbits : Word
  bitoff : Word
  bitcnt : Word
  widx : Word
deriving DecidableEq, Repr

/-- The private latch an engine copies at acceptance (R39): the command word, the operand registers,
the pattern and the configuration. All of `ARG0` to `ARG7` are copied; a command reads the ones its
operand table names (log 7). -/
structure Latch where
  word : Word
  args : Vector Word 8
  pat : BitVec 64
  cfg : ConfigRegs
deriving DecidableEq, Repr

/-- The primitive engine (R49): `PE.pending`, its latch, and the copy index and sampled write index
of `PC.SNAP` (43_classifier.md R183). -/
structure PeState where
  pending : Bool
  latch : Latch
  copyIdx : Nat
  sampledW : Nat
deriving DecidableEq, Repr

/-- The phases of the scan sequencer (44_scan.md R211), and `idle` when no scan is active. -/
inductive Phase where
  | idle
  | copy
  | classify
  | convert
  | wait
  | update
  | done
deriving DecidableEq, Repr

/-- The scan sequencer (R49, R211): phase, latch, `c`, `w`, the cursor `i`, `len`, `u`, `nb`, the
latched verdict `(vd, vo, vc)` and the counters `nreq` and `nrep`. -/
structure SqState where
  phase : Phase
  latch : Latch
  copyIdx : Nat
  sampledW : Nat
  cursor : Nat
  len : Nat
  unit : Nat
  nb : Nat
  vd : Bool
  vo : Word
  vc : Word
  nreq : Nat
  nrep : Nat
deriving DecidableEq, Repr

/-- A host access at a 22-bit byte offset (20_memory.md R72, R74). `size` is the number of bytes: the
interface takes 4, naturally aligned, and nothing else (R74). -/
inductive HostOp where
  | read (size : Nat) (offset : BitVec 22)
  | write (size : Nat) (offset : BitVec 22) (data : Word)
deriving DecidableEq, Repr

/-- One turn of one agent (00_scope.md R14). The order of turns is an input of the machine (log 4).
`waitIdle` and `waitScan` are the host's polling directives `wait` and `waitscan` (R105, log 21). -/
inductive Event where
  /-- The host makes one access. -/
  | host (op : HostOp)
  /-- The capture agent appends a pulse (R181). -/
  | capture (p : Pulse)
  /-- The primitive engine takes its turn (R243). -/
  | pe
  /-- The scan sequencer takes its turn (R211). -/
  | sq
  /-- The host polls `STATUS` until `BUSY = 0` (R105). -/
  | waitIdle
  /-- The host polls `STATUS` until `SCAN = 0` or `DEC_WAIT = 1` (R105). -/
  | waitScan
deriving DecidableEq, Repr

/-- Why a machine stops with a fault. The hardware has no traps (60_exceptions.md R244). -/
inductive Fault where
  /-- Raised by a command or a scan step whose latched descriptor reaches past `BMEM_BYTES`: there is
  no such byte of BMEM (20_memory.md R71). No run reaches it, because the descriptor is checked at
  issue (40_bitmap.md R112). Safe (log 11). -/
  | bmemOutside
deriving DecidableEq, Repr

/-- Why a machine refuses to go on. -/
inductive Refusal where
  /-- An instruction with no meaning yet, by its mnemonic; raised by no arm of this model. Safe. -/
  | notModelled (mnemonic : String)
  /-- Raised by a host access that is not a naturally aligned 32-bit word: the spec gives it no
  meaning and has the run refused (20_memory.md R74, U3). Safe (log 13). -/
  | hostAccess
  /-- Raised by an engine whose latched word is none of the fifteen commands. No run reaches it,
  because such a word is rejected at issue (60_exceptions.md R242). Safe (log 12). -/
  | undecodedLatch (why : DecodeError)
deriving DecidableEq, Repr

/-- The whole machine (10_state.md). BMEM and the three pulse memories list what has been written
since power-on, addresses strictly rising; what is not listed still holds its power-on draw (log 2).
`schedule`, `readData` and `draws` are the model's own (logs 4, 10, 3). -/
structure State where
  /-- `CFG_CAP` and `CFG_BMEM` (R47). -/
  params : Params
  /-- `CMD` (R27). -/
  cmd : Word
  /-- `ARG0` to `ARG7` (R23). -/
  args : Vector Word 8
  /-- `PATLO` (R24). -/
  patlo : Word
  /-- `PATHI` (R24). -/
  pathi : Word
  /-- `RESULT0` (R25). -/
  result0 : Word
  /-- `RESULT1` (R25). -/
  result1 : Word
  /-- `IRQ_EN` (R28). -/
  irqEn : BitVec 5
  /-- `IRQ_STATUS` (R28). -/
  irqStatus : BitVec 5
  /-- The configuration registers (R30 to R38) and `CTRL.DEC_BYPASS` (R22). -/
  regs : ConfigRegs
  /-- `STATUS.FOUND` (R26). -/
  found : Bool
  /-- `STATUS.ERR_CODE` (R26). -/
  errCode : BitVec 8
  /-- `STATUS.LAST_OP` (R26). -/
  lastOp : BitVec 8
  /-- `RUN_LEN` (R40). -/
  runLen : Word
  /-- `UNIT_DUR` (R40). -/
  unitDur : Word
  /-- `CLS_AVG_l_k` and `CLS_CNT_l_k` (R41). -/
  cls : ClassTable Word
  /-- `BEST_*`, `STATUS.BEST_VALID`, `STATUS.BEST_DECODED` (R42, R26). -/
  best : HeldBest
  /-- `SCAN_CUR` (R44). -/
  scanCur : Word
  /-- `DEC_NBITS` (R44). -/
  decNbits : Word
  /-- `DEC_BITOFF` (R44). -/
  decBitoff : Word
  /-- `DEC_BITCNT` (R44). -/
  decBitcnt : Word
  /-- `SNAP_WIDX` (R45). -/
  snapWidx : Word
  /-- `PUSH_LVL[0]` (R46). -/
  pushLvl : Bool
  /-- `BMEM` (R48, R70). -/
  bmem : List Host.Cell
  /-- `Ring` (R48). -/
  ring : List (Nat × Pulse)
  /-- `Snap` (R48). -/
  snap : List (Nat × Pulse)
  /-- `Det` (R48). -/
  det : List (Nat × Pulse)
  /-- `WIDX` (R49), which `RING_WIDX` reads (R46). -/
  widx : Nat
  /-- The primitive engine (R49). -/
  pe : PeState
  /-- The scan sequencer (R49). -/
  sq : SqState
  /-- The coming turns of the agents (log 4). -/
  schedule : List Event
  /-- What the interface last returned to a host read (log 10). -/
  readData : Word
  /-- How many unspecified values host reads have drawn (log 3). -/
  draws : Nat
deriving DecidableEq, Repr

/-- The reset values of the configuration registers (R20, R270). -/
def ConfigRegs.reset (bmemBytes : Nat) : ConfigRegs :=
  { minDur := 0#32, maxDur := 4000#32, tolPct := 20#7, tolStrict := false, minRun := 18#32,
    lookback := 32#16, lookahead := 100#16, repCap := 1024#16, minClassCnt := 3#8,
    winBase := 0#32, winLen := BitVec.ofNat 32 bmemBytes, decBypass := false }

/-- A class slot with nothing in it (R185). -/
def Slot.empty {α : Type} (zero : α) : Slot α := { avg := zero, cnt := zero }

/-- Three empty slots (R185). -/
def LevelTable.empty {α : Type} (zero : α) : LevelTable α :=
  { s0 := Slot.empty zero, s1 := Slot.empty zero, s2 := Slot.empty zero }

/-- The cleared class table (R185). -/
def ClassTable.empty {α : Type} (zero : α) : ClassTable α :=
  { low := LevelTable.empty zero, high := LevelTable.empty zero }

/-- No held best (R225, R270). -/
def HeldBest.empty : HeldBest :=
  { valid := false, decoded := false, len := 0#32, unit := 0#32, start := 0#32, wbits := 0#32,
    bitoff := 0#32, bitcnt := 0#32, widx := 0#32 }

/-- The latch of an engine that has taken no command. DESIGN CHOICE, unsafe, log 8: its contents are
unspecified at reset and never read while the engine is idle (R270, U4). -/
def Latch.blank : Latch :=
  { word := 0#32, args := Vector.replicate 8 0#32, pat := 0#64, cfg := ConfigRegs.reset 0 }

/-- The idle primitive engine (R270). DESIGN CHOICE, unsafe, log 8: the latch, and the copy index and the
sampled write index of `PC.SNAP` (R183), to which the spec gives no reset value, are 0. -/
def PeState.idle : PeState :=
  { pending := false, latch := Latch.blank, copyIdx := 0, sampledW := 0 }

/-- The idle scan sequencer (R270; variables: log 8). -/
def SqState.idle : SqState :=
  { phase := .idle, latch := Latch.blank, copyIdx := 0, sampledW := 0, cursor := 0, len := 0,
    unit := 0, nb := 0, vd := false, vo := 0#32, vc := 0#32, nreq := 0, nrep := 0 }

/-- The machine with these parameters right after power-on reset (R270): the reset column of R20, both
engines idle, and every memory holding its draws. -/
def State.powerOn (pulseCap bmemBytes : Nat) : State :=
  { params := { pulseCap := pulseCap, bmemBytes := bmemBytes }
    cmd := 0#32
    args := Vector.replicate 8 0#32
    patlo := 0#32
    pathi := 0#32
    result0 := 0#32
    result1 := 0#32
    irqEn := 0#5
    irqStatus := 0#5
    regs := ConfigRegs.reset bmemBytes
    found := false
    errCode := 0#8
    lastOp := 0#8
    runLen := 0#32
    unitDur := 0#32
    cls := ClassTable.empty 0#32
    best := HeldBest.empty
    scanCur := 0#32
    decNbits := 0#32
    decBitoff := 0#32
    decBitcnt := 0#32
    snapWidx := 0#32
    pushLvl := false
    bmem := []
    ring := []
    snap := []
    det := []
    widx := 0
    pe := PeState.idle
    sq := SqState.idle
    schedule := []
    readData := 0#32
    draws := 0 }

/-- The machine right after power-on reset, with the parameters of log 1. -/
def State.reset : State := State.powerOn Config.resetPulseCap Config.resetBmemBytes

end Sys2Proof.Machine
end

