-- ==== Sys2Proof/Machine/Flags.lean ====
section
/-!
DEFINITION. Sys2Proof/Machine/Flags.lean: the bits of `STATUS` and `IRQ_STATUS` and the interrupt output
(10_state.md R26, R28; 60_exceptions.md R240, R246, R248).
-/

namespace Sys2Proof.Machine

/-- `IRQ_STATUS.DONE`, bit 0 (R246). -/
def irqDone : BitVec 5 := 0x01#5

/-- `IRQ_STATUS.DEC_REQ`, bit 1 (R246). -/
def irqDecReq : BitVec 5 := 0x02#5

/-- `IRQ_STATUS.ERR`, bit 2 (R246). -/
def irqErr : BitVec 5 := 0x04#5

/-- `IRQ_STATUS.BEST_UPD`, bit 3 (R246). -/
def irqBestUpd : BitVec 5 := 0x08#5

/-- `IRQ_STATUS.OVR`, bit 4 (R246). -/
def irqOvr : BitVec 5 := 0x10#5

/-- Set interrupt status bits; the others stay (R247). -/
def State.raise (s : State) (bits : BitVec 5) : State :=
  { s with irqStatus := s.irqStatus ||| bits }

/-- A write of `v` to `IRQ_STATUS` clears the bits that are 1 in `v` (R28, R247). -/
def State.clearIrq (s : State) (v : BitVec 5) : State :=
  { s with irqStatus := s.irqStatus &&& ~~~v }

/-- The interrupt output: some status bit is set and enabled (R248). -/
def State.irq (s : State) : Bool := (s.irqStatus &&& s.irqEn) != 0#5

/-- `STATUS.SCAN`: a scan is active (R26, R222). DEDUCED, safe, log 9: computed from the phase. -/
def State.scanning (s : State) : Bool := decide (s.sq.phase ≠ .idle)

/-- `STATUS.DEC_WAIT`: the scan waits for a verdict (R26, R216). DEDUCED, safe, log 9. -/
def State.decWait (s : State) : Bool := decide (s.sq.phase = .wait)

/-- The scan sequencer has an enabled step: it is active and does not wait (R211). -/
def State.sqEnabled (s : State) : Bool := decide (s.sq.phase ≠ .idle ∧ s.sq.phase ≠ .wait)

/-- `BUSY = PE.pending or (SQ active and SQ.phase != WAIT)` (R240). -/
def State.busy (s : State) : Bool := s.pe.pending || s.sqEnabled

/-- `STATUS` as the host reads it (R26): `LAST_OP` in 23:16, `ERR_CODE` in 15:8, then the six flags. -/
def State.status (s : State) : Word :=
  0#8 ++ s.lastOp ++ s.errCode ++ 0#2 ++ BitVec.ofBool s.best.decoded ++ BitVec.ofBool s.best.valid
    ++ BitVec.ofBool s.found ++ BitVec.ofBool s.decWait ++ BitVec.ofBool s.scanning
    ++ BitVec.ofBool s.busy

/-- Write `STATUS.FOUND` (R26). -/
def State.setFound (s : State) (b : Bool) : State := { s with found := b }

/-- The error codes of R241. -/
inductive ErrCode where
  | none
  | illegalOpcode
  | reservedBits
  | bufferRange
  | fieldRange
  | busy
  | scanConflict
deriving DecidableEq, Repr

/-- The value of a code in `STATUS.ERR_CODE` (R241). -/
def ErrCode.toByte : ErrCode → BitVec 8
  | .none => 0x00#8
  | .illegalOpcode => 0x01#8
  | .reservedBits => 0x02#8
  | .bufferRange => 0x03#8
  | .fieldRange => 0x04#8
  | .busy => 0x05#8
  | .scanConflict => 0x06#8

/-- The code under which a word that is no command is rejected (R100, R101, R102). -/
def ErrCode.ofDecodeError : DecodeError → ErrCode
  | .illegalOpcode => .illegalOpcode
  | .reservedBits => .reservedBits
  | .fieldRange => .fieldRange

end Sys2Proof.Machine
end

