-- ==== Sys2Proof/Machine/Ops.lean ====
section
/-!
DEFINITION. Sys2Proof/Machine/Ops.lean: the named operations over memories and registers.
The rejection of a command stands here as the one shared operation that reports an error: the hardware
takes no exception, saves nothing and returns from nothing (60_exceptions.md R244).
-/

namespace Sys2Proof.Machine

/-! Memories as lists of (address, value), addresses strictly rising (log 2). -/

/-- The value written at an address since power-on, if any. -/
def Memory.find {α : Type} : List (Nat × α) → Nat → Option α
  | [], _ => none
  | (b, v) :: rest, a => if b = a then some v else Memory.find rest a

/-- Write a value at an address, keeping addresses strictly rising. -/
def Memory.store {α : Type} : List (Nat × α) → Nat → α → List (Nat × α)
  | [], a, v => [(a, v)]
  | (b, x) :: rest, a, v =>
    if a < b then (a, v) :: (b, x) :: rest
    else if a = b then (a, v) :: rest
    else (b, x) :: Memory.store rest a v

/-- The canonical form of a memory of `size` cells: addresses strictly rising and all of them exist.
An unlisted address holds no written value, so no listed entry can equal what it stands for (log 2). -/
abbrev Memory.wf {α : Type} (size : Nat) (m : List (Nat × α)) : Prop :=
  (m.map Prod.fst).Pairwise (· < ·) ∧ ∀ a ∈ m.map Prod.fst, a < size

/-- Every entry 0 to `size - 1`, written with `f`. -/
def Memory.tabulate {α : Type} (size : Nat) (f : Nat → α) : List (Nat × α) :=
  (List.range size).map fun j => (j, f j)

/-- `MemRead(a, 1)` (R71): the byte last written, or the power-on draw (R270, U1). -/
def memRead (m : List Host.Cell) (a : Nat) : Byte :=
  (Memory.find m a).getD (Config.powerOnByte a)

/-- `MemWrite(a, 1, v)` (R71). -/
def memWrite (m : List Host.Cell) (a : Nat) (v : Byte) : List Host.Cell := Memory.store m a v

/-- Entry `k` of a pulse memory (R10): the pulse last written, or the power-on draw (R270, U1). -/
def pulseRead (which : PulseMemory) (m : List (Nat × Pulse)) (k : Nat) : Pulse :=
  (Memory.find m k).getD { level := Config.powerOnLevel which k, dur := Config.powerOnDur which k }

/-- A buffer descriptor `D = (base, len)` over BMEM (R112). -/
structure Desc where
  base : Nat
  len : Nat
deriving DecidableEq, Repr

/-- A descriptor is in range iff `base + len <= BMEM_BYTES`, computed exactly (R112). -/
def Desc.inRange (d : Desc) (bmemBytes : Nat) : Bool := decide (d.base + d.len ≤ bmemBytes)

/-- The number of bit positions of a descriptor: those at or past `8*len` are out of range (R110). -/
def Desc.bits (d : Desc) : Nat := 8 * d.len

/-- Position `p` names bit `7 - (p mod 8)` of its byte: most significant first (R9). -/
def bitIndex (p : Nat) : Nat := 7 - p % 8

/-- `BGet(D, p)`: a bit, 0 past the end (R110). -/
def bget (m : List Host.Cell) (d : Desc) (p : Nat) : Bool :=
  if p < d.bits then (memRead m (d.base + p / 8)).getLsbD (bitIndex p) else false

/-- A byte with bit `i` replaced by `v` (R111). -/
def setByteBit (b : Byte) (i : Nat) (v : Bool) : Byte :=
  (b &&& ~~~(1#8 <<< i)) ||| (if v then 1#8 <<< i else 0#8)

/-- `BSet(D, p, v)`: write one bit, nothing past the end (R111). -/
def bset (m : List Host.Cell) (d : Desc) (p : Nat) (v : Bool) : List Host.Cell :=
  if p < d.bits then
    memWrite m (d.base + p / 8) (setByteBit (memRead m (d.base + p / 8)) (bitIndex p) v)
  else m

/-- Write `v` to the `n` bytes from `base` on, ascending. -/
def fillBytes (v : Byte) : Nat → Nat → List Host.Cell → List Host.Cell
  | _, 0, m => m
  | base, n + 1, m => fillBytes v (base + 1) n (memWrite m base v)

/-- The `n` bytes from `base` on, ascending (R160). -/
def readBytes (m : List Host.Cell) (base n : Nat) : List Byte :=
  (List.range n).map fun i => memRead m (base + i)

/-! Updates of the machine. -/

/-- Write `RESULT0` (R25). -/
def State.setResult0 (s : State) (v : Word) : State := { s with result0 := v }

/-- Write `RESULT1` (R25). -/
def State.setResult1 (s : State) (v : Word) : State := { s with result1 := v }

/-- Replace the contents of BMEM (R70). -/
def State.setBmem (s : State) (m : List Host.Cell) : State := { s with bmem := m }

/-- Replace the scan sequencer's variables (R211). -/
def State.setSq (s : State) (q : SqState) : State := { s with sq := q }

/-- Write `SCAN_CUR` (R44, R211). -/
def State.setScanCur (s : State) (i : Nat) : State := { s with scanCur := BitVec.ofNat 32 i }

/-- Completion of a command of the primitive engine: `PE.pending <- 0`, `DONE` raised (R243, R246). -/
def State.completePe (s : State) : State :=
  { s with pe := { s.pe with pending := false }, irqStatus := s.irqStatus ||| irqDone }

/-- Reject a word written to `CMD`: the word stays readable, the code is reported, `ERR` is raised, and
nothing else changes (R240, R241). -/
def State.reject (s : State) (x : Word) (code : ErrCode) : State :=
  { s with cmd := x, errCode := code.toByte, irqStatus := s.irqStatus ||| irqErr }

/-- Set the `OVR` bit for a write the interface refuses; nothing else changes (R250). -/
def State.overrun (s : State) : State := s.raise irqOvr

/-- A capture step: the pulse takes the slot at the write index, which moves on (R181). -/
def State.appendPulse (s : State) (p : Pulse) : State :=
  { s with ring := Memory.store s.ring s.widx p, widx := (s.widx + 1) % s.params.pulseCap }

/-- One slot of the snapshot copy: `Snap[c] <- Ring[(w + c) mod PULSE_CAP]` (R183, R212). -/
def State.copySlot (s : State) (w c : Nat) : State :=
  { s with snap := Memory.store s.snap c (pulseRead .ring s.ring ((w + c) % s.params.pulseCap)) }

/-- `CTRL.RING_CLR`: every `Ring[k]` becomes `(0, 0)` and `WIDX` 0 (R184). -/
def State.clearRing (s : State) : State :=
  { s with ring := Memory.tabulate s.params.pulseCap fun _ => { level := false, dur := 0#32 }
           widx := 0 }

/-- `CTRL.CLR_BEST`: the held best is dropped, `Det` stays (R225). -/
def State.clearBest (s : State) : State := { s with best := HeldBest.empty }

/-- `CTRL.SOFT_RST`: every register takes its reset value and both engines become idle; `Ring`, `WIDX`,
BMEM, `Snap` and `Det` keep their contents (R271), and so do the model's own fields (log 16). -/
def State.softReset (s : State) : State :=
  { State.powerOn s.params.pulseCap s.params.bmemBytes with
    bmem := s.bmem, ring := s.ring, snap := s.snap, det := s.det, widx := s.widx
    schedule := s.schedule, readData := s.readData, draws := s.draws }

/-- What the host's read returned (R79; log 10). -/
def State.returnWord (s : State) (v : Word) : State := { s with readData := v }

/-- A host read that the spec leaves unspecified returns a fresh draw (R50, U2; log 3). -/
def State.returnDraw (s : State) : State :=
  { s with readData := Config.busyRead s.draws, draws := s.draws + 1 }

end Sys2Proof.Machine
end

