-- ==== Sys2Proof/Machine/Operands.lean ====
section
/-!
DEFINITION. Sys2Proof/Machine/Operands.lean: the operands of every command (30_encoding.md R94 to R98),
as its engine's latch holds them (10_state.md R39).
-/

namespace Sys2Proof.Machine

/-- What an engine copies when it accepts the word `x` (R39). Every `ARGn` is copied; a command reads
only the ones its operand table names, so the others cannot show (log 7). -/
def Latch.capture (s : State) (x : Word) : Latch :=
  { word := x, args := s.args, pat := s.pathi ++ s.patlo, cfg := s.regs }

/-- Operand `ARGn` as an unsigned natural (R97). -/
def Latch.arg (l : Latch) (n : Fin 8) : Nat := l.args[n].toNat

/-- The first buffer of a command: base in `ARG0`, length in `ARG1` (R96). -/
def Latch.buf0 (l : Latch) : Desc := { base := l.arg 0, len := l.arg 1 }

/-- The second buffer of `BM.COPY` (its source) and of the line-code and conversion commands (their
output): base in `ARG3`, length in `ARG4` (R96). -/
def Latch.buf3 (l : Latch) : Desc := { base := l.arg 3, len := l.arg 4 }

/-- The region of BMEM where a scan builds its windows: `(WIN_BASE, WIN_LEN)` (R38). -/
def Latch.window (l : Latch) : Desc := { base := l.cfg.winBase.toNat, len := l.cfg.winLen.toNat }

/-- The buffer descriptors a command names, all of them checked at issue (R96, R112, R242). -/
def descriptors (i : Instr) (l : Latch) : List Desc :=
  match i with
  | .bmGet => [l.buf0]
  | .bmSet _ => [l.buf0]
  | .bmCopy => [l.buf0, l.buf3]
  | .bmRev => [l.buf0]
  | .bmMatch _ => [l.buf0]
  | .bmSeek _ => [l.buf0]
  | .bmReadw _ => [l.buf0]
  | .lcManch _ _ _ _ => [l.buf0, l.buf3]
  | .lcDiffm => [l.buf0, l.buf3]
  | .crc8 => [l.buf0]
  | .crc16 => [l.buf0]
  | .pcSnap => []
  | .pcClassify _ => []
  | .pcTobits _ => [l.buf3]
  | .pcScan => [l.window]

/-- Every descriptor of a command is in range (R112). -/
def inRange (ds : List Desc) (bmemBytes : Nat) : Bool := ds.all fun d => d.inRange bmemBytes

/-- Go on to `t` if the latched descriptors lie in BMEM. They do in every run (R112, R242); a latch that
says otherwise names bytes that do not exist (log 11). -/
def ifInRange (ds : List Desc) (s t : State) : Host.Outcome State Fault Refusal :=
  if inRange ds s.params.bmemBytes then .next t else .fault .bmemOutside

/-- Bit `i` of a pattern of `n` bits held right-aligned in `v`: bit `n - 1 - i` of `v` (R94, R95). -/
def patternBit {w : Nat} (v : BitVec w) (n i : Nat) : Bool := v.getLsbD (n - 1 - i)

/-- The pulse a command with source `src` reads at a logical index: reduced modulo `PULSE_CAP`
(R98, R182). -/
def State.pulseAt (s : State) (src : Src) (k : Nat) : Pulse :=
  match src with
  | .snap => pulseRead .snap s.snap (k % s.params.pulseCap)
  | .det => pulseRead .det s.det (k % s.params.pulseCap)

end Sys2Proof.Machine
end

