-- ==== Sys2Proof/Machine/Bitmap.lean ====
section
/-!
DEFINITION. Sys2Proof/Machine/Bitmap.lean: the bitmap commands (40_bitmap.md). Each meaning is the one
atomic step of the primitive engine for the accepted command (60_exceptions.md R243).
-/

namespace Sys2Proof.Machine

/-- `Match(D, off, P, n)`: every pattern bit equals the bitmap's bit (R117). -/
def matchAt (m : List Host.Cell) (d : Desc) (off : Nat) (pat : Nat → Bool) (n : Nat) : Bool :=
  (List.range n).all fun i => bget m d (off + i) == pat i

/-- The lowest `j` among the `n` positions from `start` on for which `p` holds (R119). -/
def firstFrom (p : Nat → Bool) : Nat → Nat → Option Nat
  | _, 0 => none
  | j, n + 1 => if p j then some j else firstFrom p (j + 1) n

/-- The number read from `n` bits, the first the most significant (R121). -/
def bitsToNat (bit : Nat → Bool) : Nat → Nat
  | 0 => 0
  | n + 1 => 2 * bitsToNat bit n + (bit n).toNat

/-- The ascending copy loop: each read sees the earlier writes (R115, D14; log 14). -/
def copyBits (dst src : Desc) : Nat → Nat → Nat → List Host.Cell → List Host.Cell
  | _, _, 0, m => m
  | doff, soff, n + 1, m => copyBits dst src (doff + 1) (soff + 1) n (bset m dst doff (bget m src soff))

/-- A byte with its bits reversed: `r[i] = b[7 - i]` (R116). -/
def reverseByte (b : Byte) : Byte := b.reverse

/-- Reverse the bits of each of the `n` bytes from `base` on (R116). -/
def reverseBytes : Nat → Nat → List Host.Cell → List Host.Cell
  | _, 0, m => m
  | base, n + 1, m => reverseBytes (base + 1) n (memWrite m base (reverseByte (memRead m base)))

/-- `BM.GET` (R113). -/
def execBmGet (s : State) : Host.Outcome State Fault Refusal :=
  ifInRange [s.pe.latch.buf0] s
    (s.setResult0 (Word.ofBit (bget s.bmem s.pe.latch.buf0 (s.pe.latch.arg 2)))).completePe

/-- `BM.SET` (R114). -/
def execBmSet (val : Bool) (s : State) : Host.Outcome State Fault Refusal :=
  ifInRange [s.pe.latch.buf0] s
    (s.setBmem (bset s.bmem s.pe.latch.buf0 (s.pe.latch.arg 2) val)).completePe

/-- `BM.COPY` (R115): destination in `ARG0` to `ARG2`, source in `ARG3` to `ARG5`, count in `ARG6`. -/
def execBmCopy (s : State) : Host.Outcome State Fault Refusal :=
  ifInRange [s.pe.latch.buf0, s.pe.latch.buf3] s
    (s.setBmem (copyBits s.pe.latch.buf0 s.pe.latch.buf3 (s.pe.latch.arg 2) (s.pe.latch.arg 5)
      (s.pe.latch.arg 6) s.bmem)).completePe

/-- `BM.REV` (R116). -/
def execBmRev (s : State) : Host.Outcome State Fault Refusal :=
  ifInRange [s.pe.latch.buf0] s
    (s.setBmem (reverseBytes (s.pe.latch.arg 0) (s.pe.latch.arg 1) s.bmem)).completePe

/-- `BM.MATCH` (R118). -/
def execBmMatch (plen : BitVec 7) (s : State) : Host.Outcome State Fault Refusal :=
  let hit := matchAt s.bmem s.pe.latch.buf0 (s.pe.latch.arg 2)
    (patternBit s.pe.latch.pat plen.toNat) plen.toNat
  ifInRange [s.pe.latch.buf0] s ((s.setResult0 (Word.ofBit hit)).setFound hit).completePe

/-- The search of `BM.SEEK`: candidates from `start` up to `min(start + max_bits, 8*len)` (R119). -/
def seek (m : List Host.Cell) (d : Desc) (start maxBits : Nat) (pat : Nat → Bool) (n : Nat) :
    Option Nat :=
  firstFrom (fun j => matchAt m d j pat n) start (min (start + maxBits) d.bits - start)

/-- `BM.SEEK` (R119): the position found, or `0xFFFFFFFF` with `FOUND = 0`. -/
def execBmSeek (plen : BitVec 7) (s : State) : Host.Outcome State Fault Refusal :=
  let hit := seek s.bmem s.pe.latch.buf0 (s.pe.latch.arg 2) (s.pe.latch.arg 3)
    (patternBit s.pe.latch.pat plen.toNat) plen.toNat
  ifInRange [s.pe.latch.buf0] s
    ((s.setResult0 (match hit with
      | some j => BitVec.ofNat 32 j
      | none => 0xFFFFFFFF#32)).setFound hit.isSome).completePe

/-- `BM.READW` (R121). -/
def execBmReadw (nbits : BitVec 6) (s : State) : Host.Outcome State Fault Refusal :=
  ifInRange [s.pe.latch.buf0] s
    (s.setResult0 (BitVec.ofNat 32
      (bitsToNat (fun i => bget s.bmem s.pe.latch.buf0 (s.pe.latch.arg 2 + i)) nbits.toNat))).completePe

end Sys2Proof.Machine
end

