-- ==== Sys2Proof/Machine/Classifier.lean ====
section
/-!
DEFINITION. Sys2Proof/Machine/Classifier.lean: the snapshot, the duration classifier and the pulse-to-bit
conversion (43_classifier.md).
-/

namespace Sys2Proof.Machine

/-! The class table. -/

/-- `|a - b|` on naturals (R10). -/
def absDiff (a b : Nat) : Nat := (a - b) + (b - a)

/-- `Near(d, a)` (R186): the inclusive exact test, or the strict truncated one under `STRICT`. -/
def near (cfg : ConfigRegs) (d a : Nat) : Bool :=
  if cfg.tolStrict then decide (absDiff d a < cfg.tolPct.toNat * a / 100)
  else decide (100 * absDiff d a ≤ cfg.tolPct.toNat * a)

/-- A slot takes a pulse when it is free or its average is near (R187). -/
def slotTakes (cfg : ConfigRegs) (d : Nat) (sl : Slot Nat) : Bool :=
  sl.cnt == 0 || near cfg d sl.avg

/-- The slot after it takes a pulse: opened, or its running average and count updated (R187). -/
def slotJoin (d : Nat) (sl : Slot Nat) : Slot Nat :=
  if sl.cnt = 0 then { avg := d, cnt := 1 }
  else { avg := (sl.avg * sl.cnt + d) / (sl.cnt + 1), cnt := sl.cnt + 1 }

/-- The lowest slot of a level that takes the pulse takes it (R187, D23); none when all three are full
and none is near. -/
def levelPlace (cfg : ConfigRegs) (d : Nat) (t : LevelTable Nat) : Option (LevelTable Nat) :=
  if slotTakes cfg d t.s0 then some { t with s0 := slotJoin d t.s0 }
  else if slotTakes cfg d t.s1 then some { t with s1 := slotJoin d t.s1 }
  else if slotTakes cfg d t.s2 then some { t with s2 := slotJoin d t.s2 }
  else none

/-- Each level has its own three slots (R187). -/
def tablePlace (cfg : ConfigRegs) (p : Pulse) (t : ClassTable Nat) : Option (ClassTable Nat) :=
  if p.level then (levelPlace cfg p.dur.toNat t.high).map fun h => { t with high := h }
  else (levelPlace cfg p.dur.toNat t.low).map fun l => { t with low := l }

/-- A pulse outside `MIN_DUR` to `MAX_DUR` ends the run (R187). -/
def pulseAccepted (cfg : ConfigRegs) (p : Pulse) : Bool :=
  decide (cfg.minDur.toNat ≤ p.dur.toNat) && decide (p.dur.toNat ≤ cfg.maxDur.toNat)

/-- The run walk (R187): at most `fuel` more pulses, `len` so far. The pulse that ends the run is not
counted and changes no class. -/
def classifyLoop (cfg : ConfigRegs) (pulse : Nat → Pulse) (start : Nat) :
    Nat → Nat → ClassTable Nat → Nat × ClassTable Nat
  | 0, len, t => (len, t)
  | fuel + 1, len, t =>
    if pulseAccepted cfg (pulse (start + len)) then
      match tablePlace cfg (pulse (start + len)) t with
      | some t' => classifyLoop cfg pulse start fuel (len + 1) t'
      | none => (len, t)
    else (len, t)

/-- `ClassifyRun(M, s)` (R187): from an empty table, at most `PULSE_CAP` pulses. -/
def classifyRun (cfg : ConfigRegs) (pulse : Nat → Pulse) (cap start : Nat) : Nat × ClassTable Nat :=
  classifyLoop cfg pulse start cap 0 (ClassTable.empty 0)

/-- A class qualifies when it is occupied and has at least `MIN_CLASS_CNT` samples (R188). -/
def slotQualifies (cfg : ConfigRegs) (sl : Slot Nat) : Bool :=
  decide (1 ≤ sl.cnt) && decide (cfg.minClassCnt.toNat ≤ sl.cnt)

/-- The smaller of two averages, where a level may have none (R189). -/
def minAvg : Option Nat → Option Nat → Option Nat
  | none, b => b
  | a, none => a
  | some a, some b => some (min a b)

/-- The average of a qualifying class (R189). -/
def slotAvg (cfg : ConfigRegs) (sl : Slot Nat) : Option Nat :=
  if slotQualifies cfg sl then some sl.avg else none

/-- The smallest average among the qualifying classes of a level (R189). -/
def levelMin (cfg : ConfigRegs) (t : LevelTable Nat) : Option Nat :=
  minAvg (slotAvg cfg t.s0) (minAvg (slotAvg cfg t.s1) (slotAvg cfg t.s2))

/-- `Unit(table)` (R189): the truncated mean of the two levels' smallest qualifying classes, one level's
value when the other has none, and 0 when neither has one (D25). -/
def unitOf (cfg : ConfigRegs) (t : ClassTable Nat) : Nat :=
  match levelMin cfg t.low, levelMin cfg t.high with
  | some a, some b => (a + b) / 2
  | some a, none => a
  | none, some b => b
  | none, none => 0

/-- A slot as its two registers: cut to 32 bits (R41, R185). -/
def slotWords (sl : Slot Nat) : Slot Word :=
  { avg := BitVec.ofNat 32 sl.avg, cnt := BitVec.ofNat 32 sl.cnt }

/-- A level as its registers (R41). -/
def levelWords (t : LevelTable Nat) : LevelTable Word :=
  { s0 := slotWords t.s0, s1 := slotWords t.s1, s2 := slotWords t.s2 }

/-- The class table as the `CLS_*` registers (R41, R185). -/
def tableWords (t : ClassTable Nat) : ClassTable Word :=
  { low := levelWords t.low, high := levelWords t.high }

/-- What a classification writes: `RUN_LEN`, `UNIT_DUR` and `CLS_*` (R40, R41, R190, R213). -/
def State.setClassified (s : State) (len unit : Nat) (t : ClassTable Nat) : State :=
  { s with runLen := BitVec.ofNat 32 len, unitDur := BitVec.ofNat 32 unit, cls := tableWords t }

/-! Pulse-to-bit conversion. -/

/-- `Reps(d, u)` (R194): the rounded quotient, an exact half down, at most `REP_CAP`. -/
def reps (repCap d u : Nat) : Nat :=
  min (d / u + if u < 2 * (d % u) then 1 else 0) repCap

/-- Write `n` copies of a bit from position `pos` on (R196). -/
def emitBits (out : Desc) (v : Bool) : Nat → Nat → List Host.Cell → List Host.Cell
  | _, 0, m => m
  | pos, n + 1, m => emitBits out v (pos + 1) n (bset m out pos v)

/-- The loop of `ToBits` (R196) over `count` pulses from index `k` on; answers BMEM and the bit count. -/
def toBitsLoop (repCap u : Nat) (pulse : Nat → Pulse) (out : Desc) :
    Nat → Nat → Nat → List Host.Cell → List Host.Cell × Nat
  | _, 0, pos, m => (m, pos)
  | k, count + 1, pos, m =>
    toBitsLoop repCap u pulse out (k + 1) count (pos + reps repCap (pulse k).dur.toNat u)
      (emitBits out (pulse k).level pos (reps repCap (pulse k).dur.toNat u) m)

/-- `ToBits(M, s, count, u, D)` (R196): no bit at all for unit 0. -/
def toBits (repCap : Nat) (pulse : Nat → Pulse) (start count u : Nat) (out : Desc)
    (m : List Host.Cell) : List Host.Cell × Nat :=
  if u = 0 then (m, 0) else toBitsLoop repCap u pulse out start count 0 m

/-- `sat32` (R10). -/
def sat32 (n : Nat) : Word := BitVec.ofNat 32 (min n (2 ^ 32 - 1))

/-! The commands. -/

/-- One step of `PC.SNAP` (R183): one slot is copied; the step that copies the last one writes
`SNAP_WIDX` and `RESULT0` with the write index sampled at acceptance and completes the command. -/
def execPcSnap (s : State) : Host.Outcome State Fault Refusal :=
  let t := s.copySlot s.pe.sampledW s.pe.copyIdx
  if s.pe.copyIdx + 1 < s.params.pulseCap then
    .next { t with pe := { t.pe with copyIdx := s.pe.copyIdx + 1 } }
  else
    .next ({ t with snapWidx := BitVec.ofNat 32 s.pe.sampledW
                    result0 := BitVec.ofNat 32 s.pe.sampledW }).completePe

/-- `PC.CLASSIFY` (R190). -/
def execPcClassify (src : Src) (s : State) : Host.Outcome State Fault Refusal :=
  let r := classifyRun s.pe.latch.cfg (s.pulseAt src) s.params.pulseCap (s.pe.latch.arg 0)
  let u := unitOf s.pe.latch.cfg r.2
  .next (((s.setClassified r.1 u r.2).setResult0 (BitVec.ofNat 32 r.1)).setResult1
    (BitVec.ofNat 32 u)).completePe

/-- `PC.TOBITS` (R195): start, count and unit in `ARG0` to `ARG2`, output in `ARG3`, `ARG4`. -/
def execPcTobits (src : Src) (s : State) : Host.Outcome State Fault Refusal :=
  let r := toBits s.pe.latch.cfg.repCap.toNat (s.pulseAt src) (s.pe.latch.arg 0) (s.pe.latch.arg 1)
    (s.pe.latch.arg 2) s.pe.latch.buf3 s.bmem
  ifInRange [s.pe.latch.buf3] s ((s.setBmem r.1).setResult0 (sat32 r.2)).completePe

end Sys2Proof.Machine
end

