-- ==== Sys2Proof/Machine/Crc.lean ====
section
/-!
DEFINITION. Sys2Proof/Machine/Crc.lean: the CRC generators (42_crc.md): bytes ascending, bits most
significant first, no reflection and no final XOR (R160).
-/

namespace Sys2Proof.Machine

/-- One shift step: XOR in the polynomial when the bit shifted out is 1 (R161, R162). -/
def crcShift {w : Nat} (poly c : BitVec w) : BitVec w :=
  if c.msb then (c <<< 1) ^^^ poly else c <<< 1

/-- `n` shift steps. -/
def crcShifts {w : Nat} (poly : BitVec w) : Nat → BitVec w → BitVec w
  | 0, c => c
  | n + 1, c => crcShifts poly n (crcShift poly c)

/-- CRC-8 over bytes (R161). -/
def crc8Of (poly : BitVec 8) : BitVec 8 → List Byte → BitVec 8
  | c, [] => c
  | c, b :: rest => crc8Of poly (crcShifts poly 8 (c ^^^ b)) rest

/-- CRC-16 over bytes: each byte enters at the top of the register (R162). -/
def crc16Of (poly : BitVec 16) : BitVec 16 → List Byte → BitVec 16
  | c, [] => c
  | c, b :: rest => crc16Of poly (crcShifts poly 8 (c ^^^ (BitVec.setWidth 16 b <<< 8))) rest

/-- `CRC8` (R161): `init = ARG2[7:0]`, `poly = ARG3[7:0]`. -/
def execCrc8 (s : State) : Host.Outcome State Fault Refusal :=
  ifInRange [s.pe.latch.buf0] s
    (s.setResult0 (BitVec.setWidth 32 (crc8Of (BitVec.ofNat 8 (s.pe.latch.arg 3))
      (BitVec.ofNat 8 (s.pe.latch.arg 2)) (readBytes s.bmem (s.pe.latch.arg 0) (s.pe.latch.arg 1))))).completePe

/-- `CRC16` (R162): `init = ARG2[15:0]`, `poly = ARG3[15:0]`. -/
def execCrc16 (s : State) : Host.Outcome State Fault Refusal :=
  ifInRange [s.pe.latch.buf0] s
    (s.setResult0 (BitVec.setWidth 32 (crc16Of (BitVec.ofNat 16 (s.pe.latch.arg 3))
      (BitVec.ofNat 16 (s.pe.latch.arg 2)) (readBytes s.bmem (s.pe.latch.arg 0) (s.pe.latch.arg 1))))).completePe

end Sys2Proof.Machine
end

