-- ==== Sys2Proof/Machine/LineCode.lean ====
section
/-!
DEFINITION. Sys2Proof/Machine/LineCode.lean: the Manchester and differential-Manchester decoders
(41_linecode.md).
-/

namespace Sys2Proof.Machine

/-- Where a line-code decoder stands: BMEM with the bits written so far, the number of bits decoded and
the input position. -/
structure Decoded where
  bmem : List Host.Cell
  count : Nat
  pos : Nat
deriving DecidableEq, Repr

/-- The loop of `LC.MANCH` (R141): the zero pattern is tried first, output bits past the end of the
output buffer are dropped but counted. Each round consumes at least one input position, so the number
of input positions bounds the rounds. -/
def manchesterLoop (inp out : Desc) (zero one : Nat → Bool) (zlen olen : Nat) : Nat → Decoded → Decoded
  | 0, r => r
  | fuel + 1, r =>
    if r.pos < inp.bits then
      if matchAt r.bmem inp r.pos zero zlen then
        manchesterLoop inp out zero one zlen olen fuel
          { bmem := bset r.bmem out r.count false, count := r.count + 1, pos := r.pos + zlen }
      else if matchAt r.bmem inp r.pos one olen then
        manchesterLoop inp out zero one zlen olen fuel
          { bmem := bset r.bmem out r.count true, count := r.count + 1, pos := r.pos + olen }
      else r
    else r

/-- The Manchester decode from input position `start` (R141). -/
def manchester (m : List Host.Cell) (inp out : Desc) (start : Nat) (zero one : Nat → Bool)
    (zlen olen : Nat) : Decoded :=
  manchesterLoop inp out zero one zlen olen (inp.bits - start) { bmem := m, count := 0, pos := start }

/-- The loop of `LC.DIFFM` (R145), at most as many rounds as output bits are wanted; `b0` is the bit
read last. It stops on a missing mid-bit transition or when the next symbol is not all there. -/
def diffmLoop (inp out : Desc) : Nat → Bool → Decoded → Decoded
  | 0, _, r => r
  | maxBits + 1, b0, r =>
    if r.pos + 2 < inp.bits then
      if bget r.bmem inp (r.pos + 1) = b0 then r
      else
        diffmLoop inp out maxBits (bget r.bmem inp (r.pos + 2))
          { bmem := bset r.bmem out r.count
              (bget r.bmem inp (r.pos + 1) == bget r.bmem inp (r.pos + 2))
            count := r.count + 1
            pos := r.pos + 2 }
    else r

/-- The differential-Manchester decode (R145): `pos` is what `RESULT1` reports, `start` for a start past
the input and one more than the last position consumed otherwise. -/
def diffManchester (m : List Host.Cell) (inp out : Desc) (start maxBits : Nat) : Decoded :=
  if start < inp.bits then
    let r := diffmLoop inp out maxBits (bget m inp start) { bmem := m, count := 0, pos := start }
    { r with pos := r.pos + 1 }
  else { bmem := m, count := 0, pos := start }

/-- The results of a line-code decoder: BMEM, `RESULT0` the bits decoded, `RESULT1` the position. -/
def State.setDecoded (s : State) (r : Decoded) : State :=
  ((s.setBmem r.bmem).setResult0 (BitVec.ofNat 32 r.count)).setResult1 (BitVec.ofNat 32 r.pos)

/-- `LC.MANCH` (R141). -/
def execLcManch (opat zpat : BitVec 8) (olen zlen : BitVec 4) (s : State) :
    Host.Outcome State Fault Refusal :=
  ifInRange [s.pe.latch.buf0, s.pe.latch.buf3] s
    (s.setDecoded (manchester s.bmem s.pe.latch.buf0 s.pe.latch.buf3 (s.pe.latch.arg 2)
      (patternBit zpat zlen.toNat) (patternBit opat olen.toNat) zlen.toNat olen.toNat)).completePe

/-- `LC.DIFFM` (R145). -/
def execLcDiffm (s : State) : Host.Outcome State Fault Refusal :=
  ifInRange [s.pe.latch.buf0, s.pe.latch.buf3] s
    (s.setDecoded (diffManchester s.bmem s.pe.latch.buf0 s.pe.latch.buf3 (s.pe.latch.arg 2)
      (s.pe.latch.arg 5))).completePe

end Sys2Proof.Machine
end

