-- ==== Sys2Proof/Machine/Scan.lean ====
section
/-!
DEFINITION. Sys2Proof/Machine/Scan.lean: `PC.SCAN`, the coherent-run scanner (44_scan.md). One step of
the scan sequencer per call, on the values latched at acceptance (R210).
-/

namespace Sys2Proof.Machine

/-- Start the scan sequencer on an accepted word (R210): `w <- WIDX; c <- 0; nreq <- 0; nrep <- 0`,
phase COPY. -/
def State.startScan (s : State) (x : Word) : State :=
  { s with sq := { s.sq with phase := .copy, latch := Latch.capture s x, copyIdx := 0
                             sampledW := s.widx, nreq := 0, nrep := 0 } }

/-- The phase after the cursor moved: the scan ends when it reaches `PULSE_CAP` (R213, R221). -/
def phaseAt (cap cursor : Nat) : Phase := if cap ≤ cursor then .done else .classify

/-- A COPY step (R212). -/
def State.scanCopy (s : State) : State :=
  let t := s.copySlot s.sq.sampledW s.sq.copyIdx
  if s.sq.copyIdx + 1 < s.params.pulseCap then
    t.setSq { s.sq with copyIdx := s.sq.copyIdx + 1 }
  else
    ({ t with snapWidx := BitVec.ofNat 32 s.sq.sampledW }.setScanCur 0).setSq
      { s.sq with phase := .classify, cursor := 0 }

/-- A CLASSIFY step (R213): a run shorter than `MIN_RUN` is skipped and the cursor moves on by one. -/
def State.scanClassify (s : State) : State :=
  let r := classifyRun s.sq.latch.cfg (s.pulseAt .snap) s.params.pulseCap s.sq.cursor
  let u := unitOf s.sq.latch.cfg r.2
  let t := s.setClassified r.1 u r.2
  if r.1 < s.sq.latch.cfg.minRun.toNat then
    (t.setScanCur (s.sq.cursor + 1)).setSq
      { s.sq with len := r.1, unit := u, cursor := s.sq.cursor + 1
                  phase := phaseAt s.params.pulseCap (s.sq.cursor + 1) }
  else
    t.setSq { s.sq with len := r.1, unit := u, phase := .convert }

/-- `(i - LOOKBACK) mod CAP`, the mathematical modulus (R214). -/
def windowStart (cap cursor lookback : Nat) : Nat := (cursor + (cap - lookback % cap)) % cap

/-- The window of the current run (R214): the region cleared, then the run and its margins converted.
Answers BMEM and the bit count `nb`. -/
def State.scanWindow (s : State) : List Host.Cell × Nat :=
  let cfg := s.sq.latch.cfg
  toBits cfg.repCap.toNat (s.pulseAt .snap)
    (windowStart s.params.pulseCap s.sq.cursor cfg.lookback.toNat)
    (cfg.lookback.toNat + s.sq.len + cfg.lookahead.toNat) s.sq.unit s.sq.latch.window
    (fillBytes 0#8 s.sq.latch.window.base s.sq.latch.window.len s.bmem)

/-- The valid bits of a window: `min(nb, 8 * WIN_LEN)` (R215, R220). -/
def windowBits (l : Latch) (nb : Nat) : Nat := min nb l.window.bits

/-- A CONVERT step (R214 to R216, R218): build the window, then ask the host for a verdict, or answer
"not decoded" under `DEC_BYPASS`. -/
def State.scanConvert (s : State) : State :=
  let r := s.scanWindow
  let t := { s.setBmem r.1 with decNbits := BitVec.ofNat 32 (windowBits s.sq.latch r.2) }
  if s.sq.latch.cfg.decBypass then
    t.setSq { s.sq with nb := r.2, nreq := s.sq.nreq + 1, vd := false, vo := 0#32, vc := 0#32
                        phase := .update }
  else
    (t.raise irqDecReq).setSq { s.sq with nb := r.2, nreq := s.sq.nreq + 1, phase := .wait }

/-- `Better` (R219, C1): only an undecoded held best is replaced, by a longer run or a decoded one. -/
def State.better (s : State) : Bool :=
  !s.best.decoded && (decide (s.best.len.toNat < s.sq.len) || s.sq.vd)

/-- The held best that the current candidate becomes (R220). -/
def State.candidate (s : State) : HeldBest :=
  { valid := true
    decoded := s.sq.vd
    len := BitVec.ofNat 32 s.sq.len
    unit := BitVec.ofNat 32 s.sq.unit
    start := BitVec.ofNat 32 s.sq.cursor
    wbits := BitVec.ofNat 32 (windowBits s.sq.latch s.sq.nb)
    bitoff := if s.sq.vd then s.sq.vo else 0#32
    bitcnt := if s.sq.vd then s.sq.vc else 0#32
    widx := BitVec.ofNat 32 s.sq.sampledW }

/-- The replacement (R220): the held best, `Det` rotated to the run's start, the count and `BEST_UPD`,
all in the one step. -/
def State.replaceBest (s : State) : State :=
  { s.raise irqBestUpd with
    best := s.candidate
    det := Memory.tabulate s.params.pulseCap fun j => s.pulseAt .snap (s.sq.cursor + j) }

/-- An UPDATE step (R219 to R221): replace the held best if the candidate is better, then advance the
cursor by the run length, or by 1 if it is 0. -/
def State.scanUpdate (s : State) : State :=
  let next := s.sq.cursor + max s.sq.len 1
  let q := { s.sq with cursor := next, phase := phaseAt s.params.pulseCap next }
  if s.better then (s.replaceBest.setScanCur next).setSq { q with nrep := s.sq.nrep + 1 }
  else (s.setScanCur next).setSq q

/-- The DONE step (R222): the two counts are the results, and the sequencer becomes idle. -/
def State.scanDone (s : State) : State :=
  ((((s.setResult0 (BitVec.ofNat 32 s.sq.nreq)).setResult1 (BitVec.ofNat 32 s.sq.nrep)).setScanCur
    s.sq.cursor).raise irqDone).setSq { s.sq with phase := .idle }

/-- `PC.SCAN` (R210 to R222): the sequencer's step in its phase. Idle, or while it waits for a verdict,
it has no enabled step and nothing changes (R211, U7). -/
def execPcScan (s : State) : Host.Outcome State Fault Refusal :=
  match s.sq.phase with
  | .idle => .next s
  | .copy => .next s.scanCopy
  | .classify => .next s.scanClassify
  | .convert => ifInRange [s.sq.latch.window] s s.scanConvert
  | .wait => .next s
  | .update => .next s.scanUpdate
  | .done => .next s.scanDone

end Sys2Proof.Machine
end

