-- ==== Sys2Proof/Machine/Dispatch.lean ====
section
/-!
DEFINITION. Sys2Proof/Machine/Dispatch.lean: the meaning of every command: the step its engine takes for
it once it is accepted (60_exceptions.md R243, 44_scan.md R211).
-/

namespace Sys2Proof.Machine

def exec (i : Instr) (s : State) : Host.Outcome State Fault Refusal :=
  match i with
  | .bmGet => Sys2Proof.Machine.execBmGet s
  | .bmSet val => Sys2Proof.Machine.execBmSet val s
  | .bmCopy => Sys2Proof.Machine.execBmCopy s
  | .bmRev => Sys2Proof.Machine.execBmRev s
  | .bmMatch plen => Sys2Proof.Machine.execBmMatch plen s
  | .bmSeek plen => Sys2Proof.Machine.execBmSeek plen s
  | .bmReadw nbits => Sys2Proof.Machine.execBmReadw nbits s
  | .lcManch opat zpat olen zlen => Sys2Proof.Machine.execLcManch opat zpat olen zlen s
  | .lcDiffm => Sys2Proof.Machine.execLcDiffm s
  | .crc8 => Sys2Proof.Machine.execCrc8 s
  | .crc16 => Sys2Proof.Machine.execCrc16 s
  | .pcSnap => Sys2Proof.Machine.execPcSnap s
  | .pcClassify src => Sys2Proof.Machine.execPcClassify src s
  | .pcTobits src => Sys2Proof.Machine.execPcTobits src s
  | .pcScan => Sys2Proof.Machine.execPcScan s

end Sys2Proof.Machine
end

