-- ==== Sys2Proof/Machine/Registers.lean ====
section
/-!
DEFINITION. Sys2Proof/Machine/Registers.lean: the register file and the address map as the host reads them
(10_state.md R20 to R47, 20_memory.md R72 to R75).
-/

namespace Sys2Proof.Machine

/-- The registers of R20. -/
inductive Reg where
  | id
  | ctrl
  | status
  | cmd
  | arg (n : Fin 8)
  | patlo
  | pathi
  | result0
  | result1
  | irqEn
  | irqStatus
  | minDur
  | maxDur
  | clsTol
  | minRun
  | lookback
  | lookahead
  | repCap
  | minClassCnt
  | winBase
  | winLen
  | runLen
  | unitDur
  | clsAvg (level : Bool) (k : Fin 3)
  | clsCnt (level : Bool) (k : Fin 3)
  | bestLen
  | bestUnit
  | bestStart
  | bestWbits
  | bestBitoff
  | bestBitcnt
  | bestWidx
  | scanCur
  | decNbits
  | decVerdict
  | decBitoff
  | decBitcnt
  | snapWidx
  | cfgCap
  | cfgBmem
  | pushDur
  | pushLvl
  | ringWidx
deriving DecidableEq, Repr

/-- The offset of a register (R20, R41). -/
def Reg.offset : Reg → Nat
  | .id => 0x000
  | .ctrl => 0x004
  | .status => 0x008
  | .cmd => 0x00C
  | .arg n => 0x010 + 4 * n.val
  | .patlo => 0x030
  | .pathi => 0x034
  | .result0 => 0x038
  | .result1 => 0x03C
  | .irqEn => 0x040
  | .irqStatus => 0x044
  | .minDur => 0x050
  | .maxDur => 0x054
  | .clsTol => 0x058
  | .minRun => 0x05C
  | .lookback => 0x060
  | .lookahead => 0x064
  | .repCap => 0x068
  | .minClassCnt => 0x06C
  | .winBase => 0x070
  | .winLen => 0x074
  | .runLen => 0x080
  | .unitDur => 0x084
  | .clsAvg level k => 0x090 + 12 * level.toNat + 4 * k.val
  | .clsCnt level k => 0x0B0 + 12 * level.toNat + 4 * k.val
  | .bestLen => 0x0D0
  | .bestUnit => 0x0D4
  | .bestStart => 0x0D8
  | .bestWbits => 0x0DC
  | .bestBitoff => 0x0E0
  | .bestBitcnt => 0x0E4
  | .bestWidx => 0x0E8
  | .scanCur => 0x0F0
  | .decNbits => 0x0F4
  | .decVerdict => 0x0F8
  | .decBitoff => 0x0FC
  | .decBitcnt => 0x100
  | .snapWidx => 0x104
  | .cfgCap => 0x108
  | .cfgBmem => 0x10C
  | .pushDur => 0x110
  | .pushLvl => 0x114
  | .ringWidx => 0x118

/-- The registers at offsets 0x000 to 0x044 (R20). -/
def Reg.control : List Reg :=
  [.id, .ctrl, .status, .cmd, .arg 0, .arg 1, .arg 2, .arg 3, .arg 4, .arg 5, .arg 6, .arg 7,
   .patlo, .pathi, .result0, .result1, .irqEn, .irqStatus]

/-- The registers at offsets 0x050 to 0x084 (R20). -/
def Reg.configuration : List Reg :=
  [.minDur, .maxDur, .clsTol, .minRun, .lookback, .lookahead, .repCap, .minClassCnt, .winBase,
   .winLen, .runLen, .unitDur]

/-- The registers at offsets 0x090 to 0x0C4 (R20, R41). -/
def Reg.classes : List Reg :=
  [.clsAvg false 0, .clsAvg false 1, .clsAvg false 2, .clsAvg true 0, .clsAvg true 1, .clsAvg true 2,
   .clsCnt false 0, .clsCnt false 1, .clsCnt false 2, .clsCnt true 0, .clsCnt true 1, .clsCnt true 2]

/-- The registers at offsets 0x0D0 to 0x118 (R20). -/
def Reg.bestAndScan : List Reg :=
  [.bestLen, .bestUnit, .bestStart, .bestWbits, .bestBitoff, .bestBitcnt, .bestWidx, .scanCur,
   .decNbits, .decVerdict, .decBitoff, .decBitcnt, .snapWidx, .cfgCap, .cfgBmem, .pushDur, .pushLvl,
   .ringWidx]

/-- Every register of R20, in the order of its offsets. -/
def Reg.all : List Reg := Reg.control ++ Reg.configuration ++ Reg.classes ++ Reg.bestAndScan

/-- The register at an offset, if there is one (R20); any other offset below the apertures is unmapped
(R52). -/
def Reg.ofOffset (o : Nat) : Option Reg := Reg.all.find? fun r => r.offset == o

/-- The half of a pulse entry that an aperture word shows (R75). -/
inductive PulseHalf where
  | dur
  | level
deriving DecidableEq, Repr

/-- What a word-aligned offset names (R72). -/
inductive Target where
  | reg (r : Reg)
  /-- The word of BMEM whose lowest byte has address `a` (R73). -/
  | bmem (a : Nat)
  | snap (j : Nat) (half : PulseHalf)
  | det (j : Nat) (half : PulseHalf)
  | unmapped
deriving DecidableEq, Repr

/-- The half of the entry at a word offset into an aperture (R75). -/
def pulseHalfAt (o : Nat) : PulseHalf := if o % 8 = 0 then .dur else .level

/-- The host address map (R72), for a word-aligned offset. -/
def targetAt (p : Params) (o : Nat) : Target :=
  if o < 0x100000 then
    match Reg.ofOffset o with
    | some r => .reg r
    | none => .unmapped
  else if o < 0x200000 then
    if o - 0x100000 < 4 * ((p.bmemBytes + 3) / 4) then .bmem (o - 0x100000) else .unmapped
  else if o < 0x300000 then
    if (o - 0x200000) / 8 < p.pulseCap then .snap ((o - 0x200000) / 8) (pulseHalfAt o) else .unmapped
  else
    if (o - 0x300000) / 8 < p.pulseCap then .det ((o - 0x300000) / 8) (pulseHalfAt o) else .unmapped

/-- The slot of a level table (R41). -/
def LevelTable.slot {α : Type} (t : LevelTable α) (k : Fin 3) : Slot α :=
  match k with
  | 0 => t.s0
  | 1 => t.s1
  | 2 => t.s2

/-- The slot `k` of level `l` (R41). -/
def ClassTable.slot {α : Type} (t : ClassTable α) (level : Bool) (k : Fin 3) : Slot α :=
  if level then t.high.slot k else t.low.slot k

/-- The word a register reads as (R21 to R47): bits that do not exist read 0. -/
def readReg (s : State) : Reg → Word
  | .id => Config.idValue
  | .ctrl => BitVec.setWidth 32 (BitVec.ofBool s.regs.decBypass ++ 0#4)
  | .status => s.status
  | .cmd => s.cmd
  | .arg n => s.args[n]
  | .patlo => s.patlo
  | .pathi => s.pathi
  | .result0 => s.result0
  | .result1 => s.result1
  | .irqEn => s.irqEn.setWidth 32
  | .irqStatus => s.irqStatus.setWidth 32
  | .minDur => s.regs.minDur
  | .maxDur => s.regs.maxDur
  | .clsTol => BitVec.setWidth 32 (BitVec.ofBool s.regs.tolStrict ++ 0#1 ++ s.regs.tolPct)
  | .minRun => s.regs.minRun
  | .lookback => s.regs.lookback.setWidth 32
  | .lookahead => s.regs.lookahead.setWidth 32
  | .repCap => s.regs.repCap.setWidth 32
  | .minClassCnt => s.regs.minClassCnt.setWidth 32
  | .winBase => s.regs.winBase
  | .winLen => s.regs.winLen
  | .runLen => s.runLen
  | .unitDur => s.unitDur
  | .clsAvg level k => (s.cls.slot level k).avg
  | .clsCnt level k => (s.cls.slot level k).cnt
  | .bestLen => s.best.len
  | .bestUnit => s.best.unit
  | .bestStart => s.best.start
  | .bestWbits => s.best.wbits
  | .bestBitoff => s.best.bitoff
  | .bestBitcnt => s.best.bitcnt
  | .bestWidx => s.best.widx
  | .scanCur => s.scanCur
  | .decNbits => s.decNbits
  | .decVerdict => 0#32
  | .decBitoff => s.decBitoff
  | .decBitcnt => s.decBitcnt
  | .snapWidx => s.snapWidx
  | .cfgCap => BitVec.ofNat 32 s.params.pulseCap
  | .cfgBmem => BitVec.ofNat 32 s.params.bmemBytes
  | .pushDur => 0#32
  | .pushLvl => Word.ofBit s.pushLvl
  | .ringWidx => BitVec.ofNat 32 s.widx

/-- The registers a read of which is unspecified while `BUSY` is 1 (R50). -/
def Reg.unspecifiedWhileBusy : Reg → Bool
  | .result0 => true
  | .result1 => true
  | .runLen => true
  | .unitDur => true
  | .clsAvg _ _ => true
  | .clsCnt _ _ => true
  | .bestLen => true
  | .bestUnit => true
  | .bestStart => true
  | .bestWbits => true
  | .bestBitoff => true
  | .bestBitcnt => true
  | .bestWidx => true
  | .scanCur => true
  | .decNbits => true
  | .snapWidx => true
  | _ => false

/-- A byte lane of the BMEM aperture: 0 at and past `BMEM_BYTES` (R73). -/
def readLane (s : State) (a : Nat) : Byte :=
  if a < s.params.bmemBytes then memRead s.bmem a else 0#8

/-- Four byte lanes as a word, the lowest address in bits 7:0 (R73). -/
def readWord (s : State) (a : Nat) : Word :=
  readLane s (a + 3) ++ readLane s (a + 2) ++ readLane s (a + 1) ++ readLane s a

/-- Write one byte lane; nothing at and past `BMEM_BYTES` (R73). -/
def writeLane (bmemBytes : Nat) (m : List Host.Cell) (a : Nat) (v : Byte) : List Host.Cell :=
  if a < bmemBytes then memWrite m a v else m

/-- Write the four byte lanes of a word (R73). -/
def writeWord (bmemBytes : Nat) (m : List Host.Cell) (a : Nat) (v : Word) : List Host.Cell :=
  writeLane bmemBytes (writeLane bmemBytes (writeLane bmemBytes (writeLane bmemBytes m
    a (v.extractLsb' 0 8)) (a + 1) (v.extractLsb' 8 8)) (a + 2) (v.extractLsb' 16 8))
    (a + 3) (v.extractLsb' 24 8)

/-- The word of a pulse entry (R75). -/
def pulseWord (p : Pulse) : PulseHalf → Word
  | .dur => p.dur
  | .level => Word.ofBit p.level

/-- The defined value of a read (R20, R52, R73, R75). -/
def readTarget (s : State) : Target → Word
  | .reg r => readReg s r
  | .bmem a => readWord s a
  | .snap j half => pulseWord (pulseRead .snap s.snap j) half
  | .det j half => pulseWord (pulseRead .det s.det j) half
  | .unmapped => 0#32

/-- The reads that are unspecified while `BUSY` is 1 (R50): results, class and best registers, scan
registers and the three apertures. DESIGN CHOICE, safe, log 23: a BMEM word that straddles `BMEM_BYTES` is
a draw in all four lanes, though R73 has the lanes past the end read 0 and does not say which holds. -/
def Target.unspecifiedWhileBusy : Target → Bool
  | .reg r => r.unspecifiedWhileBusy
  | .bmem _ => true
  | .snap _ _ => true
  | .det _ _ => true
  | .unmapped => false

end Sys2Proof.Machine
end

