-- ==== Sys2Proof/Machine/HostPort.lean ====
section
/-!
DEFINITION. Sys2Proof/Machine/HostPort.lean: the host's accesses (20_memory.md R72 to R86) and the issue of
a command (60_exceptions.md R240 to R242).
-/

namespace Sys2Proof.Machine

/-! Issue. -/

/-- The commands that are refused while a scan waits for a verdict: they would overwrite `Snap` or start
a second scan (R242). -/
def conflictsWithScan : Instr → Bool
  | .pcSnap => true
  | .pcScan => true
  | _ => false

/-- `Check(x)` (R242): busy, then the word, then the scan conflict, then the descriptors. Answers the
command when every check passes. -/
def issueCheck (s : State) (x : Word) : Except ErrCode Instr :=
  if s.busy then .error .busy
  else
    match decode x with
    | .error e => .error (ErrCode.ofDecodeError e)
    | .ok i =>
      if conflictsWithScan i && s.scanning then .error .scanConflict
      else if inRange (descriptors i (Latch.capture s x)) s.params.bmemBytes then .ok i
      else .error .bufferRange

/-- Start the primitive engine on an accepted word (R240, R39); `PC.SNAP` samples the write index
(R183). -/
def State.startPe (s : State) (x : Word) : State :=
  { s with pe := { pending := true, latch := Latch.capture s x, copyIdx := 0, sampledW := s.widx } }

/-- Start the engine of a command (R240): the scan sequencer for `PC.SCAN`, the primitive engine for
every other. -/
def State.startEngine (s : State) (i : Instr) (x : Word) : State :=
  match i with
  | .pcScan => s.startScan x
  | _ => s.startPe x

/-- Accept a command (R240): `CMD`, `ERR_CODE` 0, `LAST_OP`, the latch, and its engine starts. -/
def State.accept (s : State) (i : Instr) (x : Word) : State :=
  { s with cmd := x, errCode := ErrCode.none.toByte, lastOp := opcodeField x }.startEngine i x

/-- A host write of `x` to `CMD` (R240). -/
def State.issue (s : State) (x : Word) : State :=
  match issueCheck s x with
  | .ok i => s.accept i x
  | .error code => s.reject x code

/-! Register writes. -/

/-- `CLS_TOL` stores a `PCT` above 100 as 100 (R32). -/
def clampPct (p : BitVec 7) : BitVec 7 := if 100 < p.toNat then 100#7 else p

/-- The action bits `RING_CLR` then `CLR_BEST` of a `CTRL` write (R22). -/
def State.ctrlActions (s : State) (v : Word) : State :=
  let t := if v.getLsbD 2 then s.clearRing else s
  if v.getLsbD 0 then t.clearBest else t

/-- A write to `CTRL` (R22): a soft reset ignores the other bits; `DEC_BYPASS` is stored on every other
write; an action bit is refused with `OVR` while the core is busy or scanning. -/
def State.writeCtrl (s : State) (v : Word) : State :=
  if v.getLsbD 1 then s.softReset
  else
    let t := { s with regs := { s.regs with decBypass := v.getLsbD 4 } }
    if v.getLsbD 0 || v.getLsbD 2 then
      if s.busy || s.scanning then t.overrun else t.ctrlActions v
    else t

/-- A write to `DEC_VERDICT` (R217, R44): the verdict while the scan waits and no command is pending,
refused with `OVR` at any other time. -/
def State.writeVerdict (s : State) (v : Word) : State :=
  if s.decWait && !s.busy then
    { s with sq := { s.sq with vd := v.getLsbD 0, vo := s.decBitoff, vc := s.decBitcnt
                               phase := .update } }
  else s.overrun

/-- A host write to a register (R20 to R47): a write to a read-only register is ignored, bits that do
not exist are dropped. -/
def writeReg (s : State) (v : Word) : Reg → State
  | .id => s
  | .ctrl => s.writeCtrl v
  | .status => s
  | .cmd => s.issue v
  | .arg n => { s with args := s.args.set n v }
  | .patlo => { s with patlo := v }
  | .pathi => { s with pathi := v }
  | .result0 => s
  | .result1 => s
  | .irqEn => { s with irqEn := v.setWidth 5 }
  | .irqStatus => s.clearIrq (v.setWidth 5)
  | .minDur => { s with regs := { s.regs with minDur := v } }
  | .maxDur => { s with regs := { s.regs with maxDur := v } }
  | .clsTol =>
    { s with regs := { s.regs with tolPct := clampPct (v.setWidth 7), tolStrict := v.getLsbD 8 } }
  | .minRun => { s with regs := { s.regs with minRun := v } }
  | .lookback => { s with regs := { s.regs with lookback := v.setWidth 16 } }
  | .lookahead => { s with regs := { s.regs with lookahead := v.setWidth 16 } }
  | .repCap => { s with regs := { s.regs with repCap := v.setWidth 16 } }
  | .minClassCnt => { s with regs := { s.regs with minClassCnt := v.setWidth 8 } }
  | .winBase => { s with regs := { s.regs with winBase := v } }
  | .winLen => { s with regs := { s.regs with winLen := v } }
  | .runLen => s
  | .unitDur => s
  | .clsAvg _ _ => s
  | .clsCnt _ _ => s
  | .bestLen => s
  | .bestUnit => s
  | .bestStart => s
  | .bestWbits => s
  | .bestBitoff => s
  | .bestBitcnt => s
  | .bestWidx => s
  | .scanCur => s
  | .decNbits => s
  | .decVerdict => s.writeVerdict v
  | .decBitoff => { s with decBitoff := v }
  | .decBitcnt => { s with decBitcnt := v }
  | .snapWidx => s
  | .cfgCap => s
  | .cfgBmem => s
  | .pushDur => s.appendPulse { level := s.pushLvl, dur := v }
  | .pushLvl => { s with pushLvl := v.getLsbD 0 }
  | .ringWidx => s

/-- A host write (R72): a BMEM word while the core is busy is dropped with `OVR` (R86); the pulse
apertures and unmapped offsets ignore writes (R75, R52). -/
def writeTarget (s : State) (v : Word) : Target → State
  | .reg r => writeReg s v r
  | .bmem a => if s.busy then s.overrun else s.setBmem (writeWord s.params.bmemBytes s.bmem a v)
  | .snap _ _ => s
  | .det _ _ => s
  | .unmapped => s

/-- A host read (R79): it changes nothing but what the host has read. -/
def hostRead (s : State) (t : Target) : State :=
  if s.busy && t.unspecifiedWhileBusy then s.returnDraw else s.returnWord (readTarget s t)

/-- The interface takes naturally aligned 32-bit accesses and no others (R74). -/
def accessAllowed (size : Nat) (offset : BitVec 22) : Bool :=
  size == 4 && offset.toNat % 4 == 0

/-- One host access (R72, R74). -/
def hostStep (op : HostOp) (s : State) : Host.Outcome State Fault Refusal :=
  match op with
  | .read size offset =>
    if accessAllowed size offset then .next (hostRead s (targetAt s.params offset.toNat))
    else .refused .hostAccess
  | .write size offset data =>
    if accessAllowed size offset then .next (writeTarget s data (targetAt s.params offset.toNat))
    else .refused .hostAccess

end Sys2Proof.Machine
end

