-- ==== Sys2Proof/Machine/Agents.lean ====
section
/-!
DEFINITION. Sys2Proof/Machine/Agents.lean: the turns of the agents (00_scope.md R14): what an engine fetches
from its latch, and who takes the next turn (log 4).
-/

namespace Sys2Proof.Machine

/-- The engine runs the command in its latch (R39, R243). -/
def runLatched (word : Word) (s : State) : Host.Outcome State Fault Refusal :=
  match decode word with
  | .ok i => exec i s
  | .error e => .refused (.undecodedLatch e)

/-- A turn of the primitive engine: its step if a command is pending, else nothing (R243). -/
def peTurn (s : State) : Host.Outcome State Fault Refusal :=
  if s.pe.pending then runLatched s.pe.latch.word s else .next s

/-- A turn of the scan sequencer: its step if it has one, else nothing (R211). -/
def sqTurn (s : State) : Host.Outcome State Fault Refusal :=
  if s.sqEnabled then runLatched s.sq.latch.word s else .next s

/-- A turn of whichever engine is enabled: in every run at most one is (R243). -/
def engineTurn (s : State) : Host.Outcome State Fault Refusal :=
  if s.pe.pending then peTurn s else sqTurn s

/-- `wait` has seen `BUSY = 0` (R105). -/
def waitIdleOver (s : State) : Bool := !s.busy

/-- `waitscan` has seen `SCAN = 0` or `DEC_WAIT = 1` (R105). -/
def waitScanOver (s : State) : Bool := !s.scanning || s.decWait

/-- A polling directive (R105, log 21): when its condition holds, `s` reads `STATUS` and goes on with the
rest of the schedule; until then the engines take their turns and the directive stays at the head. -/
def pollTurn (finished : Bool) (rest : List Event) (s : State) : Host.Outcome State Fault Refusal :=
  if finished then .next ({ s with schedule := rest }.returnWord s.status) else engineTurn s

/-- The next turn (R14): the one scheduled, or an engine's when nothing is scheduled (log 4). -/
def nextTurn (s : State) : Host.Outcome State Fault Refusal :=
  match s.schedule with
  | [] => engineTurn s
  | .host op :: rest => hostStep op { s with schedule := rest }
  | .capture p :: rest => .next ({ s with schedule := rest }.appendPulse p)
  | .pe :: rest => peTurn { s with schedule := rest }
  | .sq :: rest => sqTurn { s with schedule := rest }
  | .waitIdle :: rest => pollTurn (waitIdleOver s) rest s
  | .waitScan :: rest => pollTurn (waitScanOver s) rest s

/-- The state in which the very next step runs the command word `x` (log 5): nothing is scheduled and
the word's engine has it latched, with the operands and configuration of `s` (R39). -/
def State.withLatchedWord (s : State) (x : Word) : State :=
  if opcodeField x = 0x43#8 then
    { s with schedule := [], pe := { s.pe with pending := false } }.startScan x
  else { s with schedule := [] }.startPe x

end Sys2Proof.Machine
end

