-- ==== Sys2Proof/Machine/Step.lean ====
section
/-!
DEFINITION. Sys2Proof/Machine/Step.lean: one step of the machine. An engine's command stands in its latch;
there is no program counter and no program memory (00_scope.md R6, 10_state.md R29).
-/

namespace Sys2Proof.Machine

/-- One atomic step of one agent (R14, R80). -/
def step (s : State) : Host.Outcome State Fault Refusal := nextTurn s

/-- The state whose next step runs the command in the low `nbits` bits of `w` (log 5). -/
def State.withFetchWord (s : State) (nbits w : Nat) : State :=
  s.withLatchedWord (BitVec.ofNat 32 (w % 2 ^ nbits))

end Sys2Proof.Machine
end

