-- ==== Sys2Proof/Safety.lean ====
section
/-!
DEFINITION. Sys2Proof/Safety.lean: what a good state is, and the spec's rules written as relations and
tables of their own, in which the statements about the machine are made.
-/

namespace Sys2Proof.Machine

/-! Runs. -/

/-- `n` steps, stopping where a step stops. -/
def stepN : Nat → State → Host.Outcome State Fault Refusal
  | 0, s => .next s
  | n + 1, s =>
    match step s with
    | .next t => stepN n t
    | .fault f => .fault f
    | .refused r => .refused r

/-! The invariant of every run. -/

/-- The parameters lie in their legal ranges (R7). -/
def ParamsLegal (p : Params) : Prop :=
  (1 ≤ p.pulseCap ∧ p.pulseCap ≤ Config.maxPulseCap) ∧
    (1 ≤ p.bmemBytes ∧ p.bmemBytes ≤ Config.maxBmemBytes)

/-- The four memories are in their canonical form and hold only entries that exist (R48, R70). -/
def MemoriesWf (s : State) : Prop :=
  Memory.wf s.params.bmemBytes s.bmem ∧ Memory.wf s.params.pulseCap s.ring ∧
    Memory.wf s.params.pulseCap s.snap ∧ Memory.wf s.params.pulseCap s.det

/-- `CLS_TOL.PCT` is at most 100 (R32). -/
def ConfigLegal (c : ConfigRegs) : Prop := c.tolPct.toNat ≤ 100

/-- A pending command is one of the fourteen of the primitive engine, its descriptors are in range
(R112, R242), and a snapshot in progress indexes slots that exist and excludes a scan (R183, R242). -/
def PeLegal (s : State) : Prop :=
  s.pe.pending = true →
    match decode s.pe.latch.word with
    | .ok .pcScan => False
    | .ok .pcSnap =>
      s.pe.copyIdx < s.params.pulseCap ∧ s.pe.sampledW < s.params.pulseCap ∧ s.sq.phase = .idle
    | .ok i => inRange (descriptors i s.pe.latch) s.params.bmemBytes = true
    | .error _ => False

/-- An active scan runs `PC.SCAN` on a window in range (R210); in COPY its copy index is a slot, from
CLASSIFY to UPDATE its cursor is one, the run it handles is no longer than the snapshot (R187), and when
it is done the cursor lies in `CAP .. 2*CAP - 1` (R223). -/
def SqLegal (s : State) : Prop :=
  s.sq.phase ≠ .idle →
    (decode s.sq.latch.word = .ok .pcScan ∧
      inRange [s.sq.latch.window] s.params.bmemBytes = true ∧ s.sq.sampledW < s.params.pulseCap) ∧
    (s.sq.phase = .copy → s.sq.copyIdx < s.params.pulseCap) ∧
    ((s.sq.phase = .classify ∨ s.sq.phase = .convert ∨ s.sq.phase = .wait ∨ s.sq.phase = .update) →
      s.sq.cursor < s.params.pulseCap) ∧
    ((s.sq.phase = .convert ∨ s.sq.phase = .wait ∨ s.sq.phase = .update) →
      s.sq.len ≤ s.params.pulseCap) ∧
    (s.sq.phase = .done →
      s.params.pulseCap ≤ s.sq.cursor ∧ s.sq.cursor < 2 * s.params.pulseCap)

/-- The two engines are never both enabled (R243). -/
def EnginesExclusive (s : State) : Prop := s.pe.pending = true → s.sqEnabled = false

/-- With no held best every `BEST_*` register and both flags read 0 (R219, R225, R270). -/
def BestLegal (b : HeldBest) : Prop := b.valid = false → b = HeldBest.empty

/-- What holds in every state of every run. -/
def Inv (s : State) : Prop :=
  ParamsLegal s.params ∧ MemoriesWf s ∧ s.widx < s.params.pulseCap ∧ ConfigLegal s.regs ∧ PeLegal s ∧
    SqLegal s ∧ EnginesExclusive s ∧ BestLegal s.best

/-- The clean entry from which a claim about a host program starts (R274): both engines idle and no
interrupt pending. -/
def CleanEntry (s : State) : Prop :=
  s.pe.pending = false ∧ s.sq.phase = .idle ∧ s.irqStatus = 0#5

/-- The host access at the head of the schedule, if there is one, is an aligned 32-bit word (R74). -/
def NextAccessAllowed (s : State) : Prop :=
  match s.schedule with
  | .host (.read size offset) :: _ => size = 4 ∧ offset.toNat % 4 = 0
  | .host (.write size offset _) :: _ => size = 4 ∧ offset.toNat % 4 = 0
  | _ => True

/-! The opcode table and the operand table as the spec prints them (R99, R102, R96). -/

/-- The rows of R99: (match, mask). -/
def specRows : List (Word × Word) :=
  [(0x00000010#32, 0xFFFFFFFF#32), (0x00000011#32, 0xFFFFFEFF#32), (0x00000012#32, 0xFFFFFFFF#32),
   (0x00000013#32, 0xFFFFFFFF#32), (0x00000014#32, 0xFFFF80FF#32), (0x00000015#32, 0xFFFF80FF#32),
   (0x00000016#32, 0xFFFFC0FF#32), (0x00000020#32, 0x000000FF#32), (0x00000021#32, 0xFFFFFFFF#32),
   (0x00000030#32, 0xFFFFFFFF#32), (0x00000031#32, 0xFFFFFFFF#32), (0x00000040#32, 0xFFFFFFFF#32),
   (0x00000041#32, 0xFFFFFEFF#32), (0x00000042#32, 0xFFFFFEFF#32), (0x00000043#32, 0xFFFFFFFF#32)]

/-- The opcode byte of a word is in the map (R99, R100). -/
def OpcodeInMap (w : Word) : Prop := ∃ r ∈ specRows, w &&& 0xFF#32 = r.1

/-- A word of some row: every reserved bit is 0 (R99, R101). -/
def ReservedClean (w : Word) : Prop := ∃ r ∈ specRows, w &&& r.2 = r.1

/-- The illegal field values of R102, by opcode: `PLEN` in 14:8, `NBITS` in 13:8, `OLEN` in 15:12 and
`ZLEN` in 11:8. -/
def FieldIllegal (w : Word) : Prop :=
  let op := w.toNat % 256
  ((op = 0x14 ∨ op = 0x15) ∧ 64 < w.toNat / 2 ^ 8 % 2 ^ 7) ∨
  (op = 0x16 ∧ 32 < w.toNat / 2 ^ 8 % 2 ^ 6) ∨
  (op = 0x20 ∧
    (w.toNat / 2 ^ 8 % 16 = 0 ∨ 8 < w.toNat / 2 ^ 8 % 16 ∨
      w.toNat / 2 ^ 12 % 16 = 0 ∨ 8 < w.toNat / 2 ^ 12 % 16))

/-- A buffer descriptor the word's command names reaches past BMEM (R96, R112, R241): the one in `ARG0`
and `ARG1`, the one in `ARG3` and `ARG4`, or the scan's window. -/
def DescriptorOutside (s : State) (w : Word) : Prop :=
  let op := w.toNat % 256
  (op ∈ [0x10, 0x11, 0x12, 0x13, 0x14, 0x15, 0x16, 0x20, 0x21, 0x30, 0x31] ∧
    s.params.bmemBytes < s.args[0].toNat + s.args[1].toNat) ∨
  (op ∈ [0x12, 0x20, 0x21, 0x42] ∧ s.params.bmemBytes < s.args[3].toNat + s.args[4].toNat) ∨
  (op = 0x43 ∧ s.params.bmemBytes < s.regs.winBase.toNat + s.regs.winLen.toNat)

/-! The line-code loops (R141, R145) as relations. -/

/-- `Match(D, off, P, n)` (R117). -/
def Matches (m : List Host.Cell) (d : Desc) (off : Nat) (pat : Nat → Bool) (n : Nat) : Prop :=
  ∀ i, i < n → bget m d (off + i) = pat i

/-- The Manchester loop of R141 goes from (BMEM, off, n) to where it stops. -/
inductive ManchRun (inp out : Desc) (zero one : Nat → Bool) (zlen olen : Nat) :
    List Host.Cell → Nat → Nat → List Host.Cell → Nat → Nat → Prop where
  | atEnd {m : List Host.Cell} {off n : Nat} : 8 * inp.len ≤ off →
      ManchRun inp out zero one zlen olen m off n m off n
  | noMatch {m : List Host.Cell} {off n : Nat} : off < 8 * inp.len →
      ¬ Matches m inp off zero zlen → ¬ Matches m inp off one olen →
      ManchRun inp out zero one zlen olen m off n m off n
  | zero {m m' : List Host.Cell} {off n off' n' : Nat} : off < 8 * inp.len →
      Matches m inp off zero zlen →
      ManchRun inp out zero one zlen olen (bset m out n false) (off + zlen) (n + 1) m' off' n' →
      ManchRun inp out zero one zlen olen m off n m' off' n'
  | one {m m' : List Host.Cell} {off n off' n' : Nat} : off < 8 * inp.len →
      ¬ Matches m inp off zero zlen → Matches m inp off one olen →
      ManchRun inp out zero one zlen olen (bset m out n true) (off + olen) (n + 1) m' off' n' →
      ManchRun inp out zero one zlen olen m off n m' off' n'

/-- The differential-Manchester loop of R145 goes from (BMEM, b0, p, n) to where it stops. -/
inductive DiffRun (inp out : Desc) (maxBits : Nat) :
    List Host.Cell → Bool → Nat → Nat → List Host.Cell → Nat → Nat → Prop where
  | enough {m : List Host.Cell} {b0 : Bool} {p n : Nat} : maxBits ≤ n →
      DiffRun inp out maxBits m b0 p n m p n
  | atEnd {m : List Host.Cell} {b0 : Bool} {p n : Nat} : 8 * inp.len ≤ p + 2 →
      DiffRun inp out maxBits m b0 p n m p n
  | corrupt {m : List Host.Cell} {b0 : Bool} {p n : Nat} : n < maxBits → p + 2 < 8 * inp.len →
      bget m inp (p + 1) = b0 → DiffRun inp out maxBits m b0 p n m p n
  | bit {m m' : List Host.Cell} {b0 : Bool} {p n p' n' : Nat} : n < maxBits → p + 2 < 8 * inp.len →
      bget m inp (p + 1) ≠ b0 →
      DiffRun inp out maxBits (bset m out n (decide (bget m inp (p + 1) = bget m inp (p + 2))))
        (bget m inp (p + 2)) (p + 2) (n + 1) m' p' n' →
      DiffRun inp out maxBits m b0 p n m' p' n'

/-- The raw bits `r` are a differential-Manchester encoding of the `k` data bits `d` (R144). -/
def DiffEncodes (r d : Nat → Bool) (k : Nat) : Prop :=
  ∀ j, j < k → r (2 * j + 1) = !(r (2 * j)) ∧
    r (2 * j + 2) = if d j then r (2 * j + 1) else !(r (2 * j + 1))

/-- Two buffers share no byte. -/
def NoSharedByte (d e : Desc) : Prop := d.base + d.len ≤ e.base ∨ e.base + e.len ≤ d.base

/-! The CRC loops (R161, R162) on naturals. -/

/-- One shift step of a CRC register of `w` bits (R161, R162). -/
def crcShiftNat (w poly c : Nat) : Nat :=
  if c / 2 ^ (w - 1) % 2 = 1 then (c * 2 ^^^ poly) % 2 ^ w else c * 2 % 2 ^ w

/-- One byte enters at the top of a register of `w` bits and is shifted through (R161, R162). -/
def crcByteNat (w poly c b : Nat) : Nat := (crcShiftNat w poly)^[8] (c ^^^ b * 2 ^ (w - 8))

/-- The CRC of the bytes `b 0 .. b (n - 1)` (R160 to R162). -/
def crcNat (w poly init : Nat) (b : Nat → Nat) (n : Nat) : Nat :=
  (List.range n).foldl (fun c i => crcByteNat w poly c (b i)) init

/-! The classifier's rules as relations (R186 to R189). -/

/-- The slot `k` of level `l` replaced (R187). -/
def ClassTable.setSlot (t : ClassTable Nat) (level : Bool) (k : Fin 3) (sl : Slot Nat) :
    ClassTable Nat :=
  let put (u : LevelTable Nat) : LevelTable Nat :=
    match k with
    | 0 => { u with s0 := sl }
    | 1 => { u with s1 := sl }
    | 2 => { u with s2 := sl }
  if level then { t with high := put t.high } else { t with low := put t.low }

/-- `Near(d, a)` (R186). -/
def Near (cfg : ConfigRegs) (d a : Nat) : Prop :=
  if cfg.tolStrict then ((d : Int) - a).natAbs < cfg.tolPct.toNat * a / 100
  else 100 * ((d : Int) - a).natAbs ≤ cfg.tolPct.toNat * a

/-- A duration outside `MIN_DUR .. MAX_DUR` (R187). -/
def Rejected (cfg : ConfigRegs) (p : Pulse) : Prop := p.dur < cfg.minDur ∨ cfg.maxDur < p.dur

/-- An occupied class that is not near the duration (R187). -/
def Passed (cfg : ConfigRegs) (d : Nat) (sl : Slot Nat) : Prop := sl.cnt ≠ 0 ∧ ¬ Near cfg d sl.avg

/-- The run walk of R187, from (len, table) to where it ends, over the pulses `pulse (start + len)`. -/
inductive ClassWalk (cfg : ConfigRegs) (pulse : Nat → Pulse) (cap start : Nat) :
    Nat → ClassTable Nat → Nat → ClassTable Nat → Prop where
  | full {len : Nat} {t : ClassTable Nat} : cap ≤ len → ClassWalk cfg pulse cap start len t len t
  | rejected {len : Nat} {t : ClassTable Nat} : len < cap → Rejected cfg (pulse (start + len)) →
      ClassWalk cfg pulse cap start len t len t
  | noClass {len : Nat} {t : ClassTable Nat} : len < cap → ¬ Rejected cfg (pulse (start + len)) →
      (∀ k : Fin 3, Passed cfg (pulse (start + len)).dur.toNat
        (t.slot (pulse (start + len)).level k)) →
      ClassWalk cfg pulse cap start len t len t
  | opened {len len' : Nat} {t t' : ClassTable Nat} (k : Fin 3) : len < cap →
      ¬ Rejected cfg (pulse (start + len)) →
      (∀ k' : Fin 3, k' < k → Passed cfg (pulse (start + len)).dur.toNat
        (t.slot (pulse (start + len)).level k')) →
      (t.slot (pulse (start + len)).level k).cnt = 0 →
      ClassWalk cfg pulse cap start (len + 1)
        (t.setSlot (pulse (start + len)).level k { avg := (pulse (start + len)).dur.toNat, cnt := 1 })
        len' t' →
      ClassWalk cfg pulse cap start len t len' t'
  | joined {len len' : Nat} {t t' : ClassTable Nat} (k : Fin 3) (sl : Slot Nat) : len < cap →
      ¬ Rejected cfg (pulse (start + len)) →
      (∀ k' : Fin 3, k' < k → Passed cfg (pulse (start + len)).dur.toNat
        (t.slot (pulse (start + len)).level k')) →
      t.slot (pulse (start + len)).level k = sl → sl.cnt ≠ 0 →
      Near cfg (pulse (start + len)).dur.toNat sl.avg →
      ClassWalk cfg pulse cap start (len + 1)
        (t.setSlot (pulse (start + len)).level k
          { avg := (sl.avg * sl.cnt + (pulse (start + len)).dur.toNat) / (sl.cnt + 1)
            cnt := sl.cnt + 1 })
        len' t' →
      ClassWalk cfg pulse cap start len t len' t'

/-- A class qualifies for the unit estimate (R188). -/
def Qualifies (cfg : ConfigRegs) (sl : Slot Nat) : Prop :=
  1 ≤ sl.cnt ∧ cfg.minClassCnt.toNat ≤ sl.cnt

/-- The smallest average among the qualifying classes of a level, or none (R189). -/
def LevelLeast (cfg : ConfigRegs) (t : ClassTable Nat) (level : Bool) (a : Option Nat) : Prop :=
  match a with
  | none => ∀ k : Fin 3, ¬ Qualifies cfg (t.slot level k)
  | some v =>
    (∃ k : Fin 3, Qualifies cfg (t.slot level k) ∧ (t.slot level k).avg = v) ∧
      ∀ k : Fin 3, Qualifies cfg (t.slot level k) → v ≤ (t.slot level k).avg

/-- `Unit(table)` is `u` (R189). -/
def IsUnit (cfg : ConfigRegs) (t : ClassTable Nat) (u : Nat) : Prop :=
  ∃ a b : Option Nat, LevelLeast cfg t false a ∧ LevelLeast cfg t true b ∧
    u = (a.getD (b.getD 0) + b.getD (a.getD 0)) / 2

/-- The sum of the sample counts of a class table (R191). -/
def ClassTable.samples (t : ClassTable Nat) : Nat :=
  t.low.s0.cnt + t.low.s1.cnt + t.low.s2.cnt + (t.high.s0.cnt + t.high.s1.cnt + t.high.s2.cnt)

/-! Pulse-to-bit conversion (R194, R196). -/

/-- `Reps(d, u)` of R194 for `u >= 1`: the quotient, one more when twice the remainder exceeds the unit,
at most `REP_CAP`. -/
def repsSpec (repCap d u : Nat) : Nat := min (if u < 2 * (d % u) then d / u + 1 else d / u) repCap

/-- The bit position where the pulse `j` of a conversion starts (R196). -/
def bitStart (repCap u : Nat) (pulse : Nat → Pulse) (start j : Nat) : Nat :=
  ∑ k ∈ Finset.range j, repsSpec repCap (pulse (start + k)).dur.toNat u

/-- BMEM goes from `m` to `m'` by a conversion of `nb` bits into `out` (R196): no bit for unit 0; else
the copies of each pulse's level in pulse order from position 0 on, those past the end dropped, every
other bit of the buffer and every byte that holds no written bit as before. -/
def Converted (repCap u : Nat) (pulse : Nat → Pulse) (start count : Nat) (out : Desc)
    (m m' : List Host.Cell) (nb : Nat) : Prop :=
  (u = 0 → m' = m ∧ nb = 0) ∧
  (u ≠ 0 → nb = bitStart repCap u pulse start count ∧
    ∀ j, j < count → ∀ r, r < repsSpec repCap (pulse (start + j)).dur.toNat u →
      bitStart repCap u pulse start j + r < 8 * out.len →
      bget m' out (bitStart repCap u pulse start j + r) = (pulse (start + j)).level) ∧
  (∀ p, nb ≤ p → bget m' out p = bget m out p) ∧
  ∀ a, (∀ p, p < nb → p < 8 * out.len → a ≠ out.base + p / 8) → memRead m' a = memRead m a

/-- The pulses of a pulse memory by logical index: reduced modulo `PULSE_CAP` (R182). -/
def pulsesOf (which : PulseMemory) (m : List (Nat × Pulse)) (cap : Nat) (k : Nat) : Pulse :=
  pulseRead which m (k % cap)

/-- The buffers whose bytes a command may touch: the ones its engine latched (R112, R210). -/
def touched (i : Instr) (s : State) : List Desc :=
  if i = .pcScan then [s.sq.latch.window] else descriptors i s.pe.latch

/-- A byte address inside one of the buffers. -/
def InSome (ds : List Desc) (a : Nat) : Prop := ∃ d ∈ ds, d.base ≤ a ∧ a < d.base + d.len

end Sys2Proof.Machine
end

