-- ==== Sys2Proof/Certificates/Slice0/Obligations.lean ====
section
/-!
DEFINITION. Sys2Proof/Certificates/Slice0/Obligations.lean: the statements for the provers. Each docstring
names the rules of spec/ it formalises.
-/

open Sys2Proof Sys2Proof.Machine

/-! Encoding (30_encoding.md). -/

/-- R94, R95, R105, R140: words the spec writes out decode to the commands it writes them for. -/
def Obligations.DecodeWrittenOutWords : Prop :=
  decode 0x00000010#32 = .ok .bmGet ∧ decode 0x00000111#32 = .ok (.bmSet true) ∧
    decode 0x00000012#32 = .ok .bmCopy ∧ decode 0x00000013#32 = .ok .bmRev ∧
    decode 0x00000614#32 = .ok (.bmMatch 6#7) ∧ decode 0x00001015#32 = .ok (.bmSeek 16#7) ∧
    decode 0x00002016#32 = .ok (.bmReadw 32#6) ∧
    decode 0x02012220#32 = .ok (.lcManch 0x02#8 0x01#8 2#4 2#4) ∧
    decode 0x01063320#32 = .ok (.lcManch 0x01#8 0x06#8 3#4 3#4) ∧
    decode 0x00000021#32 = .ok .lcDiffm ∧ decode 0x00000030#32 = .ok .crc8 ∧
    decode 0x00000031#32 = .ok .crc16 ∧ decode 0x00000040#32 = .ok .pcSnap ∧
    decode 0x00000141#32 = .ok (.pcClassify .det) ∧ decode 0x00000142#32 = .ok (.pcTobits .det) ∧
    decode 0x00000043#32 = .ok .pcScan

/-- R90, R91, R99, R102: every well-formed command, with every field value, is read back from its word. -/
def Obligations.DecodeOfEncode : Prop :=
  ∀ i : Instr, i.wellFormed = true → decode (encode i) = .ok i

/-- R91, R99, R102: a word that decodes is the word of the command it decodes to, and that command is
well formed: no bit is dropped and no two words mean the same command. -/
def Obligations.EncodeOfDecode : Prop :=
  ∀ (w : Word) (i : Instr), decode w = .ok i → i.wellFormed = true ∧ encode i = w

/-- R103: every word is in exactly one of four classes, by the masks of R99 and the ranges of R102. -/
def Obligations.FourClassesOfWords : Prop :=
  ∀ w : Word,
    (decode w = .error .illegalOpcode ↔ ¬ OpcodeInMap w) ∧
    (decode w = .error .reservedBits ↔ OpcodeInMap w ∧ ¬ ReservedClean w) ∧
    (decode w = .error .fieldRange ↔ ReservedClean w ∧ FieldIllegal w) ∧
    ((∃ i, decode w = .ok i) ↔ ReservedClean w ∧ ¬ FieldIllegal w)

/-- R100, R101, R102: by a core that is not busy (R242 puts that check first), an opcode byte outside the
map is rejected with code 0x01, a reserved bit that is 1 under a legal opcode with 0x02, an illegal field
value with 0x04, with no other effect. -/
def Obligations.MalformedWordsAreRejected : Prop :=
  ∀ (s : State) (w : Word), s.busy = false →
    ((w.toNat % 256 ≤ 0x0F ∨ (0x17 ≤ w.toNat % 256 ∧ w.toNat % 256 ≤ 0x1F) ∨
      (0x22 ≤ w.toNat % 256 ∧ w.toNat % 256 ≤ 0x2F) ∨ (0x32 ≤ w.toNat % 256 ∧ w.toNat % 256 ≤ 0x3F) ∨
      0x44 ≤ w.toNat % 256) →
      hostStep (.write 4 0x00C#22 w) s =
        .next { s with cmd := w, errCode := 0x01#8, irqStatus := s.irqStatus ||| 0x04#5 }) ∧
    (∀ r ∈ specRows, w &&& 0xFF#32 = r.1 → w &&& r.2 ≠ r.1 →
      hostStep (.write 4 0x00C#22 w) s =
        .next { s with cmd := w, errCode := 0x02#8, irqStatus := s.irqStatus ||| 0x04#5 }) ∧
    (ReservedClean w → FieldIllegal w →
      hostStep (.write 4 0x00C#22 w) s =
        .next { s with cmd := w, errCode := 0x04#8, irqStatus := s.irqStatus ||| 0x04#5 })

/-! Issue (60_exceptions.md). -/

/-- R242: a `CMD` write reports the first condition that holds, in the order of the rule. -/
def Obligations.IssueReportsFirstError : Prop :=
  ∀ (s : State) (w : Word), ∃ t, hostStep (.write 4 0x00C#22 w) s = .next t ∧
    (s.busy = true → t.errCode = 0x05#8) ∧
    (s.busy = false → ¬ OpcodeInMap w → t.errCode = 0x01#8) ∧
    (s.busy = false → OpcodeInMap w → ¬ ReservedClean w → t.errCode = 0x02#8) ∧
    (s.busy = false → ReservedClean w → FieldIllegal w → t.errCode = 0x04#8) ∧
    (s.busy = false → ReservedClean w → ¬ FieldIllegal w →
      (((w.toNat % 256 = 0x40 ∨ w.toNat % 256 = 0x43) ∧ s.scanning = true) → t.errCode = 0x06#8) ∧
      (¬ ((w.toNat % 256 = 0x40 ∨ w.toNat % 256 = 0x43) ∧ s.scanning = true) →
        (DescriptorOutside s w → t.errCode = 0x03#8) ∧
        (¬ DescriptorOutside s w → t.errCode = 0x00#8)))

/-- R240, R241: a rejected command has no effect but on `CMD`, `ERR_CODE` and `IRQ_STATUS.ERR`. -/
def Obligations.RejectionChangesOnlyTheReport : Prop :=
  ∀ (s t : State) (w : Word), hostStep (.write 4 0x00C#22 w) s = .next t → t.errCode ≠ 0x00#8 →
    t = { s with cmd := w, errCode := t.errCode, irqStatus := s.irqStatus ||| 0x04#5 }

/-- R39, R240, R183, R210: an accepted command clears the code, records its opcode, latches word,
operands and configuration, and starts its engine; nothing else changes. That all of `ARG0` to `ARG7` and
the pattern are latched, and that every command of the primitive engine samples `WIDX`, whatever the
command reads, is the model's choice (log 7). -/
def Obligations.AcceptanceLatchesAndStarts : Prop :=
  ∀ (s t : State) (w : Word), hostStep (.write 4 0x00C#22 w) s = .next t → t.errCode = 0x00#8 →
    (w.toNat % 256 ≠ 0x43 →
      t = { s with
        cmd := w, errCode := 0x00#8, lastOp := w.setWidth 8
        pe := { pending := true
                latch := { word := w, args := s.args, pat := s.pathi ++ s.patlo, cfg := s.regs }
                copyIdx := 0, sampledW := s.widx } }) ∧
    (w.toNat % 256 = 0x43 →
      t = { s with
        cmd := w, errCode := 0x00#8, lastOp := w.setWidth 8
        sq := { s.sq with
          phase := .copy
          latch := { word := w, args := s.args, pat := s.pathi ++ s.patlo, cfg := s.regs }
          copyIdx := 0, sampledW := s.widx, nreq := 0, nrep := 0 } })

/-- R280, R39: a register the host writes after acceptance changes nothing a command then does: the
step on the rewritten registers is the same step. -/
def Obligations.CommandsUseLatchedOperandsOnly : Prop :=
  ∀ (i : Instr) (s t : State) (cmd : Word) (args : Vector Word 8) (patlo pathi : Word)
    (regs : ConfigRegs), exec i s = .next t →
    exec i { s with cmd := cmd, args := args, patlo := patlo, pathi := pathi, regs := regs } =
      .next { t with cmd := cmd, args := args, patlo := patlo, pathi := pathi, regs := regs }

/-- R23, R24, R28, R44, R46, R85: no command writes an operand, pattern, configuration or other register
of the host's, the issue report, the ring, or the parameters. -/
def Obligations.CommandsWriteNoHostRegister : Prop :=
  ∀ (i : Instr) (s t : State), exec i s = .next t →
    t.args = s.args ∧ t.patlo = s.patlo ∧ t.pathi = s.pathi ∧ t.cmd = s.cmd ∧ t.regs = s.regs ∧
      t.irqEn = s.irqEn ∧ t.decBitoff = s.decBitoff ∧ t.decBitcnt = s.decBitcnt ∧
      t.pushLvl = s.pushLvl ∧ t.errCode = s.errCode ∧ t.lastOp = s.lastOp ∧ t.ring = s.ring ∧
      t.widx = s.widx ∧ t.params = s.params ∧ t.schedule = s.schedule ∧ t.readData = s.readData ∧
      t.draws = s.draws

/-! The step. -/

/-- R243, R211, R39: an enabled engine's turn runs the command its latched word decodes to. A turn that
is scheduled is taken off the schedule first; with nothing scheduled, and under a poll of `BUSY` or, for
the sequencer, of `SCAN` and `DEC_WAIT`, the schedule stays. That an order of turns is a schedule, and that the enabled engine runs on when nothing is
scheduled, is the model's choice (logs 4 and 21). -/
def Obligations.StepRunsLatchedCommand : Prop :=
  ∀ (s : State) (i : Instr),
    (s.pe.pending = true → decode s.pe.latch.word = .ok i →
      (s.schedule = [] → step s = exec i s) ∧
      (∀ rest, s.schedule = .pe :: rest → step s = exec i { s with schedule := rest }) ∧
      (∀ rest, s.schedule = .waitIdle :: rest → step s = exec i s)) ∧
    (s.sqEnabled = true → decode s.sq.latch.word = .ok i →
      (s.pe.pending = false → s.schedule = [] → step s = exec i s) ∧
      (∀ rest, s.schedule = .sq :: rest → step s = exec i { s with schedule := rest }) ∧
      (∀ rest, s.pe.pending = false → s.schedule = .waitIdle :: rest → step s = exec i s) ∧
      (∀ rest, s.pe.pending = false → s.schedule = .waitScan :: rest → step s = exec i s))

/-- R7, R32, R47, R48, R49, R112, R183, R211, R219, R223, R242, R243: what holds in every run is kept by
every step, from every state in which it holds, and no step changes `PULSE_CAP` or `BMEM_BYTES`. -/
def Obligations.StepKeepsInvariant : Prop :=
  ∀ s t : State, Inv s → step s = .next t → Inv t ∧ t.params = s.params

/-- R270: power-on reset with any legal parameters, `State.reset` among them, satisfies the invariant. -/
def Obligations.PowerOnSatisfiesInvariant : Prop :=
  (∀ cap bytes : Nat, ParamsLegal { pulseCap := cap, bmemBytes := bytes } →
    Inv (State.powerOn cap bytes)) ∧ Inv State.reset

/-- R242: in every state of a run the machine goes on: an accepted command never fails, and only a host
access outside the interface (R74) stops a run. -/
def Obligations.RunsNeverStop : Prop :=
  ∀ s : State, Inv s → NextAccessAllowed s → ∃ t, step s = .next t

/-! The bitmap commands (40_bitmap.md). -/

/-- R113, R110: `BM.GET` answers the bit, 0 past the end, and changes nothing else. -/
def Obligations.BmGetReadsOneBit : Prop :=
  ∀ s : State, s.pe.latch.arg 0 + s.pe.latch.arg 1 ≤ s.params.bmemBytes →
    exec .bmGet s = .next { s with
      result0 :=
        if s.pe.latch.arg 2 < 8 * s.pe.latch.arg 1 then
          Word.ofBit ((memRead s.bmem (s.pe.latch.arg 0 + s.pe.latch.arg 2 / 8)).getLsbD
            (7 - s.pe.latch.arg 2 % 8))
        else 0#32
      pe := { s.pe with pending := false }
      irqStatus := s.irqStatus ||| 0x01#5 }

/-- R114, R111: `BM.SET` writes one bit of the byte at `base + pos div 8`, or nothing past the end. -/
def Obligations.BmSetWritesOneBit : Prop :=
  ∀ (s : State) (v : Bool), s.pe.latch.arg 0 + s.pe.latch.arg 1 ≤ s.params.bmemBytes →
    ∃ m : List Host.Cell,
      exec (.bmSet v) s = .next { s with
        bmem := m, pe := { s.pe with pending := false }, irqStatus := s.irqStatus ||| 0x01#5 } ∧
      (s.pe.latch.arg 2 < 8 * s.pe.latch.arg 1 → ∀ i, i < 8 →
        (memRead m (s.pe.latch.arg 0 + s.pe.latch.arg 2 / 8)).getLsbD i =
          if i = 7 - s.pe.latch.arg 2 % 8 then v
          else (memRead s.bmem (s.pe.latch.arg 0 + s.pe.latch.arg 2 / 8)).getLsbD i) ∧
      ∀ a, ¬ (s.pe.latch.arg 2 < 8 * s.pe.latch.arg 1 ∧
          a = s.pe.latch.arg 0 + s.pe.latch.arg 2 / 8) →
        memRead m a = memRead s.bmem a

/-- R115, D14: `BM.COPY` is the ascending loop: round `j` reads what the rounds before it left, so
overlapping regions replicate. Only bytes that hold a destination bit change. -/
def Obligations.BmCopyIsAscendingLoop : Prop :=
  ∀ s : State, s.pe.latch.arg 0 + s.pe.latch.arg 1 ≤ s.params.bmemBytes →
    s.pe.latch.arg 3 + s.pe.latch.arg 4 ≤ s.params.bmemBytes →
    ∃ m : Nat → List Host.Cell,
      m 0 = s.bmem ∧
      (∀ j, j < s.pe.latch.arg 6 →
        m (j + 1) = bset (m j) { base := s.pe.latch.arg 0, len := s.pe.latch.arg 1 }
          (s.pe.latch.arg 2 + j)
          (bget (m j) { base := s.pe.latch.arg 3, len := s.pe.latch.arg 4 } (s.pe.latch.arg 5 + j))) ∧
      exec .bmCopy s = .next { s with
        bmem := m (s.pe.latch.arg 6)
        pe := { s.pe with pending := false }, irqStatus := s.irqStatus ||| 0x01#5 } ∧
      ∀ a, (∀ j, j < s.pe.latch.arg 6 → s.pe.latch.arg 2 + j < 8 * s.pe.latch.arg 1 →
          a ≠ s.pe.latch.arg 0 + (s.pe.latch.arg 2 + j) / 8) →
        memRead (m (s.pe.latch.arg 6)) a = memRead s.bmem a

/-- R115: between regions that share no byte, `BM.COPY` copies every bit, 0 for a source bit past the
end, and keeps every other bit of the destination. -/
def Obligations.BmCopyBetweenDisjointBuffers : Prop :=
  ∀ s : State, s.pe.latch.arg 0 + s.pe.latch.arg 1 ≤ s.params.bmemBytes →
    s.pe.latch.arg 3 + s.pe.latch.arg 4 ≤ s.params.bmemBytes →
    NoSharedByte s.pe.latch.buf0 s.pe.latch.buf3 →
    ∃ t, exec .bmCopy s = .next t ∧ ∀ p, p < 8 * s.pe.latch.arg 1 →
      bget t.bmem s.pe.latch.buf0 p =
        if s.pe.latch.arg 2 ≤ p ∧ p < s.pe.latch.arg 2 + s.pe.latch.arg 6 then
          bget s.bmem s.pe.latch.buf3 (s.pe.latch.arg 5 + (p - s.pe.latch.arg 2))
        else bget s.bmem s.pe.latch.buf0 p

/-- R116: `BM.REV` reverses the bits of every byte of the buffer and touches no other. -/
def Obligations.BmRevReversesEachByte : Prop :=
  ∀ s : State, s.pe.latch.arg 0 + s.pe.latch.arg 1 ≤ s.params.bmemBytes →
    ∃ m : List Host.Cell,
      exec .bmRev s = .next { s with
        bmem := m, pe := { s.pe with pending := false }, irqStatus := s.irqStatus ||| 0x01#5 } ∧
      (∀ a, s.pe.latch.arg 0 ≤ a → a < s.pe.latch.arg 0 + s.pe.latch.arg 1 →
        ∀ i, i < 8 → (memRead m a).getLsbD i = (memRead s.bmem a).getLsbD (7 - i)) ∧
      ∀ a, ¬ (s.pe.latch.arg 0 ≤ a ∧ a < s.pe.latch.arg 0 + s.pe.latch.arg 1) →
        memRead m a = memRead s.bmem a

/-- R118, R117, R94: `BM.MATCH` answers whether every bit of the right-aligned pattern equals the
bitmap's bit from the offset on, in `RESULT0` and in `FOUND`. -/
def Obligations.BmMatchTestsThePattern : Prop :=
  ∀ (s : State) (plen : BitVec 7), s.pe.latch.arg 0 + s.pe.latch.arg 1 ≤ s.params.bmemBytes →
    ∃ hit : Bool,
      (hit = true ↔ ∀ i, i < plen.toNat →
        bget s.bmem { base := s.pe.latch.arg 0, len := s.pe.latch.arg 1 } (s.pe.latch.arg 2 + i) =
          s.pe.latch.pat.getLsbD (plen.toNat - 1 - i)) ∧
      exec (.bmMatch plen) s = .next { s with
        result0 := Word.ofBit hit, found := hit
        pe := { s.pe with pending := false }, irqStatus := s.irqStatus ||| 0x01#5 }

/-- R120: `BM.SEEK` returns `j` with `FOUND = 1` iff `j` is the lowest match among the candidates of
R119; otherwise it returns `0xFFFFFFFF` with `FOUND = 0`. -/
def Obligations.BmSeekFindsLowestMatch : Prop :=
  ∀ (s : State) (plen : BitVec 7), ParamsLegal s.params →
    s.pe.latch.arg 0 + s.pe.latch.arg 1 ≤ s.params.bmemBytes →
    ∃ (r : Word) (f : Bool),
      exec (.bmSeek plen) s = .next { s with
        result0 := r, found := f
        pe := { s.pe with pending := false }, irqStatus := s.irqStatus ||| 0x01#5 } ∧
      (∀ j : Nat, (f = true ∧ r.toNat = j) ↔
        (s.pe.latch.arg 2 ≤ j ∧
          j < min (s.pe.latch.arg 2 + s.pe.latch.arg 3) (8 * s.pe.latch.arg 1) ∧
          Matches s.bmem { base := s.pe.latch.arg 0, len := s.pe.latch.arg 1 } j
            (fun i => s.pe.latch.pat.getLsbD (plen.toNat - 1 - i)) plen.toNat ∧
          ∀ j', s.pe.latch.arg 2 ≤ j' → j' < j →
            ¬ Matches s.bmem { base := s.pe.latch.arg 0, len := s.pe.latch.arg 1 } j'
              (fun i => s.pe.latch.pat.getLsbD (plen.toNat - 1 - i)) plen.toNat)) ∧
      (f = false → r = 0xFFFFFFFF#32)

/-- R121: `BM.READW` answers the sum of the bits read, the first the most significant. -/
def Obligations.BmReadwSumsTheBits : Prop :=
  ∀ (s : State) (nbits : BitVec 6), s.pe.latch.arg 0 + s.pe.latch.arg 1 ≤ s.params.bmemBytes →
    exec (.bmReadw nbits) s = .next { s with
      result0 := BitVec.ofNat 32 (∑ i ∈ Finset.range nbits.toNat,
        (bget s.bmem { base := s.pe.latch.arg 0, len := s.pe.latch.arg 1 }
          (s.pe.latch.arg 2 + i)).toNat * 2 ^ (nbits.toNat - 1 - i))
      pe := { s.pe with pending := false }, irqStatus := s.irqStatus ||| 0x01#5 }

/-- R122: no command reads or writes a byte of BMEM outside its buffers. Bytes outside keep their
values; and on memories that agree on the buffers, a command leaves everything but BMEM the same, and
BMEM the same on the buffers. (For `PC.SCAN`, whose step builds the window, the buffer is the window.) -/
def Obligations.CommandsStayInsideTheirBuffers : Prop :=
  ∀ (i : Instr) (s t : State), exec i s = .next t →
    (∀ a, ¬ InSome (touched i s) a → memRead t.bmem a = memRead s.bmem a) ∧
    ∀ m : List Host.Cell, (∀ a, InSome (touched i s) a → memRead m a = memRead s.bmem a) →
      ∃ m' : List Host.Cell, exec i { s with bmem := m } = .next { t with bmem := m' } ∧
        ∀ a, InSome (touched i s) a → memRead m' a = memRead t.bmem a

/-! The line-code decoders (41_linecode.md). -/

/-- R141: `LC.MANCH` runs the loop of the rule to its stop and reports the count and the position;
only bytes that hold an output bit change. -/
def Obligations.LcManchRunsTheLoop : Prop :=
  ∀ (s : State) (opat zpat : BitVec 8) (olen zlen : BitVec 4),
    (Instr.lcManch opat zpat olen zlen).wellFormed = true →
    s.pe.latch.arg 0 + s.pe.latch.arg 1 ≤ s.params.bmemBytes →
    s.pe.latch.arg 3 + s.pe.latch.arg 4 ≤ s.params.bmemBytes →
    ∃ (m : List Host.Cell) (off n : Nat),
      ManchRun { base := s.pe.latch.arg 0, len := s.pe.latch.arg 1 }
        { base := s.pe.latch.arg 3, len := s.pe.latch.arg 4 }
        (fun i => zpat.getLsbD (zlen.toNat - 1 - i)) (fun i => opat.getLsbD (olen.toNat - 1 - i))
        zlen.toNat olen.toNat s.bmem (s.pe.latch.arg 2) 0 m off n ∧
      exec (.lcManch opat zpat olen zlen) s = .next { s with
        bmem := m, result0 := BitVec.ofNat 32 n, result1 := BitVec.ofNat 32 off
        pe := { s.pe with pending := false }, irqStatus := s.irqStatus ||| 0x01#5 } ∧
      ∀ a, (∀ j, j < n → j < 8 * s.pe.latch.arg 4 → a ≠ s.pe.latch.arg 3 + j / 8) →
        memRead m a = memRead s.bmem a

/-- R142: the Manchester round trip, for both polarities: `8K` data bits, encoded from position 0, are
recovered, whether the input ends there or its next two bits are `00` or `11`. The output holds at
least `K` bytes and shares none with the input. -/
def Obligations.ManchesterRoundTrip : Prop :=
  ∀ (s : State) (inverted : Bool) (k : Nat) (d : Nat → Bool),
    s.pe.latch.arg 0 + s.pe.latch.arg 1 ≤ s.params.bmemBytes →
    s.pe.latch.arg 3 + s.pe.latch.arg 4 ≤ s.params.bmemBytes →
    NoSharedByte s.pe.latch.buf0 s.pe.latch.buf3 → s.pe.latch.arg 2 = 0 → k ≤ s.pe.latch.arg 4 →
    (∀ j, j < 8 * k → bget s.bmem s.pe.latch.buf0 (2 * j) = (d j ^^ inverted) ∧
      bget s.bmem s.pe.latch.buf0 (2 * j + 1) = !(d j ^^ inverted)) →
    (s.pe.latch.arg 1 = 2 * k ∨ (2 * k < s.pe.latch.arg 1 ∧
      bget s.bmem s.pe.latch.buf0 (16 * k) = bget s.bmem s.pe.latch.buf0 (16 * k + 1))) →
    ∃ t, exec (if inverted then .lcManch 0x01#8 0x02#8 2#4 2#4 else .lcManch 0x02#8 0x01#8 2#4 2#4) s =
        .next t ∧
      t.result0 = BitVec.ofNat 32 (8 * k) ∧ t.result1 = BitVec.ofNat 32 (16 * k) ∧
      ∀ j, j < 8 * k → bget t.bmem s.pe.latch.buf3 j = d j

/-- R145: `LC.DIFFM` runs the loop of the rule to its stop; a start past the input decodes nothing. -/
def Obligations.LcDiffmRunsTheLoop : Prop :=
  ∀ s : State, s.pe.latch.arg 0 + s.pe.latch.arg 1 ≤ s.params.bmemBytes →
    s.pe.latch.arg 3 + s.pe.latch.arg 4 ≤ s.params.bmemBytes →
    (8 * s.pe.latch.arg 1 ≤ s.pe.latch.arg 2 →
      exec .lcDiffm s = .next { s with
        result0 := 0#32, result1 := BitVec.ofNat 32 (s.pe.latch.arg 2)
        pe := { s.pe with pending := false }, irqStatus := s.irqStatus ||| 0x01#5 }) ∧
    (s.pe.latch.arg 2 < 8 * s.pe.latch.arg 1 →
      ∃ (m : List Host.Cell) (p n : Nat),
        DiffRun { base := s.pe.latch.arg 0, len := s.pe.latch.arg 1 }
          { base := s.pe.latch.arg 3, len := s.pe.latch.arg 4 } (s.pe.latch.arg 5) s.bmem
          (bget s.bmem { base := s.pe.latch.arg 0, len := s.pe.latch.arg 1 } (s.pe.latch.arg 2))
          (s.pe.latch.arg 2) 0 m p n ∧
        p = s.pe.latch.arg 2 + 2 * n ∧
        exec .lcDiffm s = .next { s with
          bmem := m, result0 := BitVec.ofNat 32 n, result1 := BitVec.ofNat 32 (p + 1)
          pe := { s.pe with pending := false }, irqStatus := s.irqStatus ||| 0x01#5 } ∧
        ∀ a, (∀ j, j < n → j < 8 * s.pe.latch.arg 4 → a ≠ s.pe.latch.arg 3 + j / 8) →
          memRead m a = memRead s.bmem a)

/-- R146, R144: the differential-Manchester round trip from any start, with `max_bits = K` and an
output that shares no byte with the input. -/
def Obligations.DiffManchesterRoundTrip : Prop :=
  ∀ (s : State) (k : Nat) (r d : Nat → Bool),
    s.pe.latch.arg 0 + s.pe.latch.arg 1 ≤ s.params.bmemBytes →
    s.pe.latch.arg 3 + s.pe.latch.arg 4 ≤ s.params.bmemBytes →
    NoSharedByte s.pe.latch.buf0 s.pe.latch.buf3 → s.pe.latch.arg 5 = k →
    s.pe.latch.arg 2 + 2 * k + 1 ≤ 8 * s.pe.latch.arg 1 → DiffEncodes r d k →
    (∀ j, j ≤ 2 * k → bget s.bmem s.pe.latch.buf0 (s.pe.latch.arg 2 + j) = r j) →
    ∃ t, exec .lcDiffm s = .next t ∧
      t.result0 = BitVec.ofNat 32 k ∧ t.result1 = BitVec.ofNat 32 (s.pe.latch.arg 2 + 2 * k + 1) ∧
      ∀ j, j < k → j < 8 * s.pe.latch.arg 4 → bget t.bmem s.pe.latch.buf3 j = d j

/-- R147, C4: exactly one raw bit `m` of an encoding of `K >= 1` bits is flipped. The four clauses of
the rule; emitted bits are looked at where the output holds them. -/
def Obligations.DiffManchesterBitFlip : Prop :=
  ∀ (s : State) (k m : Nat) (r d : Nat → Bool),
    s.pe.latch.arg 0 + s.pe.latch.arg 1 ≤ s.params.bmemBytes →
    s.pe.latch.arg 3 + s.pe.latch.arg 4 ≤ s.params.bmemBytes →
    NoSharedByte s.pe.latch.buf0 s.pe.latch.buf3 → s.pe.latch.arg 5 = k → 1 ≤ k →
    s.pe.latch.arg 2 + 2 * k + 1 ≤ 8 * s.pe.latch.arg 1 → DiffEncodes r d k → m ≤ 2 * k →
    (∀ j, j ≤ 2 * k → bget s.bmem s.pe.latch.buf0 (s.pe.latch.arg 2 + j) = (r j ^^ decide (j = m))) →
    ∃ t, exec .lcDiffm s = .next t ∧
      (m ≤ 1 → t.result0 = 0#32) ∧
      (m % 2 = 1 → 3 ≤ m → t.result0 = BitVec.ofNat 32 ((m - 1) / 2) ∧
        ∀ j, j < (m - 1) / 2 → j < 8 * s.pe.latch.arg 4 → bget t.bmem s.pe.latch.buf3 j = d j) ∧
      (m % 2 = 0 → 2 ≤ m → m ≤ 2 * k - 2 → t.result0 = BitVec.ofNat 32 (m / 2) ∧ m / 2 < k ∧
        (m / 2 - 1 < 8 * s.pe.latch.arg 4 →
          bget t.bmem s.pe.latch.buf3 (m / 2 - 1) = !(d (m / 2 - 1)))) ∧
      (m = 2 * k → t.result0 = BitVec.ofNat 32 k ∧
        (k - 1 < 8 * s.pe.latch.arg 4 → bget t.bmem s.pe.latch.buf3 (k - 1) = !(d (k - 1))))

/-! The CRC generators (42_crc.md). -/

/-- R161, R162, R160: `CRC8` and `CRC16` are the bit-serial loops of the rules on the bytes in ascending
order, on the low 8 and 16 bits of the operands; they change nothing but `RESULT0`. -/
def Obligations.CrcCommandsRunTheLoops : Prop :=
  ∀ s : State, s.pe.latch.arg 0 + s.pe.latch.arg 1 ≤ s.params.bmemBytes →
    exec .crc8 s = .next { s with
      result0 := BitVec.ofNat 32 (crcNat 8 (s.pe.latch.arg 3 % 2 ^ 8) (s.pe.latch.arg 2 % 2 ^ 8)
        (fun i => (memRead s.bmem (s.pe.latch.arg 0 + i)).toNat) (s.pe.latch.arg 1))
      pe := { s.pe with pending := false }, irqStatus := s.irqStatus ||| 0x01#5 } ∧
    exec .crc16 s = .next { s with
      result0 := BitVec.ofNat 32 (crcNat 16 (s.pe.latch.arg 3 % 2 ^ 16) (s.pe.latch.arg 2 % 2 ^ 16)
        (fun i => (memRead s.bmem (s.pe.latch.arg 0 + i)).toNat) (s.pe.latch.arg 1))
      pe := { s.pe with pending := false }, irqStatus := s.irqStatus ||| 0x01#5 }

/-- R164: the zero-residue law of both generators, the CRC-16's two bytes appended high byte first; the
other order leaves `0x93F3` for the rule's example. R166: for an odd polynomial, distinct `init` values
give distinct results on the same bytes. -/
def Obligations.CrcLaws : Prop :=
  (∀ (poly init : BitVec 8) (data : List Byte),
    crc8Of poly init (data ++ [crc8Of poly init data]) = 0#8) ∧
  (∀ (poly init : BitVec 16) (data : List Byte),
    crc16Of poly init (data ++ [(crc16Of poly init data).extractLsb' 8 8,
      (crc16Of poly init data).extractLsb' 0 8]) = 0#16) ∧
  crc16Of 0x1021#16 0xFFFF#16 [0x31#8, 0x32#8, 0x33#8, 0x34#8, 0x35#8, 0x36#8, 0x37#8, 0x38#8, 0x39#8,
    0xB1#8, 0x29#8] = 0x93F3#16 ∧
  (∀ (poly a b : BitVec 8) (data : List Byte), poly.getLsbD 0 = true →
    crc8Of poly a data = crc8Of poly b data → a = b) ∧
  ∀ (poly a b : BitVec 16) (data : List Byte), poly.getLsbD 0 = true →
    crc16Of poly a data = crc16Of poly b data → a = b

/-! Pulse memories and the classifier (43_classifier.md). -/

/-- R181, R46: a capture step, and likewise a host write to `PUSH_DUR`, appends one pulse at the write
index in any state of the engines; no other ring entry and nothing else changes. That a capture step is a turn of
the schedule is the model's choice (log 4). -/
def Obligations.AppendTakesTheWriteSlot : Prop :=
  ∀ s : State,
    (∀ (p : Pulse) (rest : List Event), s.schedule = .capture p :: rest →
      ∃ r : List (Nat × Pulse),
        step s = .next { s with
          schedule := rest, ring := r, widx := (s.widx + 1) % s.params.pulseCap } ∧
        pulseRead .ring r s.widx = p ∧
        ∀ k, k ≠ s.widx → pulseRead .ring r k = pulseRead .ring s.ring k) ∧
    (∀ d : Word,
      ∃ r : List (Nat × Pulse),
        hostStep (.write 4 0x110#22 d) s =
          .next { s with ring := r, widx := (s.widx + 1) % s.params.pulseCap } ∧
        pulseRead .ring r s.widx = { level := s.pushLvl, dur := d } ∧
        ∀ k, k ≠ s.widx → pulseRead .ring r k = pulseRead .ring s.ring k)

/-- R183: one step of `PC.SNAP` copies one slot; the last one writes the sampled index to `SNAP_WIDX`
and `RESULT0` and completes. -/
def Obligations.PcSnapCopiesOneSlot : Prop :=
  ∀ s : State,
    ∃ m : List (Nat × Pulse),
      (pulseRead .snap m s.pe.copyIdx =
        pulseRead .ring s.ring ((s.pe.sampledW + s.pe.copyIdx) % s.params.pulseCap)) ∧
      (∀ k, k ≠ s.pe.copyIdx → pulseRead .snap m k = pulseRead .snap s.snap k) ∧
      (s.pe.copyIdx + 1 < s.params.pulseCap →
        exec .pcSnap s = .next { s with snap := m, pe := { s.pe with copyIdx := s.pe.copyIdx + 1 } }) ∧
      (s.params.pulseCap ≤ s.pe.copyIdx + 1 →
        exec .pcSnap s = .next { s with
          snap := m
          snapWidx := BitVec.ofNat 32 s.pe.sampledW, result0 := BitVec.ofNat 32 s.pe.sampledW
          pe := { s.pe with pending := false }, irqStatus := s.irqStatus ||| 0x01#5 })

/-- R183, R182: with capture quiet, `PULSE_CAP` steps of an accepted `PC.SNAP` copy the whole ring,
oldest entry first, and complete the command. (An empty schedule, under which the engine runs on, is the
model's choice, log 4.) -/
def Obligations.PcSnapCopiesTheRing : Prop :=
  ∀ s : State, ParamsLegal s.params → s.schedule = [] → s.pe.pending = true →
    s.pe.latch.word = 0x00000040#32 → s.pe.copyIdx = 0 →
    ∃ t, stepN s.params.pulseCap s = .next t ∧ t.pe.pending = false ∧
      (∀ c, c < s.params.pulseCap → pulseRead .snap t.snap c =
        pulseRead .ring s.ring ((s.pe.sampledW + c) % s.params.pulseCap)) ∧
      t.snapWidx = BitVec.ofNat 32 s.pe.sampledW ∧ t.result0 = BitVec.ofNat 32 s.pe.sampledW ∧
      t.irqStatus = s.irqStatus ||| 0x01#5 ∧ t.ring = s.ring ∧ t.widx = s.widx ∧ t.bmem = s.bmem ∧
      t.det = s.det ∧ t.result1 = s.result1

/-- R190, R187, R189, R51: `PC.CLASSIFY` walks the run of the rule on the source its `SRC` bit selects
and writes the run length, the unit and the class table; no memory and no held best changes. -/
def Obligations.PcClassifyWalksTheRun : Prop :=
  ∀ (s : State) (src : Src),
    ∃ (len u : Nat) (t : ClassTable Nat),
      ClassWalk s.pe.latch.cfg
        (match src with
          | .snap => pulsesOf .snap s.snap s.params.pulseCap
          | .det => pulsesOf .det s.det s.params.pulseCap)
        s.params.pulseCap (s.pe.latch.arg 0) 0 (ClassTable.empty 0) len t ∧
      IsUnit s.pe.latch.cfg t u ∧
      exec (.pcClassify src) s = .next { s with
        runLen := BitVec.ofNat 32 len, unitDur := BitVec.ofNat 32 u, cls := tableWords t
        result0 := BitVec.ofNat 32 len, result1 := BitVec.ofNat 32 u
        pe := { s.pe with pending := false }, irqStatus := s.irqStatus ||| 0x01#5 }

/-- R191: a run is no longer than the snapshot, every pulse of it is in exactly one class, every class
average and a nonzero unit lie between `MIN_DUR` and `MAX_DUR`, and the pulses after the one that ends
the run do not matter. -/
def Obligations.ClassifierInvariants : Prop :=
  ∀ (cfg : ConfigRegs) (pulse : Nat → Pulse) (cap start : Nat),
    (classifyRun cfg pulse cap start).1 ≤ cap ∧
    (classifyRun cfg pulse cap start).2.samples = (classifyRun cfg pulse cap start).1 ∧
    (∀ (level : Bool) (k : Fin 3), ((classifyRun cfg pulse cap start).2.slot level k).cnt ≠ 0 →
      cfg.minDur.toNat ≤ ((classifyRun cfg pulse cap start).2.slot level k).avg ∧
      ((classifyRun cfg pulse cap start).2.slot level k).avg ≤ cfg.maxDur.toNat) ∧
    (0 < unitOf cfg (classifyRun cfg pulse cap start).2 →
      cfg.minDur.toNat ≤ unitOf cfg (classifyRun cfg pulse cap start).2 ∧
      unitOf cfg (classifyRun cfg pulse cap start).2 ≤ cfg.maxDur.toNat) ∧
    ∀ pulse' : Nat → Pulse,
      (∀ j, j < cap → j ≤ (classifyRun cfg pulse cap start).1 →
        pulse' (start + j) = pulse (start + j)) →
      classifyRun cfg pulse' cap start = classifyRun cfg pulse cap start

/-- R195, R196, R194: `PC.TOBITS` writes the rounded number of copies of each pulse's level and reports
the bit count, saturated at 32 bits. -/
def Obligations.PcTobitsConvertsThePulses : Prop :=
  ∀ (s : State) (src : Src), s.pe.latch.arg 3 + s.pe.latch.arg 4 ≤ s.params.bmemBytes →
    ∃ (m : List Host.Cell) (nb : Nat),
      Converted s.pe.latch.cfg.repCap.toNat (s.pe.latch.arg 2)
        (match src with
          | .snap => pulsesOf .snap s.snap s.params.pulseCap
          | .det => pulsesOf .det s.det s.params.pulseCap)
        (s.pe.latch.arg 0) (s.pe.latch.arg 1)
        { base := s.pe.latch.arg 3, len := s.pe.latch.arg 4 } s.bmem m nb ∧
      exec (.pcTobits src) s = .next { s with
        bmem := m, result0 := BitVec.ofNat 32 (min nb (2 ^ 32 - 1))
        pe := { s.pe with pending := false }, irqStatus := s.irqStatus ||| 0x01#5 }

/-! The scanner (44_scan.md). -/

/-- R212: a COPY step copies one slot; the last one also sets `SNAP_WIDX`, the cursor and `SCAN_CUR`. -/
def Obligations.ScanCopyStep : Prop :=
  ∀ s : State, s.sq.phase = .copy →
    ∃ m : List (Nat × Pulse),
      (pulseRead .snap m s.sq.copyIdx =
        pulseRead .ring s.ring ((s.sq.sampledW + s.sq.copyIdx) % s.params.pulseCap)) ∧
      (∀ k, k ≠ s.sq.copyIdx → pulseRead .snap m k = pulseRead .snap s.snap k) ∧
      (s.sq.copyIdx + 1 < s.params.pulseCap →
        exec .pcScan s = .next { s with snap := m, sq := { s.sq with copyIdx := s.sq.copyIdx + 1 } }) ∧
      (s.params.pulseCap ≤ s.sq.copyIdx + 1 →
        exec .pcScan s = .next { s with
          snap := m, snapWidx := BitVec.ofNat 32 s.sq.sampledW, scanCur := 0#32
          sq := { s.sq with phase := .classify, cursor := 0 } })

/-- R213: a CLASSIFY step classifies at the cursor and writes the class registers; a run shorter than
`MIN_RUN` moves the cursor on by 1, any other goes to CONVERT. -/
def Obligations.ScanClassifyStep : Prop :=
  ∀ s : State, s.sq.phase = .classify →
    ∃ (len u : Nat) (t : ClassTable Nat),
      ClassWalk s.sq.latch.cfg (pulsesOf .snap s.snap s.params.pulseCap) s.params.pulseCap
        s.sq.cursor 0 (ClassTable.empty 0) len t ∧
      IsUnit s.sq.latch.cfg t u ∧
      (len < s.sq.latch.cfg.minRun.toNat →
        exec .pcScan s = .next { s with
          runLen := BitVec.ofNat 32 len, unitDur := BitVec.ofNat 32 u, cls := tableWords t
          scanCur := BitVec.ofNat 32 (s.sq.cursor + 1)
          sq := { s.sq with
            len := len, unit := u, cursor := s.sq.cursor + 1
            phase := if s.params.pulseCap ≤ s.sq.cursor + 1 then .done else .classify } }) ∧
      (s.sq.latch.cfg.minRun.toNat ≤ len →
        exec .pcScan s = .next { s with
          runLen := BitVec.ofNat 32 len, unitDur := BitVec.ofNat 32 u, cls := tableWords t
          sq := { s.sq with len := len, unit := u, phase := .convert } })

/-- R214, R215, R216, R218: a CONVERT step clears the window region, converts the run with its margins
from `(i - LOOKBACK) mod CAP` on, reports the valid bits and asks for a verdict, or answers "not
decoded" under `DEC_BYPASS`. -/
def Obligations.ScanConvertStep : Prop :=
  ∀ s : State, s.sq.phase = .convert → 1 ≤ s.params.pulseCap →
    s.sq.latch.cfg.winBase.toNat + s.sq.latch.cfg.winLen.toNat ≤ s.params.bmemBytes →
    ∃ (clr m : List Host.Cell) (ws nb : Nat),
      (∀ a, memRead clr a =
        if s.sq.latch.cfg.winBase.toNat ≤ a ∧
            a < s.sq.latch.cfg.winBase.toNat + s.sq.latch.cfg.winLen.toNat then 0#8
        else memRead s.bmem a) ∧
      (ws : Int) = ((s.sq.cursor : Int) - s.sq.latch.cfg.lookback.toNat) % s.params.pulseCap ∧
      Converted s.sq.latch.cfg.repCap.toNat s.sq.unit (pulsesOf .snap s.snap s.params.pulseCap) ws
        (s.sq.latch.cfg.lookback.toNat + s.sq.len + s.sq.latch.cfg.lookahead.toNat)
        { base := s.sq.latch.cfg.winBase.toNat, len := s.sq.latch.cfg.winLen.toNat } clr m nb ∧
      (s.sq.latch.cfg.decBypass = false →
        exec .pcScan s = .next { s with
          bmem := m, decNbits := BitVec.ofNat 32 (min nb (8 * s.sq.latch.cfg.winLen.toNat))
          irqStatus := s.irqStatus ||| 0x02#5
          sq := { s.sq with nb := nb, nreq := s.sq.nreq + 1, phase := .wait } }) ∧
      (s.sq.latch.cfg.decBypass = true →
        exec .pcScan s = .next { s with
          bmem := m, decNbits := BitVec.ofNat 32 (min nb (8 * s.sq.latch.cfg.winLen.toNat))
          sq := { s.sq with
            nb := nb, nreq := s.sq.nreq + 1, vd := false, vo := 0#32, vc := 0#32, phase := .update } })

/-- R219, R220, R221, C1: an UPDATE step replaces the held best, its pulses and its flags in one step iff
the held one is undecoded and the candidate is longer or decoded, and moves the cursor past the run. -/
def Obligations.ScanUpdateStep : Prop :=
  ∀ s : State, s.sq.phase = .update →
    ∃ (q : SqState) (d : List (Nat × Pulse)),
      q = { s.sq with
        cursor := s.sq.cursor + max s.sq.len 1
        phase := if s.params.pulseCap ≤ s.sq.cursor + max s.sq.len 1 then .done else .classify } ∧
      (∀ j, j < s.params.pulseCap → pulseRead .det d j =
        pulseRead .snap s.snap ((s.sq.cursor + j) % s.params.pulseCap)) ∧
      (s.best.decoded = false ∧ (s.best.len.toNat < s.sq.len ∨ s.sq.vd = true) →
        exec .pcScan s = .next { s with
          best :=
            { valid := true, decoded := s.sq.vd, len := BitVec.ofNat 32 s.sq.len
              unit := BitVec.ofNat 32 s.sq.unit, start := BitVec.ofNat 32 s.sq.cursor
              wbits := BitVec.ofNat 32 (min s.sq.nb (8 * s.sq.latch.cfg.winLen.toNat))
              bitoff := if s.sq.vd = true then s.sq.vo else 0#32
              bitcnt := if s.sq.vd = true then s.sq.vc else 0#32
              widx := BitVec.ofNat 32 s.sq.sampledW }
          det := d, irqStatus := s.irqStatus ||| 0x08#5
          scanCur := BitVec.ofNat 32 (s.sq.cursor + max s.sq.len 1)
          sq := { q with nrep := s.sq.nrep + 1 } }) ∧
      (¬ (s.best.decoded = false ∧ (s.best.len.toNat < s.sq.len ∨ s.sq.vd = true)) →
        exec .pcScan s = .next { s with
          scanCur := BitVec.ofNat 32 (s.sq.cursor + max s.sq.len 1), sq := q })

/-- R222: the DONE step reports the two counts, raises `DONE` and ends the scan. R211 gives the sequencer
no step when it is idle or waits for a verdict; that `exec` then answers the unchanged state is the model's
choice (log 18). -/
def Obligations.ScanDoneAndDisabledSteps : Prop :=
  ∀ s : State,
    (s.sq.phase = .done →
      exec .pcScan s = .next { s with
        result0 := BitVec.ofNat 32 s.sq.nreq, result1 := BitVec.ofNat 32 s.sq.nrep
        scanCur := BitVec.ofNat 32 s.sq.cursor, irqStatus := s.irqStatus ||| 0x01#5
        sq := { s.sq with phase := .idle } }) ∧
    (s.sq.phase = .wait ∨ s.sq.phase = .idle → exec .pcScan s = .next s)

/-- R217, R44, C6: a write to `DEC_VERDICT` delivers the verdict with the latched offset and count while
the scan waits and no command is pending; at any other time it only sets `OVR`. -/
def Obligations.VerdictOnlyInItsWindow : Prop :=
  ∀ (s : State) (v : Word),
    (s.decWait = true → s.busy = false →
      hostStep (.write 4 0x0F8#22 v) s = .next { s with
        sq := { s.sq with
          vd := v.getLsbD 0, vo := s.decBitoff, vc := s.decBitcnt, phase := .update } }) ∧
    (¬ (s.decWait = true ∧ s.busy = false) →
      hostStep (.write 4 0x0F8#22 v) s = .next { s with irqStatus := s.irqStatus ||| 0x10#5 })

/-- R223, R218: a scan that answers its own requests ends within `4 * CAP + 1` of its own steps, makes at
most `CAP` requests, and leaves `SCAN_CUR` in `CAP .. 2*CAP - 1`. (An empty schedule, under which
the engine runs on, is the model's choice, log 4.) -/
def Obligations.BypassedScanEnds : Prop :=
  ∀ s : State, Inv s → s.schedule = [] → s.pe.pending = false → s.sq.phase = .copy →
    s.sq.copyIdx = 0 → s.sq.nreq = 0 → s.sq.latch.cfg.decBypass = true →
    ∃ (n : Nat) (t : State), n ≤ 4 * s.params.pulseCap + 1 ∧ stepN n s = .next t ∧
      t.sq.phase = .idle ∧ t.result0.toNat ≤ s.params.pulseCap ∧
      s.params.pulseCap ≤ t.scanCur.toNat ∧ t.scanCur.toNat < 2 * s.params.pulseCap

/-- R224: after a replacement, under the classifier configuration of the scan, `pc.classify 0, det` gives
back the held best's length and unit. The candidate's length and unit are those of the CLASSIFY step at
the cursor (R213). -/
def Obligations.HeldBestReclassifies : Prop :=
  ∀ (s t r : State) (tbl : ClassTable Nat), 1 ≤ s.params.pulseCap → s.sq.phase = .update →
    ClassWalk s.sq.latch.cfg (pulsesOf .snap s.snap s.params.pulseCap) s.params.pulseCap
      s.sq.cursor 0 (ClassTable.empty 0) s.sq.len tbl →
    IsUnit s.sq.latch.cfg tbl s.sq.unit →
    s.best.decoded = false → (s.best.len.toNat < s.sq.len ∨ s.sq.vd = true) →
    exec .pcScan s = .next t →
    r.params = t.params → r.det = t.det → r.pe.latch.cfg = s.sq.latch.cfg → r.pe.latch.arg 0 = 0 →
    ∃ u, exec (.pcClassify .det) r = .next u ∧ u.result0 = t.best.len ∧ u.result1 = t.best.unit

/-- R224: `pc.tobits` on `Det`, from the run's lookback on, over a cleared region of the window's size,
writes the bits of the window that the CONVERT step built, and counts as many. -/
def Obligations.HeldBestRebuildsItsWindow : Prop :=
  ∀ s t r : State, 1 ≤ s.params.pulseCap → s.sq.phase = .convert → exec .pcScan s = .next t →
    r.params = s.params →
    (∀ j, j < s.params.pulseCap → pulseRead .det r.det j =
      pulseRead .snap s.snap ((s.sq.cursor + j) % s.params.pulseCap)) →
    r.pe.latch.cfg.repCap = s.sq.latch.cfg.repCap →
    r.pe.latch.arg 0 = (s.params.pulseCap - s.sq.latch.cfg.lookback.toNat % s.params.pulseCap) %
      s.params.pulseCap →
    r.pe.latch.arg 1 = s.sq.latch.cfg.lookback.toNat + s.sq.len + s.sq.latch.cfg.lookahead.toNat →
    r.pe.latch.arg 2 = s.sq.unit → r.pe.latch.arg 3 = s.sq.latch.cfg.winBase.toNat →
    r.pe.latch.arg 4 = s.sq.latch.cfg.winLen.toNat →
    (∀ p, bget r.bmem s.sq.latch.window p = false) →
    ∃ u, exec (.pcTobits .det) r = .next u ∧
      u.result0 = BitVec.ofNat 32 (min t.sq.nb (2 ^ 32 - 1)) ∧
      ∀ p, bget u.bmem s.sq.latch.window p = bget t.bmem s.sq.latch.window p

/-- R226, R219, R286: a decoded held best stays, whatever step any agent takes, but for a host write to
`CTRL` that clears it or resets the core. -/
def Obligations.DecodedBestStaysUntilCleared : Prop :=
  ∀ s t : State, s.best.decoded = true → step s = .next t →
    t.best = s.best ∨
      ∃ (v : Word) (rest : List Event), s.schedule = .host (.write 4 0x004#22 v) :: rest ∧
        (v.getLsbD 0 = true ∨ v.getLsbD 1 = true)

/-! The host's port (10_state.md, 20_memory.md). -/

/-- R74: an access that is not a naturally aligned 32-bit word is refused, and no other access is. -/
def Obligations.OnlyAlignedWordsAreAccepted : Prop :=
  ∀ (s : State) (size : Nat) (o : BitVec 22) (v : Word),
    (size ≠ 4 ∨ o.toNat % 4 ≠ 0 →
      hostStep (.read size o) s = .refused .hostAccess ∧
      hostStep (.write size o v) s = .refused .hostAccess) ∧
    (size = 4 → o.toNat % 4 = 0 →
      (∃ t, hostStep (.read size o) s = .next t) ∧ ∃ t, hostStep (.write size o v) s = .next t)

/-- R79: a host read changes nothing of the machine but what the host has read (the model's own fields,
logs 3 and 10). -/
def Obligations.ReadsHaveNoSideEffect : Prop :=
  ∀ (s t : State) (size : Nat) (o : BitVec 22), hostStep (.read size o) s = .next t →
    t = { s with readData := t.readData, draws := t.draws }

/-- R20 to R47: what every register but `STATUS` reads as when the core is not busy. The bits of `STATUS`
are StatusBits. -/
def Obligations.RegisterFileReads : Prop :=
  ∀ s : State, s.busy = false →
    ∀ e ∈ [(0x000#22, 0x50434C31#32), (0x004#22, if s.regs.decBypass then 0x10#32 else 0#32),
        (0x00C#22, s.cmd), (0x010#22, s.args[0]), (0x014#22, s.args[1]), (0x018#22, s.args[2]),
        (0x01C#22, s.args[3]), (0x020#22, s.args[4]), (0x024#22, s.args[5]), (0x028#22, s.args[6]),
        (0x02C#22, s.args[7]), (0x030#22, s.patlo), (0x034#22, s.pathi), (0x038#22, s.result0),
        (0x03C#22, s.result1), (0x040#22, s.irqEn.setWidth 32), (0x044#22, s.irqStatus.setWidth 32),
        (0x050#22, s.regs.minDur), (0x054#22, s.regs.maxDur),
        (0x058#22, BitVec.ofNat 32 (s.regs.tolPct.toNat + 256 * s.regs.tolStrict.toNat)),
        (0x05C#22, s.regs.minRun), (0x060#22, s.regs.lookback.setWidth 32),
        (0x064#22, s.regs.lookahead.setWidth 32), (0x068#22, s.regs.repCap.setWidth 32),
        (0x06C#22, s.regs.minClassCnt.setWidth 32), (0x070#22, s.regs.winBase),
        (0x074#22, s.regs.winLen), (0x080#22, s.runLen), (0x084#22, s.unitDur),
        (0x090#22, s.cls.low.s0.avg), (0x094#22, s.cls.low.s1.avg), (0x098#22, s.cls.low.s2.avg),
        (0x09C#22, s.cls.high.s0.avg), (0x0A0#22, s.cls.high.s1.avg), (0x0A4#22, s.cls.high.s2.avg),
        (0x0B0#22, s.cls.low.s0.cnt), (0x0B4#22, s.cls.low.s1.cnt), (0x0B8#22, s.cls.low.s2.cnt),
        (0x0BC#22, s.cls.high.s0.cnt), (0x0C0#22, s.cls.high.s1.cnt), (0x0C4#22, s.cls.high.s2.cnt),
        (0x0D0#22, s.best.len), (0x0D4#22, s.best.unit), (0x0D8#22, s.best.start),
        (0x0DC#22, s.best.wbits), (0x0E0#22, s.best.bitoff), (0x0E4#22, s.best.bitcnt),
        (0x0E8#22, s.best.widx), (0x0F0#22, s.scanCur), (0x0F4#22, s.decNbits), (0x0F8#22, 0#32),
        (0x0FC#22, s.decBitoff), (0x100#22, s.decBitcnt), (0x104#22, s.snapWidx),
        (0x108#22, BitVec.ofNat 32 s.params.pulseCap), (0x10C#22, BitVec.ofNat 32 s.params.bmemBytes),
        (0x110#22, 0#32), (0x114#22, if s.pushLvl then 1#32 else 0#32),
        (0x118#22, BitVec.ofNat 32 s.widx)],
      hostStep (.read 4 e.1) s = .next { s with readData := e.2 }

/-- R26, R211, R240: the bits of `STATUS`, read in any state. That `SCAN` and `DEC_WAIT` are functions of the
sequencer's phase, and not stored bits, is the model's deduction (log 9). -/
def Obligations.StatusBits : Prop :=
  ∀ s : State, ∃ w : Word, hostStep (.read 4 0x008#22) s = .next { s with readData := w } ∧
    w.getLsbD 0 = (s.pe.pending || decide (s.sq.phase ≠ .idle ∧ s.sq.phase ≠ .wait)) ∧
    w.getLsbD 1 = decide (s.sq.phase ≠ .idle) ∧ w.getLsbD 2 = decide (s.sq.phase = .wait) ∧
    w.getLsbD 3 = s.found ∧ w.getLsbD 4 = s.best.valid ∧ w.getLsbD 5 = s.best.decoded ∧
    w.extractLsb' 6 2 = 0#2 ∧ w.extractLsb' 8 8 = s.errCode ∧ w.extractLsb' 16 8 = s.lastOp ∧
    w.extractLsb' 24 8 = 0#8

/-- R50: while the core is busy, a read of a listed register or of an aperture word returns a draw, of
which nothing is known (that each such read draws afresh, and how draws are
numbered, is the model's choice, logs 20 and 3; so is that the BMEM word that straddles `BMEM_BYTES` is a
draw in all four lanes, log 23); every other register reads as it always does. -/
def Obligations.BusyReadsAreDraws : Prop :=
  ∀ (s : State) (o : BitVec 22), s.busy = true → o.toNat % 4 = 0 →
    ((o.toNat = 0x038 ∨ o.toNat = 0x03C ∨ o.toNat = 0x080 ∨ o.toNat = 0x084 ∨
        (0x090 ≤ o.toNat ∧ o.toNat ≤ 0x0A4) ∨ (0x0B0 ≤ o.toNat ∧ o.toNat ≤ 0x0C4) ∨
        (0x0D0 ≤ o.toNat ∧ o.toNat ≤ 0x0E8) ∨ o.toNat = 0x0F0 ∨ o.toNat = 0x0F4 ∨
        o.toNat = 0x104 ∨
        (0x100000 ≤ o.toNat ∧ o.toNat < 0x200000 ∧
          o.toNat < 0x100000 + 4 * ((s.params.bmemBytes + 3) / 4)) ∨
        (0x200000 ≤ o.toNat ∧ o.toNat < 0x300000 ∧ o.toNat < 0x200000 + 8 * s.params.pulseCap) ∨
        (0x300000 ≤ o.toNat ∧ o.toNat < 0x300000 + 8 * s.params.pulseCap)) →
      hostStep (.read 4 o) s =
        .next { s with readData := Config.busyRead s.draws, draws := s.draws + 1 }) ∧
    (o.toNat ≤ 0x034 ∨ o.toNat = 0x040 ∨ o.toNat = 0x044 ∨ (0x050 ≤ o.toNat ∧ o.toNat ≤ 0x074) ∨
        (0x0F8 ≤ o.toNat ∧ o.toNat ≤ 0x100) ∨ (0x108 ≤ o.toNat ∧ o.toNat ≤ 0x118) →
      ∃ r : Reg, r.offset = o.toNat ∧
        hostStep (.read 4 o) s = .next { s with readData := readReg s r })

/-- R52, R72: an unmapped offset reads 0 and ignores writes, with no other effect. -/
def Obligations.UnmappedOffsets : Prop :=
  ∀ (s : State) (o : BitVec 22) (v : Word), o.toNat % 4 = 0 →
    (o.toNat ∈ [0x048, 0x04C, 0x078, 0x07C, 0x088, 0x08C, 0x0A8, 0x0AC, 0x0C8, 0x0CC, 0x0EC] ∨
      (0x11C ≤ o.toNat ∧ o.toNat < 0x100000) ∨
      (0x100000 + 4 * ((s.params.bmemBytes + 3) / 4) ≤ o.toNat ∧ o.toNat < 0x200000) ∨
      (0x200000 + 8 * s.params.pulseCap ≤ o.toNat ∧ o.toNat < 0x300000) ∨
      0x300000 + 8 * s.params.pulseCap ≤ o.toNat) →
    hostStep (.read 4 o) s = .next { s with readData := 0#32 } ∧ hostStep (.write 4 o v) s = .next s

/-- R23, R24, R28, R30 to R38, R44, R46: what a write leaves in each register whose write only stores its
value (R79): bits that do not exist are dropped, and a `PCT` above 100 is stored as 100. Writes to `CTRL`,
`CMD`, `IRQ_STATUS`, `DEC_VERDICT` and `PUSH_DUR` do more and have their own statements. -/
def Obligations.RegisterWrites : Prop :=
  ∀ (s : State) (v : Word),
    (∀ n : Fin 8, hostStep (.write 4 (BitVec.ofNat 22 (0x010 + 4 * n.val)) v) s =
      .next { s with args := s.args.set n v }) ∧
    hostStep (.write 4 0x030#22 v) s = .next { s with patlo := v } ∧
    hostStep (.write 4 0x034#22 v) s = .next { s with pathi := v } ∧
    hostStep (.write 4 0x040#22 v) s = .next { s with irqEn := v.setWidth 5 } ∧
    hostStep (.write 4 0x050#22 v) s = .next { s with regs := { s.regs with minDur := v } } ∧
    hostStep (.write 4 0x054#22 v) s = .next { s with regs := { s.regs with maxDur := v } } ∧
    hostStep (.write 4 0x058#22 v) s = .next { s with regs := { s.regs with
      tolPct := BitVec.ofNat 7 (min (v.toNat % 128) 100), tolStrict := v.getLsbD 8 } } ∧
    hostStep (.write 4 0x05C#22 v) s = .next { s with regs := { s.regs with minRun := v } } ∧
    hostStep (.write 4 0x060#22 v) s = .next { s with regs := { s.regs with lookback := v.setWidth 16 } } ∧
    hostStep (.write 4 0x064#22 v) s = .next { s with regs := { s.regs with lookahead := v.setWidth 16 } } ∧
    hostStep (.write 4 0x068#22 v) s = .next { s with regs := { s.regs with repCap := v.setWidth 16 } } ∧
    hostStep (.write 4 0x06C#22 v) s = .next { s with regs := { s.regs with minClassCnt := v.setWidth 8 } } ∧
    hostStep (.write 4 0x070#22 v) s = .next { s with regs := { s.regs with winBase := v } } ∧
    hostStep (.write 4 0x074#22 v) s = .next { s with regs := { s.regs with winLen := v } } ∧
    hostStep (.write 4 0x0FC#22 v) s = .next { s with decBitoff := v } ∧
    hostStep (.write 4 0x100#22 v) s = .next { s with decBitcnt := v } ∧
    hostStep (.write 4 0x114#22 v) s = .next { s with pushLvl := v.getLsbD 0 }

/-- R22, R184, R225, R250: a `CTRL` write without `SOFT_RST` stores `DEC_BYPASS`; its action bits clear
the ring and the held best, and are refused with `OVR` while the core is busy or scanning. -/
def Obligations.CtrlActions : Prop :=
  ∀ (s : State) (v : Word), v.getLsbD 1 = false →
    (v.getLsbD 0 = false → v.getLsbD 2 = false →
      hostStep (.write 4 0x004#22 v) s =
        .next { s with regs := { s.regs with decBypass := v.getLsbD 4 } }) ∧
    (v.getLsbD 0 = true ∨ v.getLsbD 2 = true → s.busy = true ∨ s.scanning = true →
      hostStep (.write 4 0x004#22 v) s = .next { s with
        regs := { s.regs with decBypass := v.getLsbD 4 }, irqStatus := s.irqStatus ||| 0x10#5 }) ∧
    (v.getLsbD 0 = true ∨ v.getLsbD 2 = true → s.busy = false → s.scanning = false →
      ∃ r : List (Nat × Pulse),
        hostStep (.write 4 0x004#22 v) s = .next { s with
          regs := { s.regs with decBypass := v.getLsbD 4 }
          ring := r, widx := if v.getLsbD 2 then 0 else s.widx
          best := if v.getLsbD 0 then
              { valid := false, decoded := false, len := 0#32, unit := 0#32, start := 0#32
                wbits := 0#32, bitoff := 0#32, bitcnt := 0#32, widx := 0#32 }
            else s.best } ∧
        ∀ k, k < s.params.pulseCap → pulseRead .ring r k =
          if v.getLsbD 2 then { level := false, dur := 0#32 } else pulseRead .ring s.ring k)

/-- R271: a `CTRL` write with `SOFT_RST` is accepted in every state: every register but `RING_WIDX` reads
as after power-on, both engines are idle, and ring, write index and memories keep their contents. -/
def Obligations.SoftResetFromAnyState : Prop :=
  ∀ (s : State) (v : Word), v.getLsbD 1 = true →
    ∃ t, hostStep (.write 4 0x004#22 v) s = .next t ∧
      (∀ r : Reg, r ≠ .ringWidx →
        readReg t r = readReg (State.powerOn s.params.pulseCap s.params.bmemBytes) r) ∧
      t.params = s.params ∧ t.pe.pending = false ∧ t.sq.phase = .idle ∧ t.ring = s.ring ∧
      t.widx = s.widx ∧ t.bmem = s.bmem ∧ t.snap = s.snap ∧ t.det = s.det

/-- R73, R86: an aligned word of the BMEM aperture is four bytes, the lowest address in bits 7:0; a lane
past `BMEM_BYTES` reads 0 and ignores writes; a write while the core is busy only sets `OVR`. -/
def Obligations.BmemApertureWords : Prop :=
  ∀ (s : State) (a : Nat) (v : Word), ParamsLegal s.params → a % 4 = 0 →
    a < 4 * ((s.params.bmemBytes + 3) / 4) →
    (s.busy = true → hostStep (.write 4 (BitVec.ofNat 22 (0x100000 + a)) v) s =
      .next { s with irqStatus := s.irqStatus ||| 0x10#5 }) ∧
    (s.busy = false →
      (∃ m : List Host.Cell,
        hostStep (.write 4 (BitVec.ofNat 22 (0x100000 + a)) v) s = .next { s with bmem := m } ∧
        (∀ j, j < 4 → a + j < s.params.bmemBytes → memRead m (a + j) = v.extractLsb' (8 * j) 8) ∧
        ∀ b, ¬ (a ≤ b ∧ b < a + 4 ∧ b < s.params.bmemBytes) → memRead m b = memRead s.bmem b) ∧
      ∃ w : Word, hostStep (.read 4 (BitVec.ofNat 22 (0x100000 + a))) s =
          .next { s with readData := w } ∧
        ∀ j, j < 4 → w.extractLsb' (8 * j) 8 =
          if a + j < s.params.bmemBytes then memRead s.bmem (a + j) else 0#8)

/-- R75: the Snap and Det apertures show an entry's duration and level, and ignore writes. -/
def Obligations.PulseApertures : Prop :=
  ∀ (s : State) (j : Nat) (v : Word), ParamsLegal s.params → j < s.params.pulseCap →
    (s.busy = false →
      hostStep (.read 4 (BitVec.ofNat 22 (0x200000 + 8 * j))) s =
        .next { s with readData := (pulseRead .snap s.snap j).dur } ∧
      hostStep (.read 4 (BitVec.ofNat 22 (0x200004 + 8 * j))) s =
        .next { s with readData := if (pulseRead .snap s.snap j).level then 1#32 else 0#32 } ∧
      hostStep (.read 4 (BitVec.ofNat 22 (0x300000 + 8 * j))) s =
        .next { s with readData := (pulseRead .det s.det j).dur } ∧
      hostStep (.read 4 (BitVec.ofNat 22 (0x300004 + 8 * j))) s =
        .next { s with readData := if (pulseRead .det s.det j).level then 1#32 else 0#32 }) ∧
    ∀ o ∈ [0x200000 + 8 * j, 0x200004 + 8 * j, 0x300000 + 8 * j, 0x300004 + 8 * j],
      hostStep (.write 4 (BitVec.ofNat 22 o) v) s = .next s

/-- R247, R248, R28: a write of 1 clears an interrupt status bit and leaves the others; the output is
asserted iff some bit is set and enabled. -/
def Obligations.InterruptStatusAndOutput : Prop :=
  ∀ (s : State) (v : Word),
    (∃ q : BitVec 5, hostStep (.write 4 0x044#22 v) s = .next { s with irqStatus := q } ∧
      ∀ b, b < 5 → q.getLsbD b = (s.irqStatus.getLsbD b && !(v.getLsbD b))) ∧
    (s.irq = true ↔ ∃ b, b < 5 ∧ s.irqStatus.getLsbD b = true ∧ s.irqEn.getLsbD b = true)

/-- R20, R270: the reset column, read by the host right after power-on reset with any parameters.
`CFG_CAP`, `CFG_BMEM` and `WIN_LEN` read the parameters; which parameters `State.reset` has is log 1. -/
def Obligations.ResetColumn : Prop :=
  ∀ cap bytes : Nat,
    ∀ e ∈ [(0x000#22, 0x50434C31#32), (0x004#22, 0#32), (0x008#22, 0#32), (0x00C#22, 0#32),
        (0x010#22, 0#32), (0x014#22, 0#32), (0x018#22, 0#32), (0x01C#22, 0#32), (0x020#22, 0#32),
        (0x024#22, 0#32), (0x028#22, 0#32), (0x02C#22, 0#32), (0x030#22, 0#32), (0x034#22, 0#32),
        (0x038#22, 0#32), (0x03C#22, 0#32), (0x040#22, 0#32), (0x044#22, 0#32), (0x050#22, 0#32),
        (0x054#22, 0x00000FA0#32), (0x058#22, 0x00000014#32), (0x05C#22, 0x00000012#32),
        (0x060#22, 0x00000020#32), (0x064#22, 0x00000064#32), (0x068#22, 0x00000400#32),
        (0x06C#22, 0x00000003#32), (0x070#22, 0#32), (0x074#22, BitVec.ofNat 32 bytes),
        (0x080#22, 0#32), (0x084#22, 0#32), (0x090#22, 0#32), (0x094#22, 0#32), (0x098#22, 0#32),
        (0x09C#22, 0#32), (0x0A0#22, 0#32), (0x0A4#22, 0#32), (0x0B0#22, 0#32), (0x0B4#22, 0#32),
        (0x0B8#22, 0#32), (0x0BC#22, 0#32), (0x0C0#22, 0#32), (0x0C4#22, 0#32), (0x0D0#22, 0#32),
        (0x0D4#22, 0#32), (0x0D8#22, 0#32), (0x0DC#22, 0#32), (0x0E0#22, 0#32), (0x0E4#22, 0#32),
        (0x0E8#22, 0#32), (0x0F0#22, 0#32), (0x0F4#22, 0#32), (0x0F8#22, 0#32), (0x0FC#22, 0#32),
        (0x100#22, 0#32), (0x104#22, 0#32), (0x108#22, BitVec.ofNat 32 cap),
        (0x10C#22, BitVec.ofNat 32 bytes), (0x110#22, 0#32), (0x114#22, 0#32), (0x118#22, 0#32)],
      hostStep (.read 4 e.1) (State.powerOn cap bytes) =
        .next { State.powerOn cap bytes with readData := e.2 }

/-- R21: `ID` always reads `0x50434C31`. R20: a write to a read-only register is ignored, whatever the
engines do. -/
def Obligations.ReadOnlyRegistersIgnoreWrites : Prop :=
  ∀ (s : State) (v : Word),
    hostStep (.read 4 0x000#22) s = .next { s with readData := 0x50434C31#32 } ∧
      ∀ o ∈ [0x000#22, 0x008#22, 0x038#22, 0x03C#22, 0x080#22, 0x084#22, 0x090#22, 0x094#22, 0x098#22,
          0x09C#22, 0x0A0#22, 0x0A4#22, 0x0B0#22, 0x0B4#22, 0x0B8#22, 0x0BC#22, 0x0C0#22, 0x0C4#22,
          0x0D0#22, 0x0D4#22, 0x0D8#22, 0x0DC#22, 0x0E0#22, 0x0E4#22, 0x0E8#22, 0x0F0#22, 0x0F4#22,
          0x104#22, 0x108#22, 0x10C#22, 0x118#22],
        hostStep (.write 4 o v) s = .next s
end

