-- ==== Sys2Proof/Laws/Memory.lean ====
section
/-!
SUPPORT. Sys2Proof/Laws/Memory.lean: the laws of the memories: read after write, and every memory operation
keeps the canonical form.
-/

namespace Sys2Proof.Machine

variable {α : Type}

@[simp] theorem Memory.find_nil (a : Nat) : Memory.find ([] : List (Nat × α)) a = none := rfl

@[simp] theorem Memory.find_store_self (m : List (Nat × α)) (a : Nat) (v : α) :
    Memory.find (Memory.store m a v) a = some v := by
  induction m with
  | nil => simp [Memory.store, Memory.find]
  | cons c rest ih =>
    obtain ⟨b, x⟩ := c
    simp only [Memory.store]
    split
    · simp [Memory.find]
    · split
      · simp [Memory.find]
      · rename_i h
        simp [Memory.find, Ne.symm h, ih]

theorem Memory.find_store_other (m : List (Nat × α)) {a b : Nat} (v : α) (h : b ≠ a) :
    Memory.find (Memory.store m a v) b = Memory.find m b := by
  induction m with
  | nil => simp [Memory.store, Memory.find, Ne.symm h]
  | cons c rest ih =>
    obtain ⟨k, x⟩ := c
    simp only [Memory.store]
    split
    · simp [Memory.find, Ne.symm h]
    · split
      · rename_i hk
        subst hk
        simp [Memory.find, Ne.symm h]
      · simp [Memory.find, ih]

theorem Memory.mem_store_keys (m : List (Nat × α)) (a : Nat) (v : α) (k : Nat)
    (h : k ∈ (Memory.store m a v).map Prod.fst) : k = a ∨ k ∈ m.map Prod.fst := by
  induction m with
  | nil => simpa [Memory.store] using h
  | cons c rest ih =>
    obtain ⟨b, x⟩ := c
    simp only [Memory.store] at h
    split at h
    · simpa using h
    · split at h
      · simp only [List.map_cons, List.mem_cons] at h ⊢
        tauto
      · simp only [List.map_cons, List.mem_cons] at h ⊢
        rcases h with h | h
        · exact .inr (.inl h)
        · exact (ih h).imp_right .inr

/-- A write keeps the canonical form. -/
theorem Memory.wf_store {size : Nat} {m : List (Nat × α)} (hm : Memory.wf size m) {a : Nat}
    (ha : a < size) (v : α) : Memory.wf size (Memory.store m a v) := by
  refine ⟨?_, fun k hk => ?_⟩
  · obtain ⟨hp, -⟩ := hm
    induction m with
    | nil => simp [Memory.store]
    | cons c rest ih =>
      obtain ⟨b, x⟩ := c
      simp only [List.map_cons, List.pairwise_cons] at hp
      simp only [Memory.store]
      split
      · rename_i hab
        simp only [List.map_cons, List.pairwise_cons]
        refine ⟨fun k hk => ?_, hp⟩
        rcases List.mem_cons.1 hk with rfl | hk
        · exact hab
        · exact hab.trans (hp.1 k hk)
      · split
        · rename_i hab
          subst hab
          simpa using hp
        · rename_i h1 h2
          simp only [List.map_cons, List.pairwise_cons]
          refine ⟨fun k hk => ?_, ih hp.2⟩
          rcases Memory.mem_store_keys rest a v k hk with rfl | hk
          · omega
          · exact hp.1 k hk
  · rcases Memory.mem_store_keys m a v k hk with rfl | hk
    · exact ha
    · exact hm.2 k hk

@[simp] theorem Memory.wf_nil (size : Nat) : Memory.wf size ([] : List (Nat × α)) := by
  simp [Memory.wf]

/-- A table of all entries is in the canonical form. -/
theorem Memory.wf_tabulate (size : Nat) (f : Nat → α) : Memory.wf size (Memory.tabulate size f) := by
  have h : (Memory.tabulate size f).map Prod.fst = List.range size := by
    simp [Memory.tabulate, List.map_map, Function.comp_def]
  rw [Memory.wf, h]
  exact ⟨List.pairwise_lt_range, fun a ha => List.mem_range.1 ha⟩

theorem Memory.find_map_pair (l : List Nat) (f : Nat → α) (k : Nat) :
    Memory.find (l.map fun j => (j, f j)) k = if k ∈ l then some (f k) else none := by
  induction l with
  | nil => rfl
  | cons j l ih =>
    by_cases h : j = k
    · subst h
      simp [Memory.find]
    · simp [Memory.find, h, ih, Ne.symm h]

@[simp] theorem Memory.find_tabulate (size : Nat) (f : Nat → α) (k : Nat) :
    Memory.find (Memory.tabulate size f) k = if k < size then some (f k) else none := by
  simp [Memory.tabulate, Memory.find_map_pair]

@[simp] theorem memRead_memWrite_self (m : List Host.Cell) (a : Nat) (v : Byte) :
    memRead (memWrite m a v) a = v := by
  simp [memRead, memWrite]

theorem memRead_memWrite_other (m : List Host.Cell) {a b : Nat} (v : Byte) (h : b ≠ a) :
    memRead (memWrite m a v) b = memRead m b := by
  simp [memRead, memWrite, Memory.find_store_other m v h]

theorem memRead_memWrite (m : List Host.Cell) (a b : Nat) (v : Byte) :
    memRead (memWrite m a v) b = if b = a then v else memRead m b := by
  by_cases h : b = a
  · simp [h]
  · simp [h, memRead_memWrite_other m v h]

theorem memWrite_wf {size : Nat} {m : List Host.Cell} (hm : Memory.wf size m) {a : Nat}
    (ha : a < size) (v : Byte) : Memory.wf size (memWrite m a v) :=
  Memory.wf_store hm ha v

/-- A bit write touches at most the byte that holds the position. -/
theorem memRead_bset_other (m : List Host.Cell) (d : Desc) (p : Nat) (v : Bool) {a : Nat}
    (h : ¬ (p < d.bits ∧ a = d.base + p / 8)) : memRead (bset m d p v) a = memRead m a := by
  unfold bset
  split
  · rename_i hp
    exact memRead_memWrite_other m _ fun ha => h ⟨hp, ha⟩
  · rfl

/-- A bit write inside a buffer in range keeps the canonical form. -/
theorem bset_wf {size : Nat} {m : List Host.Cell} (hm : Memory.wf size m) {d : Desc}
    (hd : d.inRange size = true) (p : Nat) (v : Bool) : Memory.wf size (bset m d p v) := by
  unfold bset
  split
  · rename_i hp
    refine memWrite_wf hm ?_ _
    simp only [Desc.inRange, decide_eq_true_eq, Desc.bits] at hd hp
    omega
  · exact hm

theorem fillBytes_wf {size : Nat} (v : Byte) (n : Nat) : ∀ (base : Nat) {m : List Host.Cell},
    Memory.wf size m → base + n ≤ size → Memory.wf size (fillBytes v base n m) := by
  induction n with
  | zero => intro _ m hm _; exact hm
  | succ n ih =>
    intro base m hm h
    exact ih (base + 1) (memWrite_wf hm (by omega) v) (by omega)

theorem reverseBytes_wf {size : Nat} (n : Nat) : ∀ (base : Nat) {m : List Host.Cell},
    Memory.wf size m → base + n ≤ size → Memory.wf size (reverseBytes base n m) := by
  induction n with
  | zero => intro _ m hm _; exact hm
  | succ n ih =>
    intro base m hm h
    exact ih (base + 1) (memWrite_wf hm (by omega) _) (by omega)

theorem copyBits_wf {size : Nat} {dst : Desc} (src : Desc) (hd : dst.inRange size = true) (n : Nat) :
    ∀ (doff soff : Nat) {m : List Host.Cell}, Memory.wf size m →
      Memory.wf size (copyBits dst src doff soff n m) := by
  induction n with
  | zero => intro _ _ m hm; exact hm
  | succ n ih =>
    intro doff soff m hm
    exact ih _ _ (bset_wf hm hd _ _)

theorem emitBits_wf {size : Nat} {out : Desc} (hd : out.inRange size = true) (v : Bool) (n : Nat) :
    ∀ (pos : Nat) {m : List Host.Cell}, Memory.wf size m →
      Memory.wf size (emitBits out v pos n m) := by
  induction n with
  | zero => intro _ m hm; exact hm
  | succ n ih =>
    intro pos m hm
    exact ih _ (bset_wf hm hd _ _)

theorem toBits_wf {size : Nat} {out : Desc} (hd : out.inRange size = true) (repCap : Nat)
    (pulse : Nat → Pulse) (start count u : Nat) {m : List Host.Cell} (hm : Memory.wf size m) :
    Memory.wf size (toBits repCap pulse start count u out m).1 := by
  have loop : ∀ (count k pos : Nat) (m : List Host.Cell), Memory.wf size m →
      Memory.wf size (toBitsLoop repCap u pulse out k count pos m).1 := by
    intro count
    induction count with
    | zero => intro _ _ m hm; exact hm
    | succ n ih => intro k pos m hm; exact ih _ _ _ (emitBits_wf hd _ _ _ hm)
  unfold toBits
  split
  · exact hm
  · exact loop _ _ _ _ hm

theorem writeLane_wf {size : Nat} {m : List Host.Cell} (hm : Memory.wf size m) (a : Nat) (v : Byte) :
    Memory.wf size (writeLane size m a v) := by
  unfold writeLane
  split
  · exact memWrite_wf hm ‹_› v
  · exact hm

theorem writeWord_wf {size : Nat} {m : List Host.Cell} (hm : Memory.wf size m) (a : Nat) (v : Word) :
    Memory.wf size (writeWord size m a v) :=
  writeLane_wf (writeLane_wf (writeLane_wf (writeLane_wf hm _ _) _ _) _ _) _ _

/-- The memories right after power-on are in the canonical form. -/
theorem powerOn_memories_wf (cap bytes : Nat) :
    Memory.wf bytes (State.powerOn cap bytes).bmem ∧ Memory.wf cap (State.powerOn cap bytes).ring ∧
      Memory.wf cap (State.powerOn cap bytes).snap ∧ Memory.wf cap (State.powerOn cap bytes).det :=
  ⟨Memory.wf_nil _, Memory.wf_nil _, Memory.wf_nil _, Memory.wf_nil _⟩

/-- The memories of the reset state are in the canonical form. -/
theorem reset_memories_wf :
    Memory.wf State.reset.params.bmemBytes State.reset.bmem ∧
      Memory.wf State.reset.params.pulseCap State.reset.ring ∧
      Memory.wf State.reset.params.pulseCap State.reset.snap ∧
      Memory.wf State.reset.params.pulseCap State.reset.det :=
  powerOn_memories_wf _ _

end Sys2Proof.Machine
end

