-- ==== Sys2Proof/Laws/LineCode.lean ====
section
/-!
SUPPORT. Sys2Proof/Laws/LineCode.lean: the line-code decoders keep the canonical form of BMEM.
-/

namespace Sys2Proof.Machine

theorem manchester_wf {size : Nat} {out : Desc} (hd : out.inRange size = true) (inp : Desc)
    (zero one : Nat → Bool) (zlen olen start : Nat) {m : List Host.Cell} (hm : Memory.wf size m) :
    Memory.wf size (manchester m inp out start zero one zlen olen).bmem := by
  have loop : ∀ (fuel : Nat) (r : Decoded), Memory.wf size r.bmem →
      Memory.wf size (manchesterLoop inp out zero one zlen olen fuel r).bmem := by
    intro fuel
    induction fuel with
    | zero => intro r hr; exact hr
    | succ n ih =>
      intro r hr
      unfold manchesterLoop
      split
      · split
        · exact ih _ (bset_wf hr hd _ _)
        · split
          · exact ih _ (bset_wf hr hd _ _)
          · exact hr
      · exact hr
  exact loop _ _ hm

theorem diffManchester_wf {size : Nat} {out : Desc} (hd : out.inRange size = true) (inp : Desc)
    (start maxBits : Nat) {m : List Host.Cell} (hm : Memory.wf size m) :
    Memory.wf size (diffManchester m inp out start maxBits).bmem := by
  have loop : ∀ (n : Nat) (b : Bool) (r : Decoded), Memory.wf size r.bmem →
      Memory.wf size (diffmLoop inp out n b r).bmem := by
    intro n
    induction n with
    | zero => intro b r hr; exact hr
    | succ n ih =>
      intro b r hr
      unfold diffmLoop
      split
      · split
        · exact hr
        · exact ih _ _ (bset_wf hr hd _ _)
      · exact hr
  unfold diffManchester
  split
  · exact loop _ _ _ hm
  · exact hm

end Sys2Proof.Machine
end

