-- ==== Sys2Proof/Laws/State.lean ====
section
/-!
SUPPORT. Sys2Proof/Laws/State.lean: what each named update of the machine leaves in each field, by
definition, so that no proof unfolds a record update.
-/

namespace Sys2Proof.Machine

variable (s : State)

@[simp] theorem State.setResult0_params (v : Word) : (s.setResult0 v).params = s.params := rfl
@[simp] theorem State.setResult0_cmd (v : Word) : (s.setResult0 v).cmd = s.cmd := rfl
@[simp] theorem State.setResult0_args (v : Word) : (s.setResult0 v).args = s.args := rfl
@[simp] theorem State.setResult0_patlo (v : Word) : (s.setResult0 v).patlo = s.patlo := rfl
@[simp] theorem State.setResult0_pathi (v : Word) : (s.setResult0 v).pathi = s.pathi := rfl
@[simp] theorem State.setResult0_result0 (v : Word) : (s.setResult0 v).result0 = v := rfl
@[simp] theorem State.setResult0_result1 (v : Word) : (s.setResult0 v).result1 = s.result1 := rfl
@[simp] theorem State.setResult0_irqEn (v : Word) : (s.setResult0 v).irqEn = s.irqEn := rfl
@[simp] theorem State.setResult0_irqStatus (v : Word) : (s.setResult0 v).irqStatus = s.irqStatus := rfl
@[simp] theorem State.setResult0_regs (v : Word) : (s.setResult0 v).regs = s.regs := rfl
@[simp] theorem State.setResult0_found (v : Word) : (s.setResult0 v).found = s.found := rfl
@[simp] theorem State.setResult0_errCode (v : Word) : (s.setResult0 v).errCode = s.errCode := rfl
@[simp] theorem State.setResult0_lastOp (v : Word) : (s.setResult0 v).lastOp = s.lastOp := rfl
@[simp] theorem State.setResult0_runLen (v : Word) : (s.setResult0 v).runLen = s.runLen := rfl
@[simp] theorem State.setResult0_unitDur (v : Word) : (s.setResult0 v).unitDur = s.unitDur := rfl
@[simp] theorem State.setResult0_cls (v : Word) : (s.setResult0 v).cls = s.cls := rfl
@[simp] theorem State.setResult0_best (v : Word) : (s.setResult0 v).best = s.best := rfl
@[simp] theorem State.setResult0_scanCur (v : Word) : (s.setResult0 v).scanCur = s.scanCur := rfl
@[simp] theorem State.setResult0_decNbits (v : Word) : (s.setResult0 v).decNbits = s.decNbits := rfl
@[simp] theorem State.setResult0_decBitoff (v : Word) : (s.setResult0 v).decBitoff = s.decBitoff := rfl
@[simp] theorem State.setResult0_decBitcnt (v : Word) : (s.setResult0 v).decBitcnt = s.decBitcnt := rfl
@[simp] theorem State.setResult0_snapWidx (v : Word) : (s.setResult0 v).snapWidx = s.snapWidx := rfl
@[simp] theorem State.setResult0_pushLvl (v : Word) : (s.setResult0 v).pushLvl = s.pushLvl := rfl
@[simp] theorem State.setResult0_bmem (v : Word) : (s.setResult0 v).bmem = s.bmem := rfl
@[simp] theorem State.setResult0_ring (v : Word) : (s.setResult0 v).ring = s.ring := rfl
@[simp] theorem State.setResult0_snap (v : Word) : (s.setResult0 v).snap = s.snap := rfl
@[simp] theorem State.setResult0_det (v : Word) : (s.setResult0 v).det = s.det := rfl
@[simp] theorem State.setResult0_widx (v : Word) : (s.setResult0 v).widx = s.widx := rfl
@[simp] theorem State.setResult0_pe (v : Word) : (s.setResult0 v).pe = s.pe := rfl
@[simp] theorem State.setResult0_sq (v : Word) : (s.setResult0 v).sq = s.sq := rfl
@[simp] theorem State.setResult0_schedule (v : Word) : (s.setResult0 v).schedule = s.schedule := rfl
@[simp] theorem State.setResult0_readData (v : Word) : (s.setResult0 v).readData = s.readData := rfl
@[simp] theorem State.setResult0_draws (v : Word) : (s.setResult0 v).draws = s.draws := rfl

@[simp] theorem State.setResult1_params (v : Word) : (s.setResult1 v).params = s.params := rfl
@[simp] theorem State.setResult1_cmd (v : Word) : (s.setResult1 v).cmd = s.cmd := rfl
@[simp] theorem State.setResult1_args (v : Word) : (s.setResult1 v).args = s.args := rfl
@[simp] theorem State.setResult1_patlo (v : Word) : (s.setResult1 v).patlo = s.patlo := rfl
@[simp] theorem State.setResult1_pathi (v : Word) : (s.setResult1 v).pathi = s.pathi := rfl
@[simp] theorem State.setResult1_result0 (v : Word) : (s.setResult1 v).result0 = s.result0 := rfl
@[simp] theorem State.setResult1_result1 (v : Word) : (s.setResult1 v).result1 = v := rfl
@[simp] theorem State.setResult1_irqEn (v : Word) : (s.setResult1 v).irqEn = s.irqEn := rfl
@[simp] theorem State.setResult1_irqStatus (v : Word) : (s.setResult1 v).irqStatus = s.irqStatus := rfl
@[simp] theorem State.setResult1_regs (v : Word) : (s.setResult1 v).regs = s.regs := rfl
@[simp] theorem State.setResult1_found (v : Word) : (s.setResult1 v).found = s.found := rfl
@[simp] theorem State.setResult1_errCode (v : Word) : (s.setResult1 v).errCode = s.errCode := rfl
@[simp] theorem State.setResult1_lastOp (v : Word) : (s.setResult1 v).lastOp = s.lastOp := rfl
@[simp] theorem State.setResult1_runLen (v : Word) : (s.setResult1 v).runLen = s.runLen := rfl
@[simp] theorem State.setResult1_unitDur (v : Word) : (s.setResult1 v).unitDur = s.unitDur := rfl
@[simp] theorem State.setResult1_cls (v : Word) : (s.setResult1 v).cls = s.cls := rfl
@[simp] theorem State.setResult1_best (v : Word) : (s.setResult1 v).best = s.best := rfl
@[simp] theorem State.setResult1_scanCur (v : Word) : (s.setResult1 v).scanCur = s.scanCur := rfl
@[simp] theorem State.setResult1_decNbits (v : Word) : (s.setResult1 v).decNbits = s.decNbits := rfl
@[simp] theorem State.setResult1_decBitoff (v : Word) : (s.setResult1 v).decBitoff = s.decBitoff := rfl
@[simp] theorem State.setResult1_decBitcnt (v : Word) : (s.setResult1 v).decBitcnt = s.decBitcnt := rfl
@[simp] theorem State.setResult1_snapWidx (v : Word) : (s.setResult1 v).snapWidx = s.snapWidx := rfl
@[simp] theorem State.setResult1_pushLvl (v : Word) : (s.setResult1 v).pushLvl = s.pushLvl := rfl
@[simp] theorem State.setResult1_bmem (v : Word) : (s.setResult1 v).bmem = s.bmem := rfl
@[simp] theorem State.setResult1_ring (v : Word) : (s.setResult1 v).ring = s.ring := rfl
@[simp] theorem State.setResult1_snap (v : Word) : (s.setResult1 v).snap = s.snap := rfl
@[simp] theorem State.setResult1_det (v : Word) : (s.setResult1 v).det = s.det := rfl
@[simp] theorem State.setResult1_widx (v : Word) : (s.setResult1 v).widx = s.widx := rfl
@[simp] theorem State.setResult1_pe (v : Word) : (s.setResult1 v).pe = s.pe := rfl
@[simp] theorem State.setResult1_sq (v : Word) : (s.setResult1 v).sq = s.sq := rfl
@[simp] theorem State.setResult1_schedule (v : Word) : (s.setResult1 v).schedule = s.schedule := rfl
@[simp] theorem State.setResult1_readData (v : Word) : (s.setResult1 v).readData = s.readData := rfl
@[simp] theorem State.setResult1_draws (v : Word) : (s.setResult1 v).draws = s.draws := rfl

@[simp] theorem State.setFound_params (b : Bool) : (s.setFound b).params = s.params := rfl
@[simp] theorem State.setFound_cmd (b : Bool) : (s.setFound b).cmd = s.cmd := rfl
@[simp] theorem State.setFound_args (b : Bool) : (s.setFound b).args = s.args := rfl
@[simp] theorem State.setFound_patlo (b : Bool) : (s.setFound b).patlo = s.patlo := rfl
@[simp] theorem State.setFound_pathi (b : Bool) : (s.setFound b).pathi = s.pathi := rfl
@[simp] theorem State.setFound_result0 (b : Bool) : (s.setFound b).result0 = s.result0 := rfl
@[simp] theorem State.setFound_result1 (b : Bool) : (s.setFound b).result1 = s.result1 := rfl
@[simp] theorem State.setFound_irqEn (b : Bool) : (s.setFound b).irqEn = s.irqEn := rfl
@[simp] theorem State.setFound_irqStatus (b : Bool) : (s.setFound b).irqStatus = s.irqStatus := rfl
@[simp] theorem State.setFound_regs (b : Bool) : (s.setFound b).regs = s.regs := rfl
@[simp] theorem State.setFound_found (b : Bool) : (s.setFound b).found = b := rfl
@[simp] theorem State.setFound_errCode (b : Bool) : (s.setFound b).errCode = s.errCode := rfl
@[simp] theorem State.setFound_lastOp (b : Bool) : (s.setFound b).lastOp = s.lastOp := rfl
@[simp] theorem State.setFound_runLen (b : Bool) : (s.setFound b).runLen = s.runLen := rfl
@[simp] theorem State.setFound_unitDur (b : Bool) : (s.setFound b).unitDur = s.unitDur := rfl
@[simp] theorem State.setFound_cls (b : Bool) : (s.setFound b).cls = s.cls := rfl
@[simp] theorem State.setFound_best (b : Bool) : (s.setFound b).best = s.best := rfl
@[simp] theorem State.setFound_scanCur (b : Bool) : (s.setFound b).scanCur = s.scanCur := rfl
@[simp] theorem State.setFound_decNbits (b : Bool) : (s.setFound b).decNbits = s.decNbits := rfl
@[simp] theorem State.setFound_decBitoff (b : Bool) : (s.setFound b).decBitoff = s.decBitoff := rfl
@[simp] theorem State.setFound_decBitcnt (b : Bool) : (s.setFound b).decBitcnt = s.decBitcnt := rfl
@[simp] theorem State.setFound_snapWidx (b : Bool) : (s.setFound b).snapWidx = s.snapWidx := rfl
@[simp] theorem State.setFound_pushLvl (b : Bool) : (s.setFound b).pushLvl = s.pushLvl := rfl
@[simp] theorem State.setFound_bmem (b : Bool) : (s.setFound b).bmem = s.bmem := rfl
@[simp] theorem State.setFound_ring (b : Bool) : (s.setFound b).ring = s.ring := rfl
@[simp] theorem State.setFound_snap (b : Bool) : (s.setFound b).snap = s.snap := rfl
@[simp] theorem State.setFound_det (b : Bool) : (s.setFound b).det = s.det := rfl
@[simp] theorem State.setFound_widx (b : Bool) : (s.setFound b).widx = s.widx := rfl
@[simp] theorem State.setFound_pe (b : Bool) : (s.setFound b).pe = s.pe := rfl
@[simp] theorem State.setFound_sq (b : Bool) : (s.setFound b).sq = s.sq := rfl
@[simp] theorem State.setFound_schedule (b : Bool) : (s.setFound b).schedule = s.schedule := rfl
@[simp] theorem State.setFound_readData (b : Bool) : (s.setFound b).readData = s.readData := rfl
@[simp] theorem State.setFound_draws (b : Bool) : (s.setFound b).draws = s.draws := rfl

@[simp] theorem State.setBmem_params (m : List Host.Cell) : (s.setBmem m).params = s.params := rfl
@[simp] theorem State.setBmem_cmd (m : List Host.Cell) : (s.setBmem m).cmd = s.cmd := rfl
@[simp] theorem State.setBmem_args (m : List Host.Cell) : (s.setBmem m).args = s.args := rfl
@[simp] theorem State.setBmem_patlo (m : List Host.Cell) : (s.setBmem m).patlo = s.patlo := rfl
@[simp] theorem State.setBmem_pathi (m : List Host.Cell) : (s.setBmem m).pathi = s.pathi := rfl
@[simp] theorem State.setBmem_result0 (m : List Host.Cell) : (s.setBmem m).result0 = s.result0 := rfl
@[simp] theorem State.setBmem_result1 (m : List Host.Cell) : (s.setBmem m).result1 = s.result1 := rfl
@[simp] theorem State.setBmem_irqEn (m : List Host.Cell) : (s.setBmem m).irqEn = s.irqEn := rfl
@[simp] theorem State.setBmem_irqStatus (m : List Host.Cell) : (s.setBmem m).irqStatus = s.irqStatus := rfl
@[simp] theorem State.setBmem_regs (m : List Host.Cell) : (s.setBmem m).regs = s.regs := rfl
@[simp] theorem State.setBmem_found (m : List Host.Cell) : (s.setBmem m).found = s.found := rfl
@[simp] theorem State.setBmem_errCode (m : List Host.Cell) : (s.setBmem m).errCode = s.errCode := rfl
@[simp] theorem State.setBmem_lastOp (m : List Host.Cell) : (s.setBmem m).lastOp = s.lastOp := rfl
@[simp] theorem State.setBmem_runLen (m : List Host.Cell) : (s.setBmem m).runLen = s.runLen := rfl
@[simp] theorem State.setBmem_unitDur (m : List Host.Cell) : (s.setBmem m).unitDur = s.unitDur := rfl
@[simp] theorem State.setBmem_cls (m : List Host.Cell) : (s.setBmem m).cls = s.cls := rfl
@[simp] theorem State.setBmem_best (m : List Host.Cell) : (s.setBmem m).best = s.best := rfl
@[simp] theorem State.setBmem_scanCur (m : List Host.Cell) : (s.setBmem m).scanCur = s.scanCur := rfl
@[simp] theorem State.setBmem_decNbits (m : List Host.Cell) : (s.setBmem m).decNbits = s.decNbits := rfl
@[simp] theorem State.setBmem_decBitoff (m : List Host.Cell) : (s.setBmem m).decBitoff = s.decBitoff := rfl
@[simp] theorem State.setBmem_decBitcnt (m : List Host.Cell) : (s.setBmem m).decBitcnt = s.decBitcnt := rfl
@[simp] theorem State.setBmem_snapWidx (m : List Host.Cell) : (s.setBmem m).snapWidx = s.snapWidx := rfl
@[simp] theorem State.setBmem_pushLvl (m : List Host.Cell) : (s.setBmem m).pushLvl = s.pushLvl := rfl
@[simp] theorem State.setBmem_bmem (m : List Host.Cell) : (s.setBmem m).bmem = m := rfl
@[simp] theorem State.setBmem_ring (m : List Host.Cell) : (s.setBmem m).ring = s.ring := rfl
@[simp] theorem State.setBmem_snap (m : List Host.Cell) : (s.setBmem m).snap = s.snap := rfl
@[simp] theorem State.setBmem_det (m : List Host.Cell) : (s.setBmem m).det = s.det := rfl
@[simp] theorem State.setBmem_widx (m : List Host.Cell) : (s.setBmem m).widx = s.widx := rfl
@[simp] theorem State.setBmem_pe (m : List Host.Cell) : (s.setBmem m).pe = s.pe := rfl
@[simp] theorem State.setBmem_sq (m : List Host.Cell) : (s.setBmem m).sq = s.sq := rfl
@[simp] theorem State.setBmem_schedule (m : List Host.Cell) : (s.setBmem m).schedule = s.schedule := rfl
@[simp] theorem State.setBmem_readData (m : List Host.Cell) : (s.setBmem m).readData = s.readData := rfl
@[simp] theorem State.setBmem_draws (m : List Host.Cell) : (s.setBmem m).draws = s.draws := rfl

@[simp] theorem State.setSq_params (q : SqState) : (s.setSq q).params = s.params := rfl
@[simp] theorem State.setSq_cmd (q : SqState) : (s.setSq q).cmd = s.cmd := rfl
@[simp] theorem State.setSq_args (q : SqState) : (s.setSq q).args = s.args := rfl
@[simp] theorem State.setSq_patlo (q : SqState) : (s.setSq q).patlo = s.patlo := rfl
@[simp] theorem State.setSq_pathi (q : SqState) : (s.setSq q).pathi = s.pathi := rfl
@[simp] theorem State.setSq_result0 (q : SqState) : (s.setSq q).result0 = s.result0 := rfl
@[simp] theorem State.setSq_result1 (q : SqState) : (s.setSq q).result1 = s.result1 := rfl
@[simp] theorem State.setSq_irqEn (q : SqState) : (s.setSq q).irqEn = s.irqEn := rfl
@[simp] theorem State.setSq_irqStatus (q : SqState) : (s.setSq q).irqStatus = s.irqStatus := rfl
@[simp] theorem State.setSq_regs (q : SqState) : (s.setSq q).regs = s.regs := rfl
@[simp] theorem State.setSq_found (q : SqState) : (s.setSq q).found = s.found := rfl
@[simp] theorem State.setSq_errCode (q : SqState) : (s.setSq q).errCode = s.errCode := rfl
@[simp] theorem State.setSq_lastOp (q : SqState) : (s.setSq q).lastOp = s.lastOp := rfl
@[simp] theorem State.setSq_runLen (q : SqState) : (s.setSq q).runLen = s.runLen := rfl
@[simp] theorem State.setSq_unitDur (q : SqState) : (s.setSq q).unitDur = s.unitDur := rfl
@[simp] theorem State.setSq_cls (q : SqState) : (s.setSq q).cls = s.cls := rfl
@[simp] theorem State.setSq_best (q : SqState) : (s.setSq q).best = s.best := rfl
@[simp] theorem State.setSq_scanCur (q : SqState) : (s.setSq q).scanCur = s.scanCur := rfl
@[simp] theorem State.setSq_decNbits (q : SqState) : (s.setSq q).decNbits = s.decNbits := rfl
@[simp] theorem State.setSq_decBitoff (q : SqState) : (s.setSq q).decBitoff = s.decBitoff := rfl
@[simp] theorem State.setSq_decBitcnt (q : SqState) : (s.setSq q).decBitcnt = s.decBitcnt := rfl
@[simp] theorem State.setSq_snapWidx (q : SqState) : (s.setSq q).snapWidx = s.snapWidx := rfl
@[simp] theorem State.setSq_pushLvl (q : SqState) : (s.setSq q).pushLvl = s.pushLvl := rfl
@[simp] theorem State.setSq_bmem (q : SqState) : (s.setSq q).bmem = s.bmem := rfl
@[simp] theorem State.setSq_ring (q : SqState) : (s.setSq q).ring = s.ring := rfl
@[simp] theorem State.setSq_snap (q : SqState) : (s.setSq q).snap = s.snap := rfl
@[simp] theorem State.setSq_det (q : SqState) : (s.setSq q).det = s.det := rfl
@[simp] theorem State.setSq_widx (q : SqState) : (s.setSq q).widx = s.widx := rfl
@[simp] theorem State.setSq_pe (q : SqState) : (s.setSq q).pe = s.pe := rfl
@[simp] theorem State.setSq_sq (q : SqState) : (s.setSq q).sq = q := rfl
@[simp] theorem State.setSq_schedule (q : SqState) : (s.setSq q).schedule = s.schedule := rfl
@[simp] theorem State.setSq_readData (q : SqState) : (s.setSq q).readData = s.readData := rfl
@[simp] theorem State.setSq_draws (q : SqState) : (s.setSq q).draws = s.draws := rfl

@[simp] theorem State.setScanCur_params (i : Nat) : (s.setScanCur i).params = s.params := rfl
@[simp] theorem State.setScanCur_cmd (i : Nat) : (s.setScanCur i).cmd = s.cmd := rfl
@[simp] theorem State.setScanCur_args (i : Nat) : (s.setScanCur i).args = s.args := rfl
@[simp] theorem State.setScanCur_patlo (i : Nat) : (s.setScanCur i).patlo = s.patlo := rfl
@[simp] theorem State.setScanCur_pathi (i : Nat) : (s.setScanCur i).pathi = s.pathi := rfl
@[simp] theorem State.setScanCur_result0 (i : Nat) : (s.setScanCur i).result0 = s.result0 := rfl
@[simp] theorem State.setScanCur_result1 (i : Nat) : (s.setScanCur i).result1 = s.result1 := rfl
@[simp] theorem State.setScanCur_irqEn (i : Nat) : (s.setScanCur i).irqEn = s.irqEn := rfl
@[simp] theorem State.setScanCur_irqStatus (i : Nat) : (s.setScanCur i).irqStatus = s.irqStatus := rfl
@[simp] theorem State.setScanCur_regs (i : Nat) : (s.setScanCur i).regs = s.regs := rfl
@[simp] theorem State.setScanCur_found (i : Nat) : (s.setScanCur i).found = s.found := rfl
@[simp] theorem State.setScanCur_errCode (i : Nat) : (s.setScanCur i).errCode = s.errCode := rfl
@[simp] theorem State.setScanCur_lastOp (i : Nat) : (s.setScanCur i).lastOp = s.lastOp := rfl
@[simp] theorem State.setScanCur_runLen (i : Nat) : (s.setScanCur i).runLen = s.runLen := rfl
@[simp] theorem State.setScanCur_unitDur (i : Nat) : (s.setScanCur i).unitDur = s.unitDur := rfl
@[simp] theorem State.setScanCur_cls (i : Nat) : (s.setScanCur i).cls = s.cls := rfl
@[simp] theorem State.setScanCur_best (i : Nat) : (s.setScanCur i).best = s.best := rfl
@[simp] theorem State.setScanCur_scanCur (i : Nat) : (s.setScanCur i).scanCur = BitVec.ofNat 32 i := rfl
@[simp] theorem State.setScanCur_decNbits (i : Nat) : (s.setScanCur i).decNbits = s.decNbits := rfl
@[simp] theorem State.setScanCur_decBitoff (i : Nat) : (s.setScanCur i).decBitoff = s.decBitoff := rfl
@[simp] theorem State.setScanCur_decBitcnt (i : Nat) : (s.setScanCur i).decBitcnt = s.decBitcnt := rfl
@[simp] theorem State.setScanCur_snapWidx (i : Nat) : (s.setScanCur i).snapWidx = s.snapWidx := rfl
@[simp] theorem State.setScanCur_pushLvl (i : Nat) : (s.setScanCur i).pushLvl = s.pushLvl := rfl
@[simp] theorem State.setScanCur_bmem (i : Nat) : (s.setScanCur i).bmem = s.bmem := rfl
@[simp] theorem State.setScanCur_ring (i : Nat) : (s.setScanCur i).ring = s.ring := rfl
@[simp] theorem State.setScanCur_snap (i : Nat) : (s.setScanCur i).snap = s.snap := rfl
@[simp] theorem State.setScanCur_det (i : Nat) : (s.setScanCur i).det = s.det := rfl
@[simp] theorem State.setScanCur_widx (i : Nat) : (s.setScanCur i).widx = s.widx := rfl
@[simp] theorem State.setScanCur_pe (i : Nat) : (s.setScanCur i).pe = s.pe := rfl
@[simp] theorem State.setScanCur_sq (i : Nat) : (s.setScanCur i).sq = s.sq := rfl
@[simp] theorem State.setScanCur_schedule (i : Nat) : (s.setScanCur i).schedule = s.schedule := rfl
@[simp] theorem State.setScanCur_readData (i : Nat) : (s.setScanCur i).readData = s.readData := rfl
@[simp] theorem State.setScanCur_draws (i : Nat) : (s.setScanCur i).draws = s.draws := rfl

@[simp] theorem State.raise_params (b : BitVec 5) : (s.raise b).params = s.params := rfl
@[simp] theorem State.raise_cmd (b : BitVec 5) : (s.raise b).cmd = s.cmd := rfl
@[simp] theorem State.raise_args (b : BitVec 5) : (s.raise b).args = s.args := rfl
@[simp] theorem State.raise_patlo (b : BitVec 5) : (s.raise b).patlo = s.patlo := rfl
@[simp] theorem State.raise_pathi (b : BitVec 5) : (s.raise b).pathi = s.pathi := rfl
@[simp] theorem State.raise_result0 (b : BitVec 5) : (s.raise b).result0 = s.result0 := rfl
@[simp] theorem State.raise_result1 (b : BitVec 5) : (s.raise b).result1 = s.result1 := rfl
@[simp] theorem State.raise_irqEn (b : BitVec 5) : (s.raise b).irqEn = s.irqEn := rfl
@[simp] theorem State.raise_irqStatus (b : BitVec 5) : (s.raise b).irqStatus = s.irqStatus ||| b := rfl
@[simp] theorem State.raise_regs (b : BitVec 5) : (s.raise b).regs = s.regs := rfl
@[simp] theorem State.raise_found (b : BitVec 5) : (s.raise b).found = s.found := rfl
@[simp] theorem State.raise_errCode (b : BitVec 5) : (s.raise b).errCode = s.errCode := rfl
@[simp] theorem State.raise_lastOp (b : BitVec 5) : (s.raise b).lastOp = s.lastOp := rfl
@[simp] theorem State.raise_runLen (b : BitVec 5) : (s.raise b).runLen = s.runLen := rfl
@[simp] theorem State.raise_unitDur (b : BitVec 5) : (s.raise b).unitDur = s.unitDur := rfl
@[simp] theorem State.raise_cls (b : BitVec 5) : (s.raise b).cls = s.cls := rfl
@[simp] theorem State.raise_best (b : BitVec 5) : (s.raise b).best = s.best := rfl
@[simp] theorem State.raise_scanCur (b : BitVec 5) : (s.raise b).scanCur = s.scanCur := rfl
@[simp] theorem State.raise_decNbits (b : BitVec 5) : (s.raise b).decNbits = s.decNbits := rfl
@[simp] theorem State.raise_decBitoff (b : BitVec 5) : (s.raise b).decBitoff = s.decBitoff := rfl
@[simp] theorem State.raise_decBitcnt (b : BitVec 5) : (s.raise b).decBitcnt = s.decBitcnt := rfl
@[simp] theorem State.raise_snapWidx (b : BitVec 5) : (s.raise b).snapWidx = s.snapWidx := rfl
@[simp] theorem State.raise_pushLvl (b : BitVec 5) : (s.raise b).pushLvl = s.pushLvl := rfl
@[simp] theorem State.raise_bmem (b : BitVec 5) : (s.raise b).bmem = s.bmem := rfl
@[simp] theorem State.raise_ring (b : BitVec 5) : (s.raise b).ring = s.ring := rfl
@[simp] theorem State.raise_snap (b : BitVec 5) : (s.raise b).snap = s.snap := rfl
@[simp] theorem State.raise_det (b : BitVec 5) : (s.raise b).det = s.det := rfl
@[simp] theorem State.raise_widx (b : BitVec 5) : (s.raise b).widx = s.widx := rfl
@[simp] theorem State.raise_pe (b : BitVec 5) : (s.raise b).pe = s.pe := rfl
@[simp] theorem State.raise_sq (b : BitVec 5) : (s.raise b).sq = s.sq := rfl
@[simp] theorem State.raise_schedule (b : BitVec 5) : (s.raise b).schedule = s.schedule := rfl
@[simp] theorem State.raise_readData (b : BitVec 5) : (s.raise b).readData = s.readData := rfl
@[simp] theorem State.raise_draws (b : BitVec 5) : (s.raise b).draws = s.draws := rfl

@[simp] theorem State.clearIrq_params (v : BitVec 5) : (s.clearIrq v).params = s.params := rfl
@[simp] theorem State.clearIrq_cmd (v : BitVec 5) : (s.clearIrq v).cmd = s.cmd := rfl
@[simp] theorem State.clearIrq_args (v : BitVec 5) : (s.clearIrq v).args = s.args := rfl
@[simp] theorem State.clearIrq_patlo (v : BitVec 5) : (s.clearIrq v).patlo = s.patlo := rfl
@[simp] theorem State.clearIrq_pathi (v : BitVec 5) : (s.clearIrq v).pathi = s.pathi := rfl
@[simp] theorem State.clearIrq_result0 (v : BitVec 5) : (s.clearIrq v).result0 = s.result0 := rfl
@[simp] theorem State.clearIrq_result1 (v : BitVec 5) : (s.clearIrq v).result1 = s.result1 := rfl
@[simp] theorem State.clearIrq_irqEn (v : BitVec 5) : (s.clearIrq v).irqEn = s.irqEn := rfl
@[simp] theorem State.clearIrq_irqStatus (v : BitVec 5) : (s.clearIrq v).irqStatus = s.irqStatus &&& ~~~v := rfl
@[simp] theorem State.clearIrq_regs (v : BitVec 5) : (s.clearIrq v).regs = s.regs := rfl
@[simp] theorem State.clearIrq_found (v : BitVec 5) : (s.clearIrq v).found = s.found := rfl
@[simp] theorem State.clearIrq_errCode (v : BitVec 5) : (s.clearIrq v).errCode = s.errCode := rfl
@[simp] theorem State.clearIrq_lastOp (v : BitVec 5) : (s.clearIrq v).lastOp = s.lastOp := rfl
@[simp] theorem State.clearIrq_runLen (v : BitVec 5) : (s.clearIrq v).runLen = s.runLen := rfl
@[simp] theorem State.clearIrq_unitDur (v : BitVec 5) : (s.clearIrq v).unitDur = s.unitDur := rfl
@[simp] theorem State.clearIrq_cls (v : BitVec 5) : (s.clearIrq v).cls = s.cls := rfl
@[simp] theorem State.clearIrq_best (v : BitVec 5) : (s.clearIrq v).best = s.best := rfl
@[simp] theorem State.clearIrq_scanCur (v : BitVec 5) : (s.clearIrq v).scanCur = s.scanCur := rfl
@[simp] theorem State.clearIrq_decNbits (v : BitVec 5) : (s.clearIrq v).decNbits = s.decNbits := rfl
@[simp] theorem State.clearIrq_decBitoff (v : BitVec 5) : (s.clearIrq v).decBitoff = s.decBitoff := rfl
@[simp] theorem State.clearIrq_decBitcnt (v : BitVec 5) : (s.clearIrq v).decBitcnt = s.decBitcnt := rfl
@[simp] theorem State.clearIrq_snapWidx (v : BitVec 5) : (s.clearIrq v).snapWidx = s.snapWidx := rfl
@[simp] theorem State.clearIrq_pushLvl (v : BitVec 5) : (s.clearIrq v).pushLvl = s.pushLvl := rfl
@[simp] theorem State.clearIrq_bmem (v : BitVec 5) : (s.clearIrq v).bmem = s.bmem := rfl
@[simp] theorem State.clearIrq_ring (v : BitVec 5) : (s.clearIrq v).ring = s.ring := rfl
@[simp] theorem State.clearIrq_snap (v : BitVec 5) : (s.clearIrq v).snap = s.snap := rfl
@[simp] theorem State.clearIrq_det (v : BitVec 5) : (s.clearIrq v).det = s.det := rfl
@[simp] theorem State.clearIrq_widx (v : BitVec 5) : (s.clearIrq v).widx = s.widx := rfl
@[simp] theorem State.clearIrq_pe (v : BitVec 5) : (s.clearIrq v).pe = s.pe := rfl
@[simp] theorem State.clearIrq_sq (v : BitVec 5) : (s.clearIrq v).sq = s.sq := rfl
@[simp] theorem State.clearIrq_schedule (v : BitVec 5) : (s.clearIrq v).schedule = s.schedule := rfl
@[simp] theorem State.clearIrq_readData (v : BitVec 5) : (s.clearIrq v).readData = s.readData := rfl
@[simp] theorem State.clearIrq_draws (v : BitVec 5) : (s.clearIrq v).draws = s.draws := rfl

@[simp] theorem State.completePe_params : (s.completePe).params = s.params := rfl
@[simp] theorem State.completePe_cmd : (s.completePe).cmd = s.cmd := rfl
@[simp] theorem State.completePe_args : (s.completePe).args = s.args := rfl
@[simp] theorem State.completePe_patlo : (s.completePe).patlo = s.patlo := rfl
@[simp] theorem State.completePe_pathi : (s.completePe).pathi = s.pathi := rfl
@[simp] theorem State.completePe_result0 : (s.completePe).result0 = s.result0 := rfl
@[simp] theorem State.completePe_result1 : (s.completePe).result1 = s.result1 := rfl
@[simp] theorem State.completePe_irqEn : (s.completePe).irqEn = s.irqEn := rfl
@[simp] theorem State.completePe_irqStatus : (s.completePe).irqStatus = s.irqStatus ||| irqDone := rfl
@[simp] theorem State.completePe_regs : (s.completePe).regs = s.regs := rfl
@[simp] theorem State.completePe_found : (s.completePe).found = s.found := rfl
@[simp] theorem State.completePe_errCode : (s.completePe).errCode = s.errCode := rfl
@[simp] theorem State.completePe_lastOp : (s.completePe).lastOp = s.lastOp := rfl
@[simp] theorem State.completePe_runLen : (s.completePe).runLen = s.runLen := rfl
@[simp] theorem State.completePe_unitDur : (s.completePe).unitDur = s.unitDur := rfl
@[simp] theorem State.completePe_cls : (s.completePe).cls = s.cls := rfl
@[simp] theorem State.completePe_best : (s.completePe).best = s.best := rfl
@[simp] theorem State.completePe_scanCur : (s.completePe).scanCur = s.scanCur := rfl
@[simp] theorem State.completePe_decNbits : (s.completePe).decNbits = s.decNbits := rfl
@[simp] theorem State.completePe_decBitoff : (s.completePe).decBitoff = s.decBitoff := rfl
@[simp] theorem State.completePe_decBitcnt : (s.completePe).decBitcnt = s.decBitcnt := rfl
@[simp] theorem State.completePe_snapWidx : (s.completePe).snapWidx = s.snapWidx := rfl
@[simp] theorem State.completePe_pushLvl : (s.completePe).pushLvl = s.pushLvl := rfl
@[simp] theorem State.completePe_bmem : (s.completePe).bmem = s.bmem := rfl
@[simp] theorem State.completePe_ring : (s.completePe).ring = s.ring := rfl
@[simp] theorem State.completePe_snap : (s.completePe).snap = s.snap := rfl
@[simp] theorem State.completePe_det : (s.completePe).det = s.det := rfl
@[simp] theorem State.completePe_widx : (s.completePe).widx = s.widx := rfl
@[simp] theorem State.completePe_pe : (s.completePe).pe = { s.pe with pending := false } := rfl
@[simp] theorem State.completePe_sq : (s.completePe).sq = s.sq := rfl
@[simp] theorem State.completePe_schedule : (s.completePe).schedule = s.schedule := rfl
@[simp] theorem State.completePe_readData : (s.completePe).readData = s.readData := rfl
@[simp] theorem State.completePe_draws : (s.completePe).draws = s.draws := rfl

@[simp] theorem State.reject_params (x : Word) (code : ErrCode) : (s.reject x code).params = s.params := rfl
@[simp] theorem State.reject_cmd (x : Word) (code : ErrCode) : (s.reject x code).cmd = x := rfl
@[simp] theorem State.reject_args (x : Word) (code : ErrCode) : (s.reject x code).args = s.args := rfl
@[simp] theorem State.reject_patlo (x : Word) (code : ErrCode) : (s.reject x code).patlo = s.patlo := rfl
@[simp] theorem State.reject_pathi (x : Word) (code : ErrCode) : (s.reject x code).pathi = s.pathi := rfl
@[simp] theorem State.reject_result0 (x : Word) (code : ErrCode) : (s.reject x code).result0 = s.result0 := rfl
@[simp] theorem State.reject_result1 (x : Word) (code : ErrCode) : (s.reject x code).result1 = s.result1 := rfl
@[simp] theorem State.reject_irqEn (x : Word) (code : ErrCode) : (s.reject x code).irqEn = s.irqEn := rfl
@[simp] theorem State.reject_irqStatus (x : Word) (code : ErrCode) : (s.reject x code).irqStatus = s.irqStatus ||| irqErr := rfl
@[simp] theorem State.reject_regs (x : Word) (code : ErrCode) : (s.reject x code).regs = s.regs := rfl
@[simp] theorem State.reject_found (x : Word) (code : ErrCode) : (s.reject x code).found = s.found := rfl
@[simp] theorem State.reject_errCode (x : Word) (code : ErrCode) : (s.reject x code).errCode = code.toByte := rfl
@[simp] theorem State.reject_lastOp (x : Word) (code : ErrCode) : (s.reject x code).lastOp = s.lastOp := rfl
@[simp] theorem State.reject_runLen (x : Word) (code : ErrCode) : (s.reject x code).runLen = s.runLen := rfl
@[simp] theorem State.reject_unitDur (x : Word) (code : ErrCode) : (s.reject x code).unitDur = s.unitDur := rfl
@[simp] theorem State.reject_cls (x : Word) (code : ErrCode) : (s.reject x code).cls = s.cls := rfl
@[simp] theorem State.reject_best (x : Word) (code : ErrCode) : (s.reject x code).best = s.best := rfl
@[simp] theorem State.reject_scanCur (x : Word) (code : ErrCode) : (s.reject x code).scanCur = s.scanCur := rfl
@[simp] theorem State.reject_decNbits (x : Word) (code : ErrCode) : (s.reject x code).decNbits = s.decNbits := rfl
@[simp] theorem State.reject_decBitoff (x : Word) (code : ErrCode) : (s.reject x code).decBitoff = s.decBitoff := rfl
@[simp] theorem State.reject_decBitcnt (x : Word) (code : ErrCode) : (s.reject x code).decBitcnt = s.decBitcnt := rfl
@[simp] theorem State.reject_snapWidx (x : Word) (code : ErrCode) : (s.reject x code).snapWidx = s.snapWidx := rfl
@[simp] theorem State.reject_pushLvl (x : Word) (code : ErrCode) : (s.reject x code).pushLvl = s.pushLvl := rfl
@[simp] theorem State.reject_bmem (x : Word) (code : ErrCode) : (s.reject x code).bmem = s.bmem := rfl
@[simp] theorem State.reject_ring (x : Word) (code : ErrCode) : (s.reject x code).ring = s.ring := rfl
@[simp] theorem State.reject_snap (x : Word) (code : ErrCode) : (s.reject x code).snap = s.snap := rfl
@[simp] theorem State.reject_det (x : Word) (code : ErrCode) : (s.reject x code).det = s.det := rfl
@[simp] theorem State.reject_widx (x : Word) (code : ErrCode) : (s.reject x code).widx = s.widx := rfl
@[simp] theorem State.reject_pe (x : Word) (code : ErrCode) : (s.reject x code).pe = s.pe := rfl
@[simp] theorem State.reject_sq (x : Word) (code : ErrCode) : (s.reject x code).sq = s.sq := rfl
@[simp] theorem State.reject_schedule (x : Word) (code : ErrCode) : (s.reject x code).schedule = s.schedule := rfl
@[simp] theorem State.reject_readData (x : Word) (code : ErrCode) : (s.reject x code).readData = s.readData := rfl
@[simp] theorem State.reject_draws (x : Word) (code : ErrCode) : (s.reject x code).draws = s.draws := rfl

@[simp] theorem State.setClassified_params (len unit : Nat) (t : ClassTable Nat) : (s.setClassified len unit t).params = s.params := rfl
@[simp] theorem State.setClassified_cmd (len unit : Nat) (t : ClassTable Nat) : (s.setClassified len unit t).cmd = s.cmd := rfl
@[simp] theorem State.setClassified_args (len unit : Nat) (t : ClassTable Nat) : (s.setClassified len unit t).args = s.args := rfl
@[simp] theorem State.setClassified_patlo (len unit : Nat) (t : ClassTable Nat) : (s.setClassified len unit t).patlo = s.patlo := rfl
@[simp] theorem State.setClassified_pathi (len unit : Nat) (t : ClassTable Nat) : (s.setClassified len unit t).pathi = s.pathi := rfl
@[simp] theorem State.setClassified_result0 (len unit : Nat) (t : ClassTable Nat) : (s.setClassified len unit t).result0 = s.result0 := rfl
@[simp] theorem State.setClassified_result1 (len unit : Nat) (t : ClassTable Nat) : (s.setClassified len unit t).result1 = s.result1 := rfl
@[simp] theorem State.setClassified_irqEn (len unit : Nat) (t : ClassTable Nat) : (s.setClassified len unit t).irqEn = s.irqEn := rfl
@[simp] theorem State.setClassified_irqStatus (len unit : Nat) (t : ClassTable Nat) : (s.setClassified len unit t).irqStatus = s.irqStatus := rfl
@[simp] theorem State.setClassified_regs (len unit : Nat) (t : ClassTable Nat) : (s.setClassified len unit t).regs = s.regs := rfl
@[simp] theorem State.setClassified_found (len unit : Nat) (t : ClassTable Nat) : (s.setClassified len unit t).found = s.found := rfl
@[simp] theorem State.setClassified_errCode (len unit : Nat) (t : ClassTable Nat) : (s.setClassified len unit t).errCode = s.errCode := rfl
@[simp] theorem State.setClassified_lastOp (len unit : Nat) (t : ClassTable Nat) : (s.setClassified len unit t).lastOp = s.lastOp := rfl
@[simp] theorem State.setClassified_runLen (len unit : Nat) (t : ClassTable Nat) : (s.setClassified len unit t).runLen = BitVec.ofNat 32 len := rfl
@[simp] theorem State.setClassified_unitDur (len unit : Nat) (t : ClassTable Nat) : (s.setClassified len unit t).unitDur = BitVec.ofNat 32 unit := rfl
@[simp] theorem State.setClassified_cls (len unit : Nat) (t : ClassTable Nat) : (s.setClassified len unit t).cls = tableWords t := rfl
@[simp] theorem State.setClassified_best (len unit : Nat) (t : ClassTable Nat) : (s.setClassified len unit t).best = s.best := rfl
@[simp] theorem State.setClassified_scanCur (len unit : Nat) (t : ClassTable Nat) : (s.setClassified len unit t).scanCur = s.scanCur := rfl
@[simp] theorem State.setClassified_decNbits (len unit : Nat) (t : ClassTable Nat) : (s.setClassified len unit t).decNbits = s.decNbits := rfl
@[simp] theorem State.setClassified_decBitoff (len unit : Nat) (t : ClassTable Nat) : (s.setClassified len unit t).decBitoff = s.decBitoff := rfl
@[simp] theorem State.setClassified_decBitcnt (len unit : Nat) (t : ClassTable Nat) : (s.setClassified len unit t).decBitcnt = s.decBitcnt := rfl
@[simp] theorem State.setClassified_snapWidx (len unit : Nat) (t : ClassTable Nat) : (s.setClassified len unit t).snapWidx = s.snapWidx := rfl
@[simp] theorem State.setClassified_pushLvl (len unit : Nat) (t : ClassTable Nat) : (s.setClassified len unit t).pushLvl = s.pushLvl := rfl
@[simp] theorem State.setClassified_bmem (len unit : Nat) (t : ClassTable Nat) : (s.setClassified len unit t).bmem = s.bmem := rfl
@[simp] theorem State.setClassified_ring (len unit : Nat) (t : ClassTable Nat) : (s.setClassified len unit t).ring = s.ring := rfl
@[simp] theorem State.setClassified_snap (len unit : Nat) (t : ClassTable Nat) : (s.setClassified len unit t).snap = s.snap := rfl
@[simp] theorem State.setClassified_det (len unit : Nat) (t : ClassTable Nat) : (s.setClassified len unit t).det = s.det := rfl
@[simp] theorem State.setClassified_widx (len unit : Nat) (t : ClassTable Nat) : (s.setClassified len unit t).widx = s.widx := rfl
@[simp] theorem State.setClassified_pe (len unit : Nat) (t : ClassTable Nat) : (s.setClassified len unit t).pe = s.pe := rfl
@[simp] theorem State.setClassified_sq (len unit : Nat) (t : ClassTable Nat) : (s.setClassified len unit t).sq = s.sq := rfl
@[simp] theorem State.setClassified_schedule (len unit : Nat) (t : ClassTable Nat) : (s.setClassified len unit t).schedule = s.schedule := rfl
@[simp] theorem State.setClassified_readData (len unit : Nat) (t : ClassTable Nat) : (s.setClassified len unit t).readData = s.readData := rfl
@[simp] theorem State.setClassified_draws (len unit : Nat) (t : ClassTable Nat) : (s.setClassified len unit t).draws = s.draws := rfl

@[simp] theorem State.returnWord_params (v : Word) : (s.returnWord v).params = s.params := rfl
@[simp] theorem State.returnWord_cmd (v : Word) : (s.returnWord v).cmd = s.cmd := rfl
@[simp] theorem State.returnWord_args (v : Word) : (s.returnWord v).args = s.args := rfl
@[simp] theorem State.returnWord_patlo (v : Word) : (s.returnWord v).patlo = s.patlo := rfl
@[simp] theorem State.returnWord_pathi (v : Word) : (s.returnWord v).pathi = s.pathi := rfl
@[simp] theorem State.returnWord_result0 (v : Word) : (s.returnWord v).result0 = s.result0 := rfl
@[simp] theorem State.returnWord_result1 (v : Word) : (s.returnWord v).result1 = s.result1 := rfl
@[simp] theorem State.returnWord_irqEn (v : Word) : (s.returnWord v).irqEn = s.irqEn := rfl
@[simp] theorem State.returnWord_irqStatus (v : Word) : (s.returnWord v).irqStatus = s.irqStatus := rfl
@[simp] theorem State.returnWord_regs (v : Word) : (s.returnWord v).regs = s.regs := rfl
@[simp] theorem State.returnWord_found (v : Word) : (s.returnWord v).found = s.found := rfl
@[simp] theorem State.returnWord_errCode (v : Word) : (s.returnWord v).errCode = s.errCode := rfl
@[simp] theorem State.returnWord_lastOp (v : Word) : (s.returnWord v).lastOp = s.lastOp := rfl
@[simp] theorem State.returnWord_runLen (v : Word) : (s.returnWord v).runLen = s.runLen := rfl
@[simp] theorem State.returnWord_unitDur (v : Word) : (s.returnWord v).unitDur = s.unitDur := rfl
@[simp] theorem State.returnWord_cls (v : Word) : (s.returnWord v).cls = s.cls := rfl
@[simp] theorem State.returnWord_best (v : Word) : (s.returnWord v).best = s.best := rfl
@[simp] theorem State.returnWord_scanCur (v : Word) : (s.returnWord v).scanCur = s.scanCur := rfl
@[simp] theorem State.returnWord_decNbits (v : Word) : (s.returnWord v).decNbits = s.decNbits := rfl
@[simp] theorem State.returnWord_decBitoff (v : Word) : (s.returnWord v).decBitoff = s.decBitoff := rfl
@[simp] theorem State.returnWord_decBitcnt (v : Word) : (s.returnWord v).decBitcnt = s.decBitcnt := rfl
@[simp] theorem State.returnWord_snapWidx (v : Word) : (s.returnWord v).snapWidx = s.snapWidx := rfl
@[simp] theorem State.returnWord_pushLvl (v : Word) : (s.returnWord v).pushLvl = s.pushLvl := rfl
@[simp] theorem State.returnWord_bmem (v : Word) : (s.returnWord v).bmem = s.bmem := rfl
@[simp] theorem State.returnWord_ring (v : Word) : (s.returnWord v).ring = s.ring := rfl
@[simp] theorem State.returnWord_snap (v : Word) : (s.returnWord v).snap = s.snap := rfl
@[simp] theorem State.returnWord_det (v : Word) : (s.returnWord v).det = s.det := rfl
@[simp] theorem State.returnWord_widx (v : Word) : (s.returnWord v).widx = s.widx := rfl
@[simp] theorem State.returnWord_pe (v : Word) : (s.returnWord v).pe = s.pe := rfl
@[simp] theorem State.returnWord_sq (v : Word) : (s.returnWord v).sq = s.sq := rfl
@[simp] theorem State.returnWord_schedule (v : Word) : (s.returnWord v).schedule = s.schedule := rfl
@[simp] theorem State.returnWord_readData (v : Word) : (s.returnWord v).readData = v := rfl
@[simp] theorem State.returnWord_draws (v : Word) : (s.returnWord v).draws = s.draws := rfl

@[simp] theorem State.returnDraw_params : (s.returnDraw).params = s.params := rfl
@[simp] theorem State.returnDraw_cmd : (s.returnDraw).cmd = s.cmd := rfl
@[simp] theorem State.returnDraw_args : (s.returnDraw).args = s.args := rfl
@[simp] theorem State.returnDraw_patlo : (s.returnDraw).patlo = s.patlo := rfl
@[simp] theorem State.returnDraw_pathi : (s.returnDraw).pathi = s.pathi := rfl
@[simp] theorem State.returnDraw_result0 : (s.returnDraw).result0 = s.result0 := rfl
@[simp] theorem State.returnDraw_result1 : (s.returnDraw).result1 = s.result1 := rfl
@[simp] theorem State.returnDraw_irqEn : (s.returnDraw).irqEn = s.irqEn := rfl
@[simp] theorem State.returnDraw_irqStatus : (s.returnDraw).irqStatus = s.irqStatus := rfl
@[simp] theorem State.returnDraw_regs : (s.returnDraw).regs = s.regs := rfl
@[simp] theorem State.returnDraw_found : (s.returnDraw).found = s.found := rfl
@[simp] theorem State.returnDraw_errCode : (s.returnDraw).errCode = s.errCode := rfl
@[simp] theorem State.returnDraw_lastOp : (s.returnDraw).lastOp = s.lastOp := rfl
@[simp] theorem State.returnDraw_runLen : (s.returnDraw).runLen = s.runLen := rfl
@[simp] theorem State.returnDraw_unitDur : (s.returnDraw).unitDur = s.unitDur := rfl
@[simp] theorem State.returnDraw_cls : (s.returnDraw).cls = s.cls := rfl
@[simp] theorem State.returnDraw_best : (s.returnDraw).best = s.best := rfl
@[simp] theorem State.returnDraw_scanCur : (s.returnDraw).scanCur = s.scanCur := rfl
@[simp] theorem State.returnDraw_decNbits : (s.returnDraw).decNbits = s.decNbits := rfl
@[simp] theorem State.returnDraw_decBitoff : (s.returnDraw).decBitoff = s.decBitoff := rfl
@[simp] theorem State.returnDraw_decBitcnt : (s.returnDraw).decBitcnt = s.decBitcnt := rfl
@[simp] theorem State.returnDraw_snapWidx : (s.returnDraw).snapWidx = s.snapWidx := rfl
@[simp] theorem State.returnDraw_pushLvl : (s.returnDraw).pushLvl = s.pushLvl := rfl
@[simp] theorem State.returnDraw_bmem : (s.returnDraw).bmem = s.bmem := rfl
@[simp] theorem State.returnDraw_ring : (s.returnDraw).ring = s.ring := rfl
@[simp] theorem State.returnDraw_snap : (s.returnDraw).snap = s.snap := rfl
@[simp] theorem State.returnDraw_det : (s.returnDraw).det = s.det := rfl
@[simp] theorem State.returnDraw_widx : (s.returnDraw).widx = s.widx := rfl
@[simp] theorem State.returnDraw_pe : (s.returnDraw).pe = s.pe := rfl
@[simp] theorem State.returnDraw_sq : (s.returnDraw).sq = s.sq := rfl
@[simp] theorem State.returnDraw_schedule : (s.returnDraw).schedule = s.schedule := rfl
@[simp] theorem State.returnDraw_readData : (s.returnDraw).readData = Config.busyRead s.draws := rfl
@[simp] theorem State.returnDraw_draws : (s.returnDraw).draws = s.draws + 1 := rfl

@[simp] theorem State.startPe_params (x : Word) : (s.startPe x).params = s.params := rfl
@[simp] theorem State.startPe_cmd (x : Word) : (s.startPe x).cmd = s.cmd := rfl
@[simp] theorem State.startPe_args (x : Word) : (s.startPe x).args = s.args := rfl
@[simp] theorem State.startPe_patlo (x : Word) : (s.startPe x).patlo = s.patlo := rfl
@[simp] theorem State.startPe_pathi (x : Word) : (s.startPe x).pathi = s.pathi := rfl
@[simp] theorem State.startPe_result0 (x : Word) : (s.startPe x).result0 = s.result0 := rfl
@[simp] theorem State.startPe_result1 (x : Word) : (s.startPe x).result1 = s.result1 := rfl
@[simp] theorem State.startPe_irqEn (x : Word) : (s.startPe x).irqEn = s.irqEn := rfl
@[simp] theorem State.startPe_irqStatus (x : Word) : (s.startPe x).irqStatus = s.irqStatus := rfl
@[simp] theorem State.startPe_regs (x : Word) : (s.startPe x).regs = s.regs := rfl
@[simp] theorem State.startPe_found (x : Word) : (s.startPe x).found = s.found := rfl
@[simp] theorem State.startPe_errCode (x : Word) : (s.startPe x).errCode = s.errCode := rfl
@[simp] theorem State.startPe_lastOp (x : Word) : (s.startPe x).lastOp = s.lastOp := rfl
@[simp] theorem State.startPe_runLen (x : Word) : (s.startPe x).runLen = s.runLen := rfl
@[simp] theorem State.startPe_unitDur (x : Word) : (s.startPe x).unitDur = s.unitDur := rfl
@[simp] theorem State.startPe_cls (x : Word) : (s.startPe x).cls = s.cls := rfl
@[simp] theorem State.startPe_best (x : Word) : (s.startPe x).best = s.best := rfl
@[simp] theorem State.startPe_scanCur (x : Word) : (s.startPe x).scanCur = s.scanCur := rfl
@[simp] theorem State.startPe_decNbits (x : Word) : (s.startPe x).decNbits = s.decNbits := rfl
@[simp] theorem State.startPe_decBitoff (x : Word) : (s.startPe x).decBitoff = s.decBitoff := rfl
@[simp] theorem State.startPe_decBitcnt (x : Word) : (s.startPe x).decBitcnt = s.decBitcnt := rfl
@[simp] theorem State.startPe_snapWidx (x : Word) : (s.startPe x).snapWidx = s.snapWidx := rfl
@[simp] theorem State.startPe_pushLvl (x : Word) : (s.startPe x).pushLvl = s.pushLvl := rfl
@[simp] theorem State.startPe_bmem (x : Word) : (s.startPe x).bmem = s.bmem := rfl
@[simp] theorem State.startPe_ring (x : Word) : (s.startPe x).ring = s.ring := rfl
@[simp] theorem State.startPe_snap (x : Word) : (s.startPe x).snap = s.snap := rfl
@[simp] theorem State.startPe_det (x : Word) : (s.startPe x).det = s.det := rfl
@[simp] theorem State.startPe_widx (x : Word) : (s.startPe x).widx = s.widx := rfl
@[simp] theorem State.startPe_pe (x : Word) : (s.startPe x).pe = { pending := true, latch := Latch.capture s x, copyIdx := 0, sampledW := s.widx } := rfl
@[simp] theorem State.startPe_sq (x : Word) : (s.startPe x).sq = s.sq := rfl
@[simp] theorem State.startPe_schedule (x : Word) : (s.startPe x).schedule = s.schedule := rfl
@[simp] theorem State.startPe_readData (x : Word) : (s.startPe x).readData = s.readData := rfl
@[simp] theorem State.startPe_draws (x : Word) : (s.startPe x).draws = s.draws := rfl

@[simp] theorem State.copySlot_params (w c : Nat) : (s.copySlot w c).params = s.params := rfl
@[simp] theorem State.copySlot_cmd (w c : Nat) : (s.copySlot w c).cmd = s.cmd := rfl
@[simp] theorem State.copySlot_args (w c : Nat) : (s.copySlot w c).args = s.args := rfl
@[simp] theorem State.copySlot_patlo (w c : Nat) : (s.copySlot w c).patlo = s.patlo := rfl
@[simp] theorem State.copySlot_pathi (w c : Nat) : (s.copySlot w c).pathi = s.pathi := rfl
@[simp] theorem State.copySlot_result0 (w c : Nat) : (s.copySlot w c).result0 = s.result0 := rfl
@[simp] theorem State.copySlot_result1 (w c : Nat) : (s.copySlot w c).result1 = s.result1 := rfl
@[simp] theorem State.copySlot_irqEn (w c : Nat) : (s.copySlot w c).irqEn = s.irqEn := rfl
@[simp] theorem State.copySlot_irqStatus (w c : Nat) : (s.copySlot w c).irqStatus = s.irqStatus := rfl
@[simp] theorem State.copySlot_regs (w c : Nat) : (s.copySlot w c).regs = s.regs := rfl
@[simp] theorem State.copySlot_found (w c : Nat) : (s.copySlot w c).found = s.found := rfl
@[simp] theorem State.copySlot_errCode (w c : Nat) : (s.copySlot w c).errCode = s.errCode := rfl
@[simp] theorem State.copySlot_lastOp (w c : Nat) : (s.copySlot w c).lastOp = s.lastOp := rfl
@[simp] theorem State.copySlot_runLen (w c : Nat) : (s.copySlot w c).runLen = s.runLen := rfl
@[simp] theorem State.copySlot_unitDur (w c : Nat) : (s.copySlot w c).unitDur = s.unitDur := rfl
@[simp] theorem State.copySlot_cls (w c : Nat) : (s.copySlot w c).cls = s.cls := rfl
@[simp] theorem State.copySlot_best (w c : Nat) : (s.copySlot w c).best = s.best := rfl
@[simp] theorem State.copySlot_scanCur (w c : Nat) : (s.copySlot w c).scanCur = s.scanCur := rfl
@[simp] theorem State.copySlot_decNbits (w c : Nat) : (s.copySlot w c).decNbits = s.decNbits := rfl
@[simp] theorem State.copySlot_decBitoff (w c : Nat) : (s.copySlot w c).decBitoff = s.decBitoff := rfl
@[simp] theorem State.copySlot_decBitcnt (w c : Nat) : (s.copySlot w c).decBitcnt = s.decBitcnt := rfl
@[simp] theorem State.copySlot_snapWidx (w c : Nat) : (s.copySlot w c).snapWidx = s.snapWidx := rfl
@[simp] theorem State.copySlot_pushLvl (w c : Nat) : (s.copySlot w c).pushLvl = s.pushLvl := rfl
@[simp] theorem State.copySlot_bmem (w c : Nat) : (s.copySlot w c).bmem = s.bmem := rfl
@[simp] theorem State.copySlot_ring (w c : Nat) : (s.copySlot w c).ring = s.ring := rfl
@[simp] theorem State.copySlot_det (w c : Nat) : (s.copySlot w c).det = s.det := rfl
@[simp] theorem State.copySlot_widx (w c : Nat) : (s.copySlot w c).widx = s.widx := rfl
@[simp] theorem State.copySlot_pe (w c : Nat) : (s.copySlot w c).pe = s.pe := rfl
@[simp] theorem State.copySlot_sq (w c : Nat) : (s.copySlot w c).sq = s.sq := rfl
@[simp] theorem State.copySlot_schedule (w c : Nat) : (s.copySlot w c).schedule = s.schedule := rfl
@[simp] theorem State.copySlot_readData (w c : Nat) : (s.copySlot w c).readData = s.readData := rfl
@[simp] theorem State.copySlot_draws (w c : Nat) : (s.copySlot w c).draws = s.draws := rfl

@[simp] theorem State.appendPulse_params (p : Pulse) : (s.appendPulse p).params = s.params := rfl
@[simp] theorem State.appendPulse_cmd (p : Pulse) : (s.appendPulse p).cmd = s.cmd := rfl
@[simp] theorem State.appendPulse_args (p : Pulse) : (s.appendPulse p).args = s.args := rfl
@[simp] theorem State.appendPulse_patlo (p : Pulse) : (s.appendPulse p).patlo = s.patlo := rfl
@[simp] theorem State.appendPulse_pathi (p : Pulse) : (s.appendPulse p).pathi = s.pathi := rfl
@[simp] theorem State.appendPulse_result0 (p : Pulse) : (s.appendPulse p).result0 = s.result0 := rfl
@[simp] theorem State.appendPulse_result1 (p : Pulse) : (s.appendPulse p).result1 = s.result1 := rfl
@[simp] theorem State.appendPulse_irqEn (p : Pulse) : (s.appendPulse p).irqEn = s.irqEn := rfl
@[simp] theorem State.appendPulse_irqStatus (p : Pulse) : (s.appendPulse p).irqStatus = s.irqStatus := rfl
@[simp] theorem State.appendPulse_regs (p : Pulse) : (s.appendPulse p).regs = s.regs := rfl
@[simp] theorem State.appendPulse_found (p : Pulse) : (s.appendPulse p).found = s.found := rfl
@[simp] theorem State.appendPulse_errCode (p : Pulse) : (s.appendPulse p).errCode = s.errCode := rfl
@[simp] theorem State.appendPulse_lastOp (p : Pulse) : (s.appendPulse p).lastOp = s.lastOp := rfl
@[simp] theorem State.appendPulse_runLen (p : Pulse) : (s.appendPulse p).runLen = s.runLen := rfl
@[simp] theorem State.appendPulse_unitDur (p : Pulse) : (s.appendPulse p).unitDur = s.unitDur := rfl
@[simp] theorem State.appendPulse_cls (p : Pulse) : (s.appendPulse p).cls = s.cls := rfl
@[simp] theorem State.appendPulse_best (p : Pulse) : (s.appendPulse p).best = s.best := rfl
@[simp] theorem State.appendPulse_scanCur (p : Pulse) : (s.appendPulse p).scanCur = s.scanCur := rfl
@[simp] theorem State.appendPulse_decNbits (p : Pulse) : (s.appendPulse p).decNbits = s.decNbits := rfl
@[simp] theorem State.appendPulse_decBitoff (p : Pulse) : (s.appendPulse p).decBitoff = s.decBitoff := rfl
@[simp] theorem State.appendPulse_decBitcnt (p : Pulse) : (s.appendPulse p).decBitcnt = s.decBitcnt := rfl
@[simp] theorem State.appendPulse_snapWidx (p : Pulse) : (s.appendPulse p).snapWidx = s.snapWidx := rfl
@[simp] theorem State.appendPulse_pushLvl (p : Pulse) : (s.appendPulse p).pushLvl = s.pushLvl := rfl
@[simp] theorem State.appendPulse_bmem (p : Pulse) : (s.appendPulse p).bmem = s.bmem := rfl
@[simp] theorem State.appendPulse_snap (p : Pulse) : (s.appendPulse p).snap = s.snap := rfl
@[simp] theorem State.appendPulse_det (p : Pulse) : (s.appendPulse p).det = s.det := rfl
@[simp] theorem State.appendPulse_widx (p : Pulse) : (s.appendPulse p).widx = (s.widx + 1) % s.params.pulseCap := rfl
@[simp] theorem State.appendPulse_pe (p : Pulse) : (s.appendPulse p).pe = s.pe := rfl
@[simp] theorem State.appendPulse_sq (p : Pulse) : (s.appendPulse p).sq = s.sq := rfl
@[simp] theorem State.appendPulse_schedule (p : Pulse) : (s.appendPulse p).schedule = s.schedule := rfl
@[simp] theorem State.appendPulse_readData (p : Pulse) : (s.appendPulse p).readData = s.readData := rfl
@[simp] theorem State.appendPulse_draws (p : Pulse) : (s.appendPulse p).draws = s.draws := rfl

@[simp] theorem State.clearRing_params : (s.clearRing).params = s.params := rfl
@[simp] theorem State.clearRing_cmd : (s.clearRing).cmd = s.cmd := rfl
@[simp] theorem State.clearRing_args : (s.clearRing).args = s.args := rfl
@[simp] theorem State.clearRing_patlo : (s.clearRing).patlo = s.patlo := rfl
@[simp] theorem State.clearRing_pathi : (s.clearRing).pathi = s.pathi := rfl
@[simp] theorem State.clearRing_result0 : (s.clearRing).result0 = s.result0 := rfl
@[simp] theorem State.clearRing_result1 : (s.clearRing).result1 = s.result1 := rfl
@[simp] theorem State.clearRing_irqEn : (s.clearRing).irqEn = s.irqEn := rfl
@[simp] theorem State.clearRing_irqStatus : (s.clearRing).irqStatus = s.irqStatus := rfl
@[simp] theorem State.clearRing_regs : (s.clearRing).regs = s.regs := rfl
@[simp] theorem State.clearRing_found : (s.clearRing).found = s.found := rfl
@[simp] theorem State.clearRing_errCode : (s.clearRing).errCode = s.errCode := rfl
@[simp] theorem State.clearRing_lastOp : (s.clearRing).lastOp = s.lastOp := rfl
@[simp] theorem State.clearRing_runLen : (s.clearRing).runLen = s.runLen := rfl
@[simp] theorem State.clearRing_unitDur : (s.clearRing).unitDur = s.unitDur := rfl
@[simp] theorem State.clearRing_cls : (s.clearRing).cls = s.cls := rfl
@[simp] theorem State.clearRing_best : (s.clearRing).best = s.best := rfl
@[simp] theorem State.clearRing_scanCur : (s.clearRing).scanCur = s.scanCur := rfl
@[simp] theorem State.clearRing_decNbits : (s.clearRing).decNbits = s.decNbits := rfl
@[simp] theorem State.clearRing_decBitoff : (s.clearRing).decBitoff = s.decBitoff := rfl
@[simp] theorem State.clearRing_decBitcnt : (s.clearRing).decBitcnt = s.decBitcnt := rfl
@[simp] theorem State.clearRing_snapWidx : (s.clearRing).snapWidx = s.snapWidx := rfl
@[simp] theorem State.clearRing_pushLvl : (s.clearRing).pushLvl = s.pushLvl := rfl
@[simp] theorem State.clearRing_bmem : (s.clearRing).bmem = s.bmem := rfl
@[simp] theorem State.clearRing_snap : (s.clearRing).snap = s.snap := rfl
@[simp] theorem State.clearRing_det : (s.clearRing).det = s.det := rfl
@[simp] theorem State.clearRing_widx : (s.clearRing).widx = 0 := rfl
@[simp] theorem State.clearRing_pe : (s.clearRing).pe = s.pe := rfl
@[simp] theorem State.clearRing_sq : (s.clearRing).sq = s.sq := rfl
@[simp] theorem State.clearRing_schedule : (s.clearRing).schedule = s.schedule := rfl
@[simp] theorem State.clearRing_readData : (s.clearRing).readData = s.readData := rfl
@[simp] theorem State.clearRing_draws : (s.clearRing).draws = s.draws := rfl

@[simp] theorem State.clearBest_params : (s.clearBest).params = s.params := rfl
@[simp] theorem State.clearBest_cmd : (s.clearBest).cmd = s.cmd := rfl
@[simp] theorem State.clearBest_args : (s.clearBest).args = s.args := rfl
@[simp] theorem State.clearBest_patlo : (s.clearBest).patlo = s.patlo := rfl
@[simp] theorem State.clearBest_pathi : (s.clearBest).pathi = s.pathi := rfl
@[simp] theorem State.clearBest_result0 : (s.clearBest).result0 = s.result0 := rfl
@[simp] theorem State.clearBest_result1 : (s.clearBest).result1 = s.result1 := rfl
@[simp] theorem State.clearBest_irqEn : (s.clearBest).irqEn = s.irqEn := rfl
@[simp] theorem State.clearBest_irqStatus : (s.clearBest).irqStatus = s.irqStatus := rfl
@[simp] theorem State.clearBest_regs : (s.clearBest).regs = s.regs := rfl
@[simp] theorem State.clearBest_found : (s.clearBest).found = s.found := rfl
@[simp] theorem State.clearBest_errCode : (s.clearBest).errCode = s.errCode := rfl
@[simp] theorem State.clearBest_lastOp : (s.clearBest).lastOp = s.lastOp := rfl
@[simp] theorem State.clearBest_runLen : (s.clearBest).runLen = s.runLen := rfl
@[simp] theorem State.clearBest_unitDur : (s.clearBest).unitDur = s.unitDur := rfl
@[simp] theorem State.clearBest_cls : (s.clearBest).cls = s.cls := rfl
@[simp] theorem State.clearBest_best : (s.clearBest).best = HeldBest.empty := rfl
@[simp] theorem State.clearBest_scanCur : (s.clearBest).scanCur = s.scanCur := rfl
@[simp] theorem State.clearBest_decNbits : (s.clearBest).decNbits = s.decNbits := rfl
@[simp] theorem State.clearBest_decBitoff : (s.clearBest).decBitoff = s.decBitoff := rfl
@[simp] theorem State.clearBest_decBitcnt : (s.clearBest).decBitcnt = s.decBitcnt := rfl
@[simp] theorem State.clearBest_snapWidx : (s.clearBest).snapWidx = s.snapWidx := rfl
@[simp] theorem State.clearBest_pushLvl : (s.clearBest).pushLvl = s.pushLvl := rfl
@[simp] theorem State.clearBest_bmem : (s.clearBest).bmem = s.bmem := rfl
@[simp] theorem State.clearBest_ring : (s.clearBest).ring = s.ring := rfl
@[simp] theorem State.clearBest_snap : (s.clearBest).snap = s.snap := rfl
@[simp] theorem State.clearBest_det : (s.clearBest).det = s.det := rfl
@[simp] theorem State.clearBest_widx : (s.clearBest).widx = s.widx := rfl
@[simp] theorem State.clearBest_pe : (s.clearBest).pe = s.pe := rfl
@[simp] theorem State.clearBest_sq : (s.clearBest).sq = s.sq := rfl
@[simp] theorem State.clearBest_schedule : (s.clearBest).schedule = s.schedule := rfl
@[simp] theorem State.clearBest_readData : (s.clearBest).readData = s.readData := rfl
@[simp] theorem State.clearBest_draws : (s.clearBest).draws = s.draws := rfl

@[simp] theorem State.startScan_params (x : Word) : (s.startScan x).params = s.params := rfl
@[simp] theorem State.startScan_cmd (x : Word) : (s.startScan x).cmd = s.cmd := rfl
@[simp] theorem State.startScan_args (x : Word) : (s.startScan x).args = s.args := rfl
@[simp] theorem State.startScan_patlo (x : Word) : (s.startScan x).patlo = s.patlo := rfl
@[simp] theorem State.startScan_pathi (x : Word) : (s.startScan x).pathi = s.pathi := rfl
@[simp] theorem State.startScan_result0 (x : Word) : (s.startScan x).result0 = s.result0 := rfl
@[simp] theorem State.startScan_result1 (x : Word) : (s.startScan x).result1 = s.result1 := rfl
@[simp] theorem State.startScan_irqEn (x : Word) : (s.startScan x).irqEn = s.irqEn := rfl
@[simp] theorem State.startScan_irqStatus (x : Word) : (s.startScan x).irqStatus = s.irqStatus := rfl
@[simp] theorem State.startScan_regs (x : Word) : (s.startScan x).regs = s.regs := rfl
@[simp] theorem State.startScan_found (x : Word) : (s.startScan x).found = s.found := rfl
@[simp] theorem State.startScan_errCode (x : Word) : (s.startScan x).errCode = s.errCode := rfl
@[simp] theorem State.startScan_lastOp (x : Word) : (s.startScan x).lastOp = s.lastOp := rfl
@[simp] theorem State.startScan_runLen (x : Word) : (s.startScan x).runLen = s.runLen := rfl
@[simp] theorem State.startScan_unitDur (x : Word) : (s.startScan x).unitDur = s.unitDur := rfl
@[simp] theorem State.startScan_cls (x : Word) : (s.startScan x).cls = s.cls := rfl
@[simp] theorem State.startScan_best (x : Word) : (s.startScan x).best = s.best := rfl
@[simp] theorem State.startScan_scanCur (x : Word) : (s.startScan x).scanCur = s.scanCur := rfl
@[simp] theorem State.startScan_decNbits (x : Word) : (s.startScan x).decNbits = s.decNbits := rfl
@[simp] theorem State.startScan_decBitoff (x : Word) : (s.startScan x).decBitoff = s.decBitoff := rfl
@[simp] theorem State.startScan_decBitcnt (x : Word) : (s.startScan x).decBitcnt = s.decBitcnt := rfl
@[simp] theorem State.startScan_snapWidx (x : Word) : (s.startScan x).snapWidx = s.snapWidx := rfl
@[simp] theorem State.startScan_pushLvl (x : Word) : (s.startScan x).pushLvl = s.pushLvl := rfl
@[simp] theorem State.startScan_bmem (x : Word) : (s.startScan x).bmem = s.bmem := rfl
@[simp] theorem State.startScan_ring (x : Word) : (s.startScan x).ring = s.ring := rfl
@[simp] theorem State.startScan_snap (x : Word) : (s.startScan x).snap = s.snap := rfl
@[simp] theorem State.startScan_det (x : Word) : (s.startScan x).det = s.det := rfl
@[simp] theorem State.startScan_widx (x : Word) : (s.startScan x).widx = s.widx := rfl
@[simp] theorem State.startScan_pe (x : Word) : (s.startScan x).pe = s.pe := rfl
@[simp] theorem State.startScan_schedule (x : Word) : (s.startScan x).schedule = s.schedule := rfl
@[simp] theorem State.startScan_readData (x : Word) : (s.startScan x).readData = s.readData := rfl
@[simp] theorem State.startScan_draws (x : Word) : (s.startScan x).draws = s.draws := rfl

end Sys2Proof.Machine
end

