-- ==== Sys2Proof/Laws/Ops.lean ====
section
/-!
SUPPORT. Sys2Proof/Laws/Ops.lean: for each shared operation, once, everything it can do.
-/

namespace Sys2Proof.Machine

theorem ifInRange_of_inRange {ds : List Desc} {s t : State}
    (h : inRange ds s.params.bmemBytes = true) : ifInRange ds s t = .next t := by
  simp [ifInRange, h]

/-- The descriptor guard answers a next state only when every descriptor is in range. -/
theorem ifInRange_next {ds : List Desc} {s t u : State} (h : ifInRange ds s t = .next u) :
    inRange ds s.params.bmemBytes = true ∧ u = t := by
  unfold ifInRange at h
  split at h
  · exact ⟨‹_›, by cases h; rfl⟩
  · cases h

/-- The descriptor guard faults only when some descriptor is out of range. -/
theorem ifInRange_fault {ds : List Desc} {s t : State} {f : Fault} (h : ifInRange ds s t = .fault f) :
    inRange ds s.params.bmemBytes = false := by
  unfold ifInRange at h
  split at h
  · cases h
  · rename_i hr
    simpa using hr

theorem ifInRange_not_refused {ds : List Desc} {s t : State} {r : Refusal} :
    ifInRange ds s t ≠ .refused r := by
  unfold ifInRange
  split <;> simp

@[simp] theorem inRange_nil (bytes : Nat) : inRange [] bytes = true := rfl

@[simp] theorem inRange_cons (d : Desc) (ds : List Desc) (bytes : Nat) :
    inRange (d :: ds) bytes = (d.inRange bytes && inRange ds bytes) := rfl

@[simp] theorem Desc.inRange_iff (d : Desc) (bytes : Nat) :
    d.inRange bytes = true ↔ d.base + d.len ≤ bytes := by
  simp [Desc.inRange]

/-- The issue check accepts a word only when the core is free, the word is a command, no scan is in its
way and its descriptors are in range. -/
theorem issueCheck_ok {s : State} {x : Word} {i : Instr} (h : issueCheck s x = .ok i) :
    s.busy = false ∧ decode x = .ok i ∧ (conflictsWithScan i && s.scanning) = false ∧
      inRange (descriptors i (Latch.capture s x)) s.params.bmemBytes = true := by
  unfold issueCheck at h
  split at h
  · cases h
  · split at h
    · cases h
    · split at h
      · cases h
      · split at h
        · cases h
          rename_i hb _ hd hc hr
          exact ⟨Bool.eq_false_iff.2 hb, hd, Bool.eq_false_iff.2 hc, hr⟩
        · cases h

/-- A write to `CMD` either rejects the word or accepts its command. -/
theorem issue_cases (s : State) (x : Word) :
    (∃ code, issueCheck s x = .error code ∧ s.issue x = s.reject x code) ∨
      (∃ i, issueCheck s x = .ok i ∧ s.issue x = s.accept i x) := by
  unfold State.issue
  split
  · exact .inr ⟨_, ‹_›, rfl⟩
  · exact .inl ⟨_, ‹_›, rfl⟩

/-- A write to `CTRL` resets, or stores `DEC_BYPASS` and does the actions or refuses them. -/
theorem writeCtrl_cases (s : State) (v : Word) :
    (v.getLsbD 1 = true ∧ s.writeCtrl v = s.softReset) ∨
      (∃ t, t = { s with regs := { s.regs with decBypass := v.getLsbD 4 } } ∧
        (s.writeCtrl v = t ∨ s.writeCtrl v = t.overrun ∨
          (s.busy = false ∧ s.scanning = false ∧ s.writeCtrl v = t.ctrlActions v))) := by
  unfold State.writeCtrl
  split
  · exact .inl ⟨‹_›, rfl⟩
  · refine .inr ⟨_, rfl, ?_⟩
    split
    · split
      · exact .inr (.inl rfl)
      · rename_i h
        simp only [Bool.or_eq_true, not_or, Bool.not_eq_true] at h
        exact .inr (.inr ⟨h.1, h.2, rfl⟩)
    · exact .inl rfl

/-- A write to `DEC_VERDICT` delivers the verdict or sets `OVR`. -/
theorem writeVerdict_cases (s : State) (v : Word) :
    (s.sq.phase = .wait ∧ s.busy = false ∧
        s.writeVerdict v = { s with sq := { s.sq with vd := v.getLsbD 0, vo := s.decBitoff
                                                      vc := s.decBitcnt, phase := .update } }) ∨
      s.writeVerdict v = s.overrun := by
  unfold State.writeVerdict
  split
  · rename_i h
    simp only [State.decWait, Bool.and_eq_true, decide_eq_true_eq, Bool.not_eq_true'] at h
    exact .inl ⟨h.1, h.2, rfl⟩
  · exact .inr rfl

/-- What a latched word leads to: the command it decodes to, or a refusal. -/
theorem runLatched_cases (word : Word) (s : State) :
    (∃ i, decode word = .ok i ∧ runLatched word s = exec i s) ∨
      (∃ e, decode word = .error e ∧ runLatched word s = .refused (.undecodedLatch e)) := by
  unfold runLatched
  split
  · exact .inl ⟨_, ‹_›, rfl⟩
  · exact .inr ⟨_, ‹_›, rfl⟩

/-- What an engine's turn can be: a step of the primitive engine, one of the sequencer, or nothing. -/
theorem engineTurn_cases (s : State) :
    (s.pe.pending = true ∧ engineTurn s = runLatched s.pe.latch.word s) ∨
      (s.pe.pending = false ∧ s.sqEnabled = true ∧ engineTurn s = runLatched s.sq.latch.word s) ∨
      (s.pe.pending = false ∧ s.sqEnabled = false ∧ engineTurn s = .next s) := by
  unfold engineTurn peTurn sqTurn
  cases s.pe.pending <;> cases s.sqEnabled <;> simp

/-- What one step can be, by the head of the schedule. -/
theorem step_cases (s : State) :
    (s.schedule = [] ∧ step s = engineTurn s) ∨
      (∃ op rest, s.schedule = .host op :: rest ∧ step s = hostStep op { s with schedule := rest }) ∨
      (∃ p rest, s.schedule = .capture p :: rest ∧
        step s = .next ({ s with schedule := rest }.appendPulse p)) ∨
      (∃ rest, s.schedule = .pe :: rest ∧ step s = peTurn { s with schedule := rest }) ∨
      (∃ rest, s.schedule = .sq :: rest ∧ step s = sqTurn { s with schedule := rest }) ∨
      (∃ rest, (s.schedule = .waitIdle :: rest ∨ s.schedule = .waitScan :: rest) ∧
        (step s = .next ({ s with schedule := rest }.returnWord s.status) ∨ step s = engineTurn s)) := by
  unfold step nextTurn
  split
  · exact .inl ⟨‹_›, rfl⟩
  · exact .inr (.inl ⟨_, _, ‹_›, rfl⟩)
  · exact .inr (.inr (.inl ⟨_, _, ‹_›, rfl⟩))
  · exact .inr (.inr (.inr (.inl ⟨_, ‹_›, rfl⟩)))
  · exact .inr (.inr (.inr (.inr (.inl ⟨_, ‹_›, rfl⟩))))
  · refine .inr (.inr (.inr (.inr (.inr ⟨_, .inl ‹_›, ?_⟩))))
    unfold pollTurn
    split
    · exact .inl rfl
    · exact .inr rfl
  · refine .inr (.inr (.inr (.inr (.inr ⟨_, .inr ‹_›, ?_⟩))))
    unfold pollTurn
    split
    · exact .inl rfl
    · exact .inr rfl

/-- A host access goes on exactly when it is an aligned word, with the effect of the read or write. -/
theorem hostStep_next {op : HostOp} {s t : State} (h : hostStep op s = .next t) :
    (∃ o : BitVec 22, op = .read 4 o ∧ o.toNat % 4 = 0 ∧
        t = hostRead s (targetAt s.params o.toNat)) ∨
      (∃ (o : BitVec 22) (v : Word), op = .write 4 o v ∧ o.toNat % 4 = 0 ∧
        t = writeTarget s v (targetAt s.params o.toNat)) := by
  cases op with
  | read size o =>
    by_cases ha : accessAllowed size o = true
    · rw [hostStep, if_pos ha] at h
      simp only [accessAllowed, Bool.and_eq_true, beq_iff_eq] at ha
      obtain ⟨rfl, ho⟩ := ha
      cases h
      exact .inl ⟨o, rfl, ho, rfl⟩
    · rw [hostStep, if_neg ha] at h
      cases h
  | write size o v =>
    by_cases ha : accessAllowed size o = true
    · rw [hostStep, if_pos ha] at h
      simp only [accessAllowed, Bool.and_eq_true, beq_iff_eq] at ha
      obtain ⟨rfl, ho⟩ := ha
      cases h
      exact .inr ⟨o, v, rfl, ho, rfl⟩
    · rw [hostStep, if_neg ha] at h
      cases h

end Sys2Proof.Machine
end

