-- ==== Sys2Proof/Laws/PerInstr.lean ====
section
/-!
SUPPORT. Sys2Proof/Laws/PerInstr.lean: facts stated of every command, one lemma per constructor.
-/

namespace Sys2Proof.Laws

/-- The opcode byte of a command in the opcode map (30_encoding.md R99). -/
def opcodeOf : Instr → BitVec 8
  | .bmGet => 0x10#8
  | .bmSet _ => 0x11#8
  | .bmCopy => 0x12#8
  | .bmRev => 0x13#8
  | .bmMatch _ => 0x14#8
  | .bmSeek _ => 0x15#8
  | .bmReadw _ => 0x16#8
  | .lcManch _ _ _ _ => 0x20#8
  | .lcDiffm => 0x21#8
  | .crc8 => 0x30#8
  | .crc16 => 0x31#8
  | .pcSnap => 0x40#8
  | .pcClassify _ => 0x41#8
  | .pcTobits _ => 0x42#8
  | .pcScan => 0x43#8

/-- The low byte of an appended word. -/
theorem low_byte_append {n : Nat} (x : BitVec n) (op : BitVec 8) :
    (x ++ op).extractLsb' 0 8 = op := by
  apply BitVec.eq_of_getLsbD_eq
  intro i hi
  simp [BitVec.getLsbD_append, hi]

end Sys2Proof.Laws

namespace Sys2Proof.Laws.EncodedOpcode

/-- The word of a command carries its opcode in bits 7:0, whatever its fields are (R90, R99). -/
def Statement (i : Instr) : Prop := opcodeField (encode i) = opcodeOf i

theorem bmGet : Statement .bmGet := low_byte_append _ _
theorem bmSet (val : Bool) : Statement (.bmSet val) := low_byte_append _ _
theorem bmCopy : Statement .bmCopy := low_byte_append _ _
theorem bmRev : Statement .bmRev := low_byte_append _ _
theorem bmMatch (plen : BitVec 7) : Statement (.bmMatch plen) := low_byte_append _ _
theorem bmSeek (plen : BitVec 7) : Statement (.bmSeek plen) := low_byte_append _ _
theorem bmReadw (nbits : BitVec 6) : Statement (.bmReadw nbits) := low_byte_append _ _
theorem lcManch (opat zpat : BitVec 8) (olen zlen : BitVec 4) :
    Statement (.lcManch opat zpat olen zlen) := low_byte_append _ _
theorem lcDiffm : Statement .lcDiffm := low_byte_append _ _
theorem crc8 : Statement .crc8 := low_byte_append _ _
theorem crc16 : Statement .crc16 := low_byte_append _ _
theorem pcSnap : Statement .pcSnap := low_byte_append _ _
theorem pcClassify (src : Src) : Statement (.pcClassify src) := low_byte_append _ _
theorem pcTobits (src : Src) : Statement (.pcTobits src) := low_byte_append _ _
theorem pcScan : Statement .pcScan := low_byte_append _ _

end Sys2Proof.Laws.EncodedOpcode
end

