-- ==== Sys2Proof/Machine/HostProgram.lean ====
section
/-!
DEFINITION. Sys2Proof/Machine/HostProgram.lean: host programs in the syntax of 30_encoding.md R105 to R107,
as lists of turns for `State.schedule` (log 21). They are the host's, not commands of the core.
-/

namespace Sys2Proof.Machine

/-- An aligned 32-bit write at a byte offset (R74). -/
def wrAt (offset : Nat) (v : Word) : Event := .host (.write 4 (BitVec.ofNat 22 offset) v)

/-- An aligned 32-bit read at a byte offset (R74). -/
def rdAt (offset : Nat) : Event := .host (.read 4 (BitVec.ofNat 22 offset))

/-- `wr REG, v` (R105). -/
def wr (r : Reg) (v : Word) : Event := wrAt r.offset v

/-- `rd REG` (R105). -/
def rd (r : Reg) : Event := rdAt r.offset

/-- The ARG writes of a command, in ARG order from `ARGn` on (R106). -/
def wrArgs : Nat → List Word → List Event
  | _, [] => []
  | n, v :: rest => wrAt (0x010 + 4 * n) v :: wrArgs (n + 1) rest

/-- The pattern writes of a format P command (R106). -/
def wrPattern : Option (BitVec 64) → List Event
  | none => []
  | some p => [wr .patlo (p.extractLsb' 0 32), wr .pathi (p.extractLsb' 32 32)]

/-- The expansion of a command mnemonic (R106): ARG writes, pattern writes, the `CMD` write, `wait`. -/
def command (i : Instr) (args : List Word) (pat : Option (BitVec 64) := none) : List Event :=
  wrArgs 0 args ++ wrPattern pat ++ [wr .cmd (encode i), .waitIdle]

/-- `pc.scan`: its `wait` would return at the first decoder wait; programs use `waitscan` (R105). -/
def scanCommand : List Event := [wr .cmd (encode .pcScan), .waitScan]

/-- `push lvl, dur` (R107). -/
def push (level : Bool) (dur : Word) : List Event := [wr .pushLvl (Word.ofBit level), wr .pushDur dur]

/-- `verdict d, off, cnt` (R107). -/
def verdict (d : Bool) (off cnt : Word) : List Event :=
  [wr .decBitoff off, wr .decBitcnt cnt, wr .decVerdict (Word.ofBit d)]

/-- `crc8.chk base, n, init, poly` (R107). DESIGN CHOICE, unsafe, log 24: for `n = 0` the count is
`2 ^ 32 - 1`, which issue rejects. -/
def crc8Chk (base n init poly : Word) : List Event := command .crc8 [base, n - 1#32, init, poly]

/-- The pass condition of `crc8.chk`: the result is the trailing byte (R107). DESIGN CHOICE, unsafe,
log 24: for `base + n = 0` the address is cut at 0. DESIGN CHOICE, safe, log 26: a trailing byte at or past
`BMEM_BYTES`, to which R71 gives no value, is the power-on draw of its address. -/
def crc8ChkPass (s : State) (base n : Nat) : Bool :=
  s.result0 == BitVec.setWidth 32 (memRead s.bmem (base + n - 1))

/-- `crc16.zero base, n, init, poly` (R107). -/
def crc16Zero (base n init poly : Word) : List Event := command .crc16 [base, n, init, poly]

/-- The pass condition of `crc16.zero` (R107, R164). -/
def crc16ZeroPass (s : State) : Bool := s.result0 == 0#32

/-- `crc16.cmp base, n, init, poly` (R107). DESIGN CHOICE, unsafe, log 24: for `n < 2` the count is taken
modulo `2 ^ 32`, and issue rejects it. -/
def crc16Cmp (base n init poly : Word) : List Event := command .crc16 [base, n - 2#32, init, poly]

/-- The pass condition of `crc16.cmp`: the trailing two bytes, high byte first (R107, R165). DESIGN
CHOICE, unsafe, log 24: for `base + n < 2` an address below 0 is cut at 0. DESIGN CHOICE, safe, log 26:
a trailing byte at or past `BMEM_BYTES`, to which R71 gives no value, is the power-on draw of its address. -/
def crc16CmpPass (s : State) (base n : Nat) : Bool :=
  s.result0.toNat == (memRead s.bmem (base + n - 2)).toNat * 256 + (memRead s.bmem (base + n - 1)).toNat

end Sys2Proof.Machine
end

