-- ==== Sys2Proof/Machine/Run.lean ====
section
/-!
DEFINITION. Sys2Proof/Machine/Run.lean: when a run of a host program ends and what is observed of it
(70_reset_and_hazards.md R292, D50; log 25).
-/

namespace Sys2Proof.Machine

/-- A turn of the host: an access or a polling directive (R105). -/
def Event.isHost : Event → Bool
  | .host _ => true
  | .capture _ => false
  | .pe => false
  | .sq => false
  | .waitIdle => true
  | .waitScan => true

/-- The host has taken its last step, and its last `wait` or `waitscan` has returned (R292): no turn of
the host is left in the schedule (log 25). -/
def State.hostDone (s : State) : Bool := s.schedule.all fun e => !e.isHost

/-- A run ends when the host is done, no command is pending, and the scan sequencer is idle or waits for
a verdict that no host turn will bring (R292). -/
def State.runEnded (s : State) : Bool :=
  s.hostDone && !s.pe.pending && (decide (s.sq.phase = .idle) || decide (s.sq.phase = .wait))

/-- The observation of a run (R292): the register file in the order of R20, the contents of the four
memories and the interrupt output. -/
structure Observation where
  registers : List Word
  bmem : List Byte
  ring : List Pulse
  snap : List Pulse
  det : List Pulse
  irq : Bool
deriving DecidableEq, Repr

/-- The contents of a pulse memory of `cap` entries. -/
def readPulses (which : PulseMemory) (m : List (Nat × Pulse)) (cap : Nat) : List Pulse :=
  (List.range cap).map (pulseRead which m)

/-- What is observed of a final state (R292). Nothing of the model's own fields is in it. -/
def State.observe (s : State) : Observation :=
  { registers := Reg.all.map (readReg s)
    bmem := readBytes s.bmem 0 s.params.bmemBytes
    ring := readPulses .ring s.ring s.params.pulseCap
    snap := readPulses .snap s.snap s.params.pulseCap
    det := readPulses .det s.det s.params.pulseCap
    irq := s.irq }

/-- What becomes of a run (R292). -/
inductive RunResult where
  /-- The run has ended, with nothing left to do. -/
  | ended (o : Observation)
  /-- The run has ended with the scan waiting for ever for a verdict (R216, U7). -/
  | hang (o : Observation)
  /-- The machine stopped with a fault, which no run does (log 11). -/
  | fault (f : Fault)
  /-- The run is refused, whatever follows (R74, R292). -/
  | refused (r : Refusal)
  /-- The steps allowed were not enough. -/
  | running (s : State)
deriving DecidableEq, Repr

/-- The result of a run that ends in this state: a hang if the scan still waits (R292). -/
def State.endResult (s : State) : RunResult :=
  if s.sq.phase = .wait then .hang s.observe else .ended s.observe

/-- A run of at most so many steps: it stops where it has ended, or where a step stops (R292). -/
def runFrom : Nat → State → RunResult
  | 0, s => if s.runEnded then s.endResult else .running s
  | n + 1, s =>
    if s.runEnded then s.endResult
    else
      match step s with
      | .next t => runFrom n t
      | .fault f => .fault f
      | .refused r => .refused r

/-- A run of a host program, with the turns of the other agents that fall into it (R292, R14). -/
def runProgram (fuel : Nat) (program : List Event) (s : State) : RunResult :=
  runFrom fuel { s with schedule := program }

end Sys2Proof.Machine
end

