-- ==== Sys2Proof/Laws/Run.lean ====
section
/-!
SUPPORT. Sys2Proof/Laws/Run.lean: what a run can answer, and what its observation is.
-/

namespace Sys2Proof.Machine

variable (s : State)

@[simp] theorem State.observe_registers : s.observe.registers = Reg.all.map (readReg s) := rfl
@[simp] theorem State.observe_bmem : s.observe.bmem = readBytes s.bmem 0 s.params.bmemBytes := rfl
@[simp] theorem State.observe_ring :
    s.observe.ring = readPulses .ring s.ring s.params.pulseCap := rfl
@[simp] theorem State.observe_snap :
    s.observe.snap = readPulses .snap s.snap s.params.pulseCap := rfl
@[simp] theorem State.observe_det : s.observe.det = readPulses .det s.det s.params.pulseCap := rfl
@[simp] theorem State.observe_irq : s.observe.irq = s.irq := rfl

/-- The model's own fields are not observed. -/
theorem State.observe_ignores_model_fields (schedule : List Event) (readData : Word) (draws : Nat) :
    State.observe { s with schedule := schedule, readData := readData, draws := draws } = s.observe := rfl

/-- A run has ended exactly when the host is done and the core is not busy. -/
theorem State.runEnded_iff : s.runEnded = true ↔ s.hostDone = true ∧ s.busy = false := by
  unfold State.runEnded State.busy State.sqEnabled
  cases s.hostDone <;> cases s.pe.pending <;> cases s.sq.phase <;> decide

/-- The host is done exactly when each turn left is one of capture or of an engine. -/
theorem State.hostDone_iff : s.hostDone = true ↔ ∀ e ∈ s.schedule, e.isHost = false := by
  simp [State.hostDone]

variable {s}

theorem runFrom_of_ended (h : s.runEnded = true) (n : Nat) : runFrom n s = s.endResult := by
  cases n <;> exact if_pos h

theorem runFrom_zero (h : s.runEnded = false) : runFrom 0 s = .running s := by
  simp [runFrom, h]

theorem runFrom_next {t : State} (h : s.runEnded = false) (hs : step s = .next t) (n : Nat) :
    runFrom (n + 1) s = runFrom n t := by
  simp [runFrom, h, hs]

theorem runFrom_fault {f : Fault} (h : s.runEnded = false) (hs : step s = .fault f) (n : Nat) :
    runFrom (n + 1) s = .fault f := by
  simp [runFrom, h, hs]

/-- A refused access refuses the run, whatever follows it (R292). -/
theorem runFrom_refused {r : Refusal} (h : s.runEnded = false) (hs : step s = .refused r) (n : Nat) :
    runFrom (n + 1) s = .refused r := by
  simp [runFrom, h, hs]

theorem stepN_succ_of_next {t : State} (hs : step s = .next t) (n : Nat) : stepN (n + 1) s = stepN n t := by
  simp [stepN, hs]

/-- What a run's answer says of the steps from its start. -/
def RunAnswers (n : Nat) (s : State) : RunResult → Prop
  | .ended o => ∃ k t, k ≤ n ∧ stepN k s = .next t ∧ t.runEnded = true ∧ t.sq.phase = .idle ∧
      o = t.observe
  | .hang o => ∃ k t, k ≤ n ∧ stepN k s = .next t ∧ t.runEnded = true ∧ t.sq.phase = .wait ∧
      o = t.observe
  | .fault f => ∃ k, k ≤ n ∧ stepN k s = .fault f
  | .refused r => ∃ k, k ≤ n ∧ stepN k s = .refused r
  | .running t => stepN n s = .next t ∧ t.runEnded = false

theorem RunAnswers.endResult (h : s.runEnded = true) (n : Nat) : RunAnswers n s s.endResult := by
  unfold State.endResult
  split
  · exact ⟨0, s, Nat.zero_le n, rfl, h, ‹_›, rfl⟩
  · rename_i hw
    have hp : s.sq.phase = .idle := by
      have := h
      simp only [State.runEnded, Bool.and_eq_true, Bool.or_eq_true, decide_eq_true_eq, hw, or_false] at this
      exact this.2
    exact ⟨0, s, Nat.zero_le n, rfl, h, hp, rfl⟩

/-- An answer about the rest of a run is one about the run. -/
theorem RunAnswers.step {t : State} (hs : Machine.step s = .next t) {n : Nat} {r : RunResult}
    (h : RunAnswers n t r) : RunAnswers (n + 1) s r := by
  cases r with
  | ended o =>
    obtain ⟨k, u, hk, hu, h⟩ := h
    exact ⟨k + 1, u, Nat.succ_le_succ hk, (stepN_succ_of_next hs k).trans hu, h⟩
  | hang o =>
    obtain ⟨k, u, hk, hu, h⟩ := h
    exact ⟨k + 1, u, Nat.succ_le_succ hk, (stepN_succ_of_next hs k).trans hu, h⟩
  | fault f =>
    obtain ⟨k, hk, hu⟩ := h
    exact ⟨k + 1, Nat.succ_le_succ hk, (stepN_succ_of_next hs k).trans hu⟩
  | refused r =>
    obtain ⟨k, hk, hu⟩ := h
    exact ⟨k + 1, Nat.succ_le_succ hk, (stepN_succ_of_next hs k).trans hu⟩
  | running u => exact ⟨(stepN_succ_of_next hs n).trans h.1, h.2⟩

/-- Everything a run can answer. -/
theorem runFrom_answers (n : Nat) (s : State) : RunAnswers n s (runFrom n s) := by
  induction n generalizing s with
  | zero =>
    cases h : s.runEnded with
    | true =>
      rw [runFrom_of_ended h]
      exact .endResult h 0
    | false =>
      rw [runFrom_zero h]
      exact ⟨rfl, h⟩
  | succ n ih =>
    cases h : s.runEnded with
    | true =>
      rw [runFrom_of_ended h]
      exact .endResult h (n + 1)
    | false =>
      cases hs : step s with
      | next t =>
        rw [runFrom_next h hs]
        exact .step hs (ih t)
      | fault f =>
        rw [runFrom_fault h hs]
        exact ⟨1, Nat.succ_le_succ (Nat.zero_le n), by simp [stepN, hs]⟩
      | refused r =>
        rw [runFrom_refused h hs]
        exact ⟨1, Nat.succ_le_succ (Nat.zero_le n), by simp [stepN, hs]⟩

/-- More steps do not change the answer of a run that needs no more. -/
theorem runFrom_stable (n m : Nat) (s : State) (h : ∀ t, runFrom n s ≠ .running t) :
    runFrom (n + m) s = runFrom n s := by
  induction n generalizing s with
  | zero =>
    cases he : s.runEnded with
    | true => rw [runFrom_of_ended he, runFrom_of_ended he]
    | false => exact absurd (runFrom_zero he) (h s)
  | succ n ih =>
    rw [Nat.succ_add]
    cases he : s.runEnded with
    | true => rw [runFrom_of_ended he, runFrom_of_ended he]
    | false =>
      cases hs : step s with
      | next t =>
        simp only [runFrom_next he hs] at h ⊢
        exact ih t h
      | fault f => rw [runFrom_fault he hs, runFrom_fault he hs]
      | refused r => rw [runFrom_refused he hs, runFrom_refused he hs]

end Sys2Proof.Machine
end

