-- ==== Sys2Proof/Tests/Slice0.lean ====
section
/-!
SUPPORT. Sys2Proof/Tests/Slice0.lean: small tests, their expected values taken from the spec (the section is
named at each), and for every statement with hypotheses a state and operands that meet them.
-/

namespace Sys2Proof.Tests

open Sys2Proof Sys2Proof.Machine

/-! Helpers. -/

/-- A machine with 4 pulse slots and 16 bytes of BMEM. -/
def small : State := State.powerOn 4 16

/-- Bytes from address 0 on. -/
def bytesAt0 : Nat → List Nat → List Host.Cell
  | _, [] => []
  | a, b :: rest => (a, BitVec.ofNat 8 b) :: bytesAt0 (a + 1) rest

/-- Pulses from slot 0 on. -/
def pulsesAt0 : Nat → List (Bool × Nat) → List (Nat × Pulse)
  | _, [] => []
  | k, (l, d) :: rest => (k, { level := l, dur := BitVec.ofNat 32 d }) :: pulsesAt0 (k + 1) rest

/-- Seven operands, and 0 in `ARG7`. -/
def operands (a0 a1 a2 a3 a4 a5 a6 : Nat) : Vector Word 8 :=
  #v[BitVec.ofNat 32 a0, BitVec.ofNat 32 a1, BitVec.ofNat 32 a2, BitVec.ofNat 32 a3,
    BitVec.ofNat 32 a4, BitVec.ofNat 32 a5, BitVec.ofNat 32 a6, 0#32]

/-- The small machine with a command accepted by the primitive engine. -/
def accepted (i : Instr) (args : Vector Word 8) (bytes : List Nat) (pat : BitVec 64 := 0#64) : State :=
  { small with
    bmem := bytesAt0 0 bytes
    pe := { pending := true, copyIdx := 0, sampledW := 0
            latch := { word := encode i, args := args, pat := pat, cfg := ConfigRegs.reset 16 } } }

/-- The small machine with a scan in a phase, its window the byte 0, `MIN_RUN` 1, `MIN_CLASS_CNT` 1,
no lookback and no lookahead. -/
def scanning (phase : Phase) (bypass : Bool) (snap : List (Bool × Nat)) : State :=
  { small with
    snap := pulsesAt0 0 snap
    ring := pulsesAt0 0 snap
    sq := { SqState.idle with
      phase := phase
      latch :=
        { word := 0x00000043#32, args := operands 0 0 0 0 0 0 0, pat := 0#64
          cfg := { ConfigRegs.reset 16 with
            minRun := 1#32, minClassCnt := 1#8, lookback := 0#16, lookahead := 0#16
            winLen := 1#32, decBypass := bypass } } } }

/-- What a next state holds, if there is one. -/
def after {α : Type} (o : Host.Outcome State Fault Refusal) (f : State → α) : Option α :=
  match o with
  | .next t => some (f t)
  | .fault _ => none
  | .refused _ => none

/-- The first bytes of BMEM after a step. -/
def bytesAfter (o : Host.Outcome State Fault Refusal) (n : Nat) : Option (List Byte) :=
  after o fun t => readBytes t.bmem 0 n

/-! WellFormed: one ill-formed command for each check (R102). -/

theorem test_wellFormed_match_plen : (Instr.bmMatch 65#7).wellFormed = false := by decide
theorem test_wellFormed_seek_plen : (Instr.bmSeek 65#7).wellFormed = false := by decide
theorem test_wellFormed_readw_nbits : (Instr.bmReadw 33#6).wellFormed = false := by decide
theorem test_wellFormed_manch_olen_low : (Instr.lcManch 0#8 0#8 0#4 2#4).wellFormed = false := by decide
theorem test_wellFormed_manch_olen_high : (Instr.lcManch 0#8 0#8 9#4 2#4).wellFormed = false := by decide
theorem test_wellFormed_manch_zlen_low : (Instr.lcManch 0#8 0#8 2#4 0#4).wellFormed = false := by decide
theorem test_wellFormed_manch_zlen_high : (Instr.lcManch 0#8 0#8 2#4 9#4).wellFormed = false := by decide

/-! Decoding, words written out from the formats of R91: reserved bits, fields, opcode. -/

theorem test_decode_bmGet : decode (0#24 ++ 0b00010000#8) = .ok .bmGet := by decide
theorem test_decode_bmSet : decode (0#23 ++ 0b1#1 ++ 0b00010001#8) = .ok (.bmSet true) := by decide
theorem test_decode_bmCopy : decode (0#24 ++ 0b00010010#8) = .ok .bmCopy := by decide
theorem test_decode_bmRev : decode (0#24 ++ 0b00010011#8) = .ok .bmRev := by decide
theorem test_decode_bmMatch : decode (0#17 ++ 0b1000000#7 ++ 0b00010100#8) = .ok (.bmMatch 64#7) := by
  decide
theorem test_decode_bmSeek : decode (0#17 ++ 0b0001100#7 ++ 0b00010101#8) = .ok (.bmSeek 12#7) := by
  decide
theorem test_decode_bmReadw : decode (0#18 ++ 0b100000#6 ++ 0b00010110#8) = .ok (.bmReadw 32#6) := by
  decide
theorem test_decode_lcManch :
    decode (0b00000001#8 ++ 0b00000110#8 ++ 0b0001#4 ++ 0b0011#4 ++ 0b00100000#8) =
      .ok (.lcManch 1#8 6#8 1#4 3#4) := by decide
theorem test_decode_lcDiffm : decode (0#24 ++ 0b00100001#8) = .ok .lcDiffm := by decide
theorem test_decode_crc8 : decode (0#24 ++ 0b00110000#8) = .ok .crc8 := by decide
theorem test_decode_crc16 : decode (0#24 ++ 0b00110001#8) = .ok .crc16 := by decide
theorem test_decode_pcSnap : decode (0#24 ++ 0b01000000#8) = .ok .pcSnap := by decide
theorem test_decode_pcClassify_snap : decode (0#23 ++ 0b0#1 ++ 0b01000001#8) = .ok (.pcClassify .snap) := by
  decide
theorem test_decode_pcClassify_det : decode (0#23 ++ 0b1#1 ++ 0b01000001#8) = .ok (.pcClassify .det) := by
  decide
theorem test_decode_pcTobits : decode (0#23 ++ 0b1#1 ++ 0b01000010#8) = .ok (.pcTobits .det) := by decide
theorem test_decode_pcScan : decode (0#24 ++ 0b01000011#8) = .ok .pcScan := by decide

/-- R100 and program P5 of 95_test_vectors.md: no command has the opcode 0x17. -/
theorem test_decode_illegal_opcode : decode 0x00000017#32 = .error .illegalOpcode := by decide
/-- Program P5: bit 8 is reserved in format N. -/
theorem test_decode_reserved_bit : decode 0x00000110#32 = .error .reservedBits := by decide
/-- Program P5: `PLEN` 65. -/
theorem test_decode_field_range : decode 0x00004114#32 = .error .fieldRange := by decide
/-- The table's row of `BM.SET` with its field bit 1. -/
theorem test_decodeTableWord : decodeTableWord 32 0x111 = some (.bmSet true) := by decide

/-! Commands: the vectors of 95_test_vectors.md. -/

/-- Section 2.1: `bm.get 0, 2, 0` on `A5 0F`. -/
theorem test_bmGet : after (exec .bmGet (accepted .bmGet (operands 0 2 0 0 0 0 0) [0xA5, 0x0F]))
    (fun t => (t.result0, t.pe.pending, t.irqStatus)) = some (1#32, false, 1#5) := by decide

/-- Section 2.1: `bm.get 0, 2, 16` is past the end. -/
theorem test_bmGet_past : after (exec .bmGet (accepted .bmGet (operands 0 2 16 0 0 0 0) [0xA5, 0x0F, 0xFF]))
    (·.result0) = some 0#32 := by decide

/-- Section 1.1: `bm.set 0, 2, 1, 1`. -/
theorem test_bmSet : bytesAfter (exec (.bmSet true)
    (accepted (.bmSet true) (operands 0 2 1 0 0 0 0) [0xA5, 0x0F, 0x77])) 3 =
      some [0xE5#8, 0x0F#8, 0x77#8] := by decide

/-- Section 1.1: `bm.set 0, 2, 16, 1` writes nothing. -/
theorem test_bmSet_past : bytesAfter (exec (.bmSet true)
    (accepted (.bmSet true) (operands 0 2 16 0 0 0 0) [0xA5, 0x0F, 0x77])) 3 =
      some [0xA5#8, 0x0F#8, 0x77#8] := by decide

/-- Section 2.1: forward overlap. -/
theorem test_bmCopy_overlap : bytesAfter (exec .bmCopy
    (accepted .bmCopy (operands 0 1 1 0 1 0 7) [0xB0])) 1 = some [0xFF#8] := by decide

/-- Section 2.1: bits past the destination are dropped. -/
theorem test_bmCopy_past : bytesAfter (exec .bmCopy
    (accepted .bmCopy (operands 2 1 4 0 2 0 12) [0xFF, 0xFF, 0x00, 0x55])) 4 =
      some [0xFF#8, 0xFF#8, 0x0F#8, 0x55#8] := by decide

/-- Section 2.1: `bm.rev 0, 2`. -/
theorem test_bmRev : bytesAfter (exec .bmRev (accepted .bmRev (operands 0 2 0 0 0 0 0) [0xA5, 0x0F, 0x01])) 3 =
    some [0xA5#8, 0xF0#8, 0x01#8] := by decide

/-- Section 2.1: `bm.match 0, 2, 12, "111100"`: the tail past the end reads 0. -/
theorem test_bmMatch : after (exec (.bmMatch 6#7)
    (accepted (.bmMatch 6#7) (operands 0 2 12 0 0 0 0) [0xA5, 0x0F] 0x3C#64))
      (fun t => (t.result0, t.found)) = some (1#32, true) := by decide

/-- Section 2.1: a pattern of 64 bits. -/
theorem test_bmMatch_64 : after (exec (.bmMatch 64#7)
    (accepted (.bmMatch 64#7) (operands 0 4 0 0 0 0 0) [0xA7, 0xF0, 0xA7, 0xF0] 0xA7F0A7F000000000#64))
      (fun t => (t.result0, t.found)) = some (1#32, true) := by decide

/-- Section 2.1: `bm.seek 0, 2, 0, 13, "1111"`. -/
theorem test_bmSeek : after (exec (.bmSeek 4#7)
    (accepted (.bmSeek 4#7) (operands 0 2 0 13 0 0 0) [0xA5, 0x0F] 0xF#64))
      (fun t => (t.result0, t.found)) = some (12#32, true) := by decide

/-- Section 2.1: `bm.seek 0, 2, 0, 12, "1111"`. -/
theorem test_bmSeek_none : after (exec (.bmSeek 4#7)
    (accepted (.bmSeek 4#7) (operands 0 2 0 12 0 0 0) [0xA5, 0x0F] 0xF#64))
      (fun t => (t.result0, t.found)) = some (0xFFFFFFFF#32, false) := by decide

/-- Section 2.1: `bm.readw 0, 2, 4, 8`. -/
theorem test_bmReadw : after (exec (.bmReadw 8#6)
    (accepted (.bmReadw 8#6) (operands 0 2 4 0 0 0 0) [0xA5, 0x0F])) (·.result0) = some 0x50#32 := by
  decide

/-- Section 2.1: `bm.readw 0, 2, 0, 32`. -/
theorem test_bmReadw_past : after (exec (.bmReadw 32#6)
    (accepted (.bmReadw 32#6) (operands 0 2 0 0 0 0 0) [0xA5, 0x0F])) (·.result0) =
      some 0xA50F0000#32 := by decide

/-- Section 2.2: the three-bit patterns on `C7 1C`. -/
theorem test_lcManch : after (exec (.lcManch 1#8 6#8 3#4 3#4)
    (accepted (.lcManch 1#8 6#8 3#4 3#4) (operands 0 2 0 8 1 0 0) [0xC7, 0x1C, 0, 0, 0, 0, 0, 0, 0]))
      (fun t => (t.result0, t.result1, memRead t.bmem 8)) = some (5#32, 15#32, 0x50#8) := by decide

/-- Section 2.2: `69` from bit 1: the pair `11` stops at once. -/
theorem test_lcManch_stop : after (exec (.lcManch 2#8 1#8 2#4 2#4)
    (accepted (.lcManch 2#8 1#8 2#4 2#4) (operands 0 1 1 8 1 0 0) [0x69]))
      (fun t => (t.result0, t.result1)) = some (0#32, 1#32) := by decide

/-- Section 1.3: data `1011`. -/
theorem test_lcDiffm : after (exec .lcDiffm
    (accepted .lcDiffm (operands 0 2 0 8 1 4 0) [0x69, 0x80, 0, 0, 0, 0, 0, 0, 0]))
      (fun t => (t.result0, t.result1, memRead t.bmem 8)) = some (4#32, 9#32, 0xB0#8) := by decide

/-- Section 1.3: raw bit 3 flipped. -/
theorem test_lcDiffm_flip : after (exec .lcDiffm
    (accepted .lcDiffm (operands 0 2 0 8 1 4 0) [0x79, 0x80, 0, 0, 0, 0, 0, 0, 0]))
      (fun t => (t.result0, t.result1, memRead t.bmem 8)) = some (1#32, 3#32, 0x80#8) := by decide

/-- Section 1.4: "123456789", poly 0x07, init 0x01. -/
theorem test_crc8 : after (exec .crc8 (accepted .crc8 (operands 0 9 1 7 0 0 0)
    [0x31, 0x32, 0x33, 0x34, 0x35, 0x36, 0x37, 0x38, 0x39])) (·.result0) = some 0x8D#32 := by
  decide +kernel

/-- 42_crc.md R163: "123456789", poly 0x1021, init 0xFFFF. -/
theorem test_crc16 : after (exec .crc16 (accepted .crc16 (operands 0 9 0xFFFF 0x1021 0 0 0)
    [0x31, 0x32, 0x33, 0x34, 0x35, 0x36, 0x37, 0x38, 0x39])) (·.result0) = some 0x29B1#32 := by
  decide +kernel

/-- R183: the last slot of a snapshot of a ring of four whose write index was 1. -/
theorem test_pcSnap : after (exec .pcSnap
    { accepted .pcSnap (operands 0 0 0 0 0 0 0) [] with
      ring := pulsesAt0 0 [(true, 7), (false, 8), (true, 9), (false, 10)]
      pe := { pending := true, copyIdx := 3, sampledW := 1, latch := Latch.blank } })
      (fun t => (pulseRead .snap t.snap 3, t.result0, t.snapWidx, t.pe.pending)) =
    some ({ level := true, dur := 7#32 }, 1#32, 1#32, false) := by decide

/-- 43_classifier.md R192, case C: 100 and 120 are near at 20 percent. -/
theorem test_pcClassify : after (exec (.pcClassify .snap)
    { accepted (.pcClassify .snap) (operands 0 0 0 0 0 0 0) [] with
      snap := pulsesAt0 0 [(true, 100), (true, 120), (true, 100), (false, 5000)] })
      (fun t => (t.result0, t.result1, t.cls.high.s0)) =
    some (3#32, 106#32, { avg := 106#32, cnt := 3#32 }) := by decide

/-- R194, R196: 250 over a unit of 100 is 2 and a half, an exact half down; 251 is 3. -/
theorem test_pcTobits : after (exec (.pcTobits .det)
    { accepted (.pcTobits .det) (operands 3 2 100 0 1 0 0) [0x00] with
      det := pulsesAt0 0 [(true, 251), (true, 1), (true, 1), (false, 250)] })
      (fun t => (t.result0, memRead t.bmem 0)) = some (5#32, 0x38#8) := by decide

/-- R214, R215: the window of a run of two pulses. -/
theorem test_pcScan_convert : after (exec .pcScan
    (let s := scanning .convert false [(true, 100), (false, 200), (true, 5000), (true, 5000)]
     { s with bmem := bytesAt0 0 [0xFF, 0xFF], sq := { s.sq with len := 2, unit := 100 } }))
      (fun t => (readBytes t.bmem 0 2, t.decNbits, t.sq.phase, t.irqStatus)) =
    some ([0x80#8, 0xFF#8], 3#32, .wait, 2#5) := by decide

/-- R220: a longer run replaces the held best and rotates its pulses to the run's start. -/
theorem test_pcScan_update : after (exec .pcScan
    (let s := scanning .update true [(true, 9), (false, 200), (true, 100), (true, 5000)]
     { s with sq := { s.sq with cursor := 1, len := 2, unit := 100, nb := 3 } }))
      (fun t => (t.best.len, t.best.start, pulseRead .det t.det 3, t.scanCur, t.sq.phase, t.irqStatus)) =
    some (2#32, 1#32, { level := true, dur := 9#32 }, 3#32, .classify, 8#5) := by decide

/-! The step and the host's port. -/

/-- Log 5: the word placed is the command the next step runs. -/
theorem test_withFetchWord : after (step (State.reset.withFetchWord 32 0x43))
    (fun t => (t.sq.phase, t.sq.copyIdx)) = some (.copy, 1) := by decide

/-- Program P5: a second command while the first is pending is rejected with code 5. -/
theorem test_issue_busy : after (hostStep (.write 4 0x00C#22 0x13#32) (accepted .bmRev (operands 0 2 0 0 0 0 0) []))
    (fun t => (t.errCode, t.irqStatus, t.cmd)) = some (5#8, 4#5, 0x13#32) := by decide

/-- Program P1: bytes `A5 0F` written by one word, lowest address in bits 7:0. -/
theorem test_aperture_write : bytesAfter (hostStep (.write 4 0x100000#22 0x00000FA5#32) small) 2 =
    some [0xA5#8, 0x0F#8] := by decide

/-- R292: a run of `bm.rev 0, 2` on `A5 0F` ends with the register file, the memories and `irq`. -/
theorem test_run_ends :
    (match runProgram 8 [wr (.arg 1) 2#32, wr .cmd 0x13#32, .waitIdle] { small with bmem := bytesAt0 0 [0xA5, 0x0F] } with
      | .ended o => o.bmem.take 2 == [0xA5#8, 0xF0#8] && o.registers.length == Reg.all.length && !o.irq
      | _ => false) = true := by decide

/-- R292: a scan whose verdict does not come is a hang. -/
theorem test_run_hangs :
    (match runProgram 1 [.waitScan] (scanning .wait false []) with
      | .hang _ => true
      | _ => false) = true := by decide

/-- R292, R74: a halfword access refuses the run, whatever follows. -/
theorem test_run_refused :
    runProgram 8 [.host (.read 2 0x008#22), rd .status] small = .refused .hostAccess := by decide

/-! Witnesses: for every statement with hypotheses, a state and operands that meet them all, at the
boundary of each clause. -/

/-- Both engines' latches hold words that decode; the scan runs over a snapshot of all four slots. -/
def walking (phase : Phase) (bypass : Bool) : State :=
  scanning phase bypass [(true, 100), (true, 5000), (false, 7), (true, 5000)]

/-- The primitive engine in the middle of a snapshot. -/
def snapping : State :=
  { accepted .pcSnap (operands 0 0 0 0 0 0 0) [] with
    ring := pulsesAt0 0 [(true, 7), (false, 8), (true, 9), (false, 10)] }

theorem witness_DecodeOfEncode :
    (Instr.bmMatch 64#7).wellFormed = true ∧ (Instr.bmSeek 0#7).wellFormed = true ∧
      (Instr.bmReadw 32#6).wellFormed = true ∧ (Instr.lcManch 0xFF#8 0x00#8 8#4 1#4).wellFormed = true ∧
      (Instr.pcScan).wellFormed = true := by decide

theorem witness_EncodeOfDecode :
    decode 0x00004014#32 = .ok (.bmMatch 64#7) ∧
      decode 0xFF008120#32 = .ok (.lcManch 0xFF#8 0x00#8 8#4 1#4) := by decide

theorem witness_FourClassesOfWords :
    decode 0x00000044#32 = .error .illegalOpcode ∧ decode 0x00004016#32 = .error .reservedBits ∧
      decode 0x00002116#32 = .error .fieldRange ∧ decode 0x00002016#32 = .ok (.bmReadw 32#6) := by decide

theorem witness_MalformedWordsAreRejected :
    small.busy = false ∧ (0x0F#32).toNat % 256 ≤ 0x0F ∧
      (0x17 ≤ (0x17#32).toNat % 256 ∧ (0x1F#32).toNat % 256 ≤ 0x1F) ∧
      (0x22 ≤ (0x22#32).toNat % 256 ∧ (0x2F#32).toNat % 256 ≤ 0x2F) ∧
      (0x32 ≤ (0x32#32).toNat % 256 ∧ (0x3F#32).toNat % 256 ≤ 0x3F) ∧ 0x44 ≤ (0x44#32).toNat % 256 ∧
      ((0x00000010#32, 0xFFFFFFFF#32) ∈ specRows ∧ 0x110#32 &&& 0xFF#32 = 0x10#32 ∧
        0x110#32 &&& 0xFFFFFFFF#32 ≠ 0x10#32) ∧
      (ReservedClean 0x4114#32 ∧ FieldIllegal 0x4114#32) ∧
      (ReservedClean 0x2116#32 ∧ FieldIllegal 0x2116#32) ∧
      (ReservedClean 0x0820#32 ∧ FieldIllegal 0x0820#32) := by
  unfold ReservedClean FieldIllegal
  decide

theorem witness_IssueReportsFirstError :
    snapping.busy = true ∧ small.busy = false ∧ ¬ OpcodeInMap 0x44#32 ∧
      (OpcodeInMap 0x110#32 ∧ ¬ ReservedClean 0x110#32) ∧
      (ReservedClean 0x4114#32 ∧ FieldIllegal 0x4114#32) ∧
      (ReservedClean 0x4014#32 ∧ ¬ FieldIllegal 0x4014#32) ∧
      ((walking .wait false).busy = false ∧ (walking .wait false).scanning = true) ∧
      (DescriptorOutside { small with args := operands 16 1 0 0 0 0 0 } 0x10#32 ∧
        ¬ DescriptorOutside { small with args := operands 15 1 0 0 0 0 0 } 0x10#32) := by
  unfold OpcodeInMap ReservedClean FieldIllegal DescriptorOutside
  decide

theorem witness_RejectionChangesOnlyTheReport :
    ∃ t, hostStep (.write 4 0x00C#22 0x17#32) small = .next t ∧ t.errCode ≠ 0x00#8 :=
  ⟨_, rfl, by decide⟩

theorem witness_AcceptanceLatchesAndStarts :
    (∃ t, hostStep (.write 4 0x00C#22 0x13#32) small = .next t ∧ t.errCode = 0x00#8) ∧
      ∃ t, hostStep (.write 4 0x00C#22 0x43#32) small = .next t ∧ t.errCode = 0x00#8 :=
  ⟨⟨_, rfl, by decide⟩, ⟨_, rfl, by decide⟩⟩

theorem witness_CommandsUseLatchedOperandsOnly : ∃ t, exec .pcSnap snapping = .next t := ⟨_, rfl⟩

theorem witness_CommandsWriteNoHostRegister : ∃ t, exec .pcScan (walking .update true) = .next t :=
  ⟨_, rfl⟩

theorem witness_CommandsStayInsideTheirBuffers :
    (∃ t, exec .pcScan (walking .convert true) = .next t) ∧
      ∃ t, exec .bmRev (accepted .bmRev (operands 14 2 0 0 0 0 0) []) = .next t ∧
        ¬ InSome (touched .bmRev (accepted .bmRev (operands 14 2 0 0 0 0 0) [])) 13 :=
  ⟨⟨_, rfl⟩, ⟨_, rfl, by unfold InSome; decide⟩⟩

theorem witness_StepRunsLatchedCommand :
    (snapping.pe.pending = true ∧ decode snapping.pe.latch.word = .ok .pcSnap ∧ snapping.schedule = []) ∧
      ({ snapping with schedule := [.pe] }.schedule = .pe :: [] ∧
        { snapping with schedule := [.waitIdle] }.schedule = .waitIdle :: []) ∧
      ((walking .done true).sqEnabled = true ∧ (walking .done true).pe.pending = false ∧
        decode (walking .done true).sq.latch.word = .ok .pcScan) ∧
      { walking .done true with schedule := [.sq] }.schedule = .sq :: [] ∧
      ({ walking .done true with schedule := [.waitIdle] }.schedule = .waitIdle :: [] ∧
        { walking .done true with schedule := [.waitScan] }.schedule = .waitScan :: []) := by decide

/-- The invariant holds of a machine in the middle of a snapshot. -/
theorem witness_inv_snapping : Inv snapping := by
  refine ⟨by unfold ParamsLegal; decide, by unfold MemoriesWf; decide, by decide, ?_, ?_, ?_, ?_, ?_⟩
  · unfold ConfigLegal; decide
  · intro _
    have h : decode snapping.pe.latch.word = .ok .pcSnap := by decide
    simp only [h]
    decide
  · intro h; exact absurd rfl h
  · intro _; decide
  · intro _; rfl

/-- The invariant holds of a machine at the start of a scan that answers its own requests. -/
theorem witness_inv_copying : Inv (walking .copy true) := by
  refine ⟨by unfold ParamsLegal; decide, by unfold MemoriesWf; decide, by decide, ?_, ?_, ?_, ?_, ?_⟩
  · unfold ConfigLegal; decide
  · intro h; exact absurd h (by decide)
  · intro _; decide
  · intro h; exact absurd h (by decide)
  · intro _; rfl

theorem witness_StepKeepsInvariant :
    (Inv snapping ∧ ∃ t, step snapping = .next t) ∧
      Inv (walking .copy true) ∧ ∃ t, step (walking .copy true) = .next t :=
  ⟨⟨witness_inv_snapping, ⟨_, rfl⟩⟩, witness_inv_copying, ⟨_, rfl⟩⟩

theorem witness_PowerOnSatisfiesInvariant :
    ParamsLegal { pulseCap := 1, bmemBytes := 1 } ∧
      ParamsLegal { pulseCap := 131072, bmemBytes := 1048576 } := by
  unfold ParamsLegal
  decide +kernel

theorem witness_RunsNeverStop :
    (Inv snapping ∧ NextAccessAllowed snapping) ∧
      Inv { snapping with schedule := [.host (.read 4 0x3FFFFC#22)] } ∧
        NextAccessAllowed { snapping with schedule := [.host (.read 4 0x3FFFFC#22)] } :=
  ⟨⟨witness_inv_snapping, trivial⟩, witness_inv_snapping, by unfold NextAccessAllowed; decide⟩

/-- A bitmap command whose first buffer is the last two bytes of BMEM. -/
def atTheEnd (i : Instr) (a2 a3 a4 a5 a6 : Nat) : State :=
  accepted i (operands 14 2 a2 a3 a4 a5 a6) [0xA6, 0xA9]

theorem witness_BmGetReadsOneBit :
    (atTheEnd .bmGet 15 0 0 0 0).pe.latch.arg 0 + (atTheEnd .bmGet 15 0 0 0 0).pe.latch.arg 1 ≤
      (atTheEnd .bmGet 15 0 0 0 0).params.bmemBytes := by decide

theorem witness_BmSetWritesOneBit :
    (atTheEnd (.bmSet true) 15 0 0 0 0).pe.latch.arg 0 + (atTheEnd (.bmSet true) 15 0 0 0 0).pe.latch.arg 1 ≤
        (atTheEnd (.bmSet true) 15 0 0 0 0).params.bmemBytes ∧
      (atTheEnd (.bmSet true) 15 0 0 0 0).pe.latch.arg 2 <
        8 * (atTheEnd (.bmSet true) 15 0 0 0 0).pe.latch.arg 1 ∧
      ¬ (atTheEnd (.bmSet true) 16 0 0 0 0).pe.latch.arg 2 <
        8 * (atTheEnd (.bmSet true) 16 0 0 0 0).pe.latch.arg 1 := by decide

theorem witness_BmCopyIsAscendingLoop :
    let s := atTheEnd .bmCopy 15 13 3 0 24
    s.pe.latch.arg 0 + s.pe.latch.arg 1 ≤ s.params.bmemBytes ∧
      s.pe.latch.arg 3 + s.pe.latch.arg 4 ≤ s.params.bmemBytes ∧ 0 < s.pe.latch.arg 6 := by decide

theorem witness_BmCopyBetweenDisjointBuffers :
    let s := atTheEnd .bmCopy 15 0 14 0 24
    s.pe.latch.arg 0 + s.pe.latch.arg 1 ≤ s.params.bmemBytes ∧
      s.pe.latch.arg 3 + s.pe.latch.arg 4 ≤ s.params.bmemBytes ∧
      NoSharedByte s.pe.latch.buf0 s.pe.latch.buf3 := by
  unfold NoSharedByte
  decide

theorem witness_BmRevReversesEachByte :
    (atTheEnd .bmRev 0 0 0 0 0).pe.latch.arg 0 + (atTheEnd .bmRev 0 0 0 0 0).pe.latch.arg 1 ≤
      (atTheEnd .bmRev 0 0 0 0 0).params.bmemBytes := by decide

theorem witness_BmMatchTestsThePattern :
    (atTheEnd (.bmMatch 64#7) 15 0 0 0 0).pe.latch.arg 0 + (atTheEnd (.bmMatch 64#7) 15 0 0 0 0).pe.latch.arg 1 ≤
      (atTheEnd (.bmMatch 64#7) 15 0 0 0 0).params.bmemBytes := by decide

theorem witness_BmSeekFindsLowestMatch :
    let s := accepted (.bmSeek 4#7) (operands 0 2 0 16 0 0 0) [0xA5, 0x0F] 0xF#64
    ParamsLegal s.params ∧ s.pe.latch.arg 0 + s.pe.latch.arg 1 ≤ s.params.bmemBytes ∧
      Matches s.bmem { base := 0, len := 2 } 12 (fun i => s.pe.latch.pat.getLsbD (3 - i)) 4 := by
  unfold ParamsLegal Matches
  decide

theorem witness_BmReadwSumsTheBits :
    (atTheEnd (.bmReadw 32#6) 0 0 0 0 0).pe.latch.arg 0 + (atTheEnd (.bmReadw 32#6) 0 0 0 0 0).pe.latch.arg 1 ≤
      (atTheEnd (.bmReadw 32#6) 0 0 0 0 0).params.bmemBytes := by decide

theorem witness_LcManchRunsTheLoop :
    let s := accepted (.lcManch 0x02#8 0x01#8 2#4 2#4) (operands 0 4 0 14 2 0 0) [0xA6, 0xA9, 0x99, 0xA6]
    (Instr.lcManch 0x02#8 0x01#8 2#4 2#4).wellFormed = true ∧
      (Instr.lcManch 0xFF#8 0x00#8 1#4 8#4).wellFormed = true ∧
      s.pe.latch.arg 0 + s.pe.latch.arg 1 ≤ s.params.bmemBytes ∧
      s.pe.latch.arg 3 + s.pe.latch.arg 4 ≤ s.params.bmemBytes := by decide

/-- The byte `DE`, Manchester encoded, where the input ends and where `00` follows (section 1.2). -/
theorem witness_ManchesterRoundTrip :
    let s := accepted (.lcManch 0x02#8 0x01#8 2#4 2#4) (operands 0 2 0 15 1 0 0) [0xA6, 0xA9]
    let s' := accepted (.lcManch 0x01#8 0x02#8 2#4 2#4) (operands 0 3 0 15 1 0 0) [0x59, 0x56, 0x00]
    let d := fun j => (0xDE#8).getLsbD (7 - j)
    (s.pe.latch.arg 0 + s.pe.latch.arg 1 ≤ s.params.bmemBytes ∧
      s.pe.latch.arg 3 + s.pe.latch.arg 4 ≤ s.params.bmemBytes ∧
      NoSharedByte s.pe.latch.buf0 s.pe.latch.buf3 ∧ s.pe.latch.arg 2 = 0 ∧ 1 ≤ s.pe.latch.arg 4 ∧
      (∀ j, j < 8 * 1 → bget s.bmem s.pe.latch.buf0 (2 * j) = (d j ^^ false) ∧
        bget s.bmem s.pe.latch.buf0 (2 * j + 1) = !(d j ^^ false)) ∧ s.pe.latch.arg 1 = 2 * 1) ∧
    NoSharedByte s'.pe.latch.buf0 s'.pe.latch.buf3 ∧
      (∀ j, j < 8 * 1 → bget s'.bmem s'.pe.latch.buf0 (2 * j) = (d j ^^ true) ∧
        bget s'.bmem s'.pe.latch.buf0 (2 * j + 1) = !(d j ^^ true)) ∧
      (2 * 1 < s'.pe.latch.arg 1 ∧
        bget s'.bmem s'.pe.latch.buf0 (16 * 1) = bget s'.bmem s'.pe.latch.buf0 (16 * 1 + 1)) := by
  unfold NoSharedByte
  decide

theorem witness_LcDiffmRunsTheLoop :
    let s := fun start => accepted .lcDiffm (operands 0 2 start 8 1 4 0) [0x69, 0x80]
    (s 0).pe.latch.arg 0 + (s 0).pe.latch.arg 1 ≤ (s 0).params.bmemBytes ∧
      (s 0).pe.latch.arg 3 + (s 0).pe.latch.arg 4 ≤ (s 0).params.bmemBytes ∧
      8 * (s 16).pe.latch.arg 1 ≤ (s 16).pe.latch.arg 2 ∧
      (s 15).pe.latch.arg 2 < 8 * (s 15).pe.latch.arg 1 := by decide

/-- The raw bits `011010011` of the data `1011` (section 1.3). -/
def rawBits (j : Nat) : Bool := [false, true, true, false, true, false, false, true, true].getD j false

/-- The data bits `1011` (section 1.3). -/
def dataBits (j : Nat) : Bool := [true, false, true, true].getD j false

theorem witness_DiffManchesterRoundTrip :
    let s := accepted .lcDiffm (operands 0 2 0 8 1 4 0) [0x69, 0x80]
    s.pe.latch.arg 0 + s.pe.latch.arg 1 ≤ s.params.bmemBytes ∧
      s.pe.latch.arg 3 + s.pe.latch.arg 4 ≤ s.params.bmemBytes ∧
      NoSharedByte s.pe.latch.buf0 s.pe.latch.buf3 ∧ s.pe.latch.arg 5 = 4 ∧
      s.pe.latch.arg 2 + 2 * 4 + 1 ≤ 8 * s.pe.latch.arg 1 ∧ DiffEncodes rawBits dataBits 4 ∧
      ∀ j, j ≤ 2 * 4 → bget s.bmem s.pe.latch.buf0 (s.pe.latch.arg 2 + j) = rawBits j := by
  unfold NoSharedByte DiffEncodes
  decide

/-- Section 1.3's flips of bits 1, 3, 6 and 8, one for each clause. -/
theorem witness_DiffManchesterBitFlip :
    let s := fun b0 b1 => accepted .lcDiffm (operands 0 2 0 8 1 4 0) [b0, b1]
    NoSharedByte (s 0 0).pe.latch.buf0 (s 0 0).pe.latch.buf3 ∧ DiffEncodes rawBits dataBits 4 ∧
      (s 0 0).pe.latch.arg 2 + 2 * 4 + 1 ≤ 8 * (s 0 0).pe.latch.arg 1 ∧ (s 0 0).pe.latch.arg 5 = 4 ∧
      ∀ e ∈ [(0x29, 0x80, 1), (0x79, 0x80, 3), (0x6B, 0x80, 6), (0x69, 0x00, 8)],
        ∀ j, j ≤ 2 * 4 → bget (s e.1 e.2.1).bmem (s e.1 e.2.1).pe.latch.buf0
          ((s e.1 e.2.1).pe.latch.arg 2 + j) = (rawBits j ^^ decide (j = e.2.2)) := by
  unfold NoSharedByte DiffEncodes
  decide

theorem witness_CrcCommandsRunTheLoops :
    (atTheEnd .crc8 0 0 0 0 0).pe.latch.arg 0 + (atTheEnd .crc8 0 0 0 0 0).pe.latch.arg 1 ≤
      (atTheEnd .crc8 0 0 0 0 0).params.bmemBytes := by decide

theorem witness_CrcLaws :
    (0x07#8).getLsbD 0 = true ∧ (0x1021#16).getLsbD 0 = true ∧
      crc8Of 0x07#8 0x5A#8 [0x31#8] = crc8Of 0x07#8 0x5A#8 [0x31#8] := by decide

theorem witness_AppendTakesTheWriteSlot :
    { small with schedule := [.capture { level := true, dur := 7#32 }] }.schedule =
      .capture { level := true, dur := 7#32 } :: [] := rfl

theorem witness_PcSnapCopiesOneSlot :
    snapping.pe.copyIdx + 1 < snapping.params.pulseCap ∧
      { snapping with pe := { snapping.pe with copyIdx := 3 } }.params.pulseCap ≤
        { snapping with pe := { snapping.pe with copyIdx := 3 } }.pe.copyIdx + 1 := by decide

theorem witness_PcSnapCopiesTheRing :
    ParamsLegal snapping.params ∧ snapping.schedule = [] ∧ snapping.pe.pending = true ∧
      snapping.pe.latch.word = 0x00000040#32 ∧ snapping.pe.copyIdx = 0 := by
  unfold ParamsLegal
  decide

theorem witness_ClassifierInvariants :
    let pulse := pulsesOf .snap (walking .classify true).snap 4
    (∀ j, j < 4 → j ≤ (classifyRun (walking .classify true).sq.latch.cfg pulse 4 0).1 →
        pulse (0 + j) = pulse (0 + j)) ∧
      0 < unitOf (walking .classify true).sq.latch.cfg
        (classifyRun (walking .classify true).sq.latch.cfg pulse 4 0).2 := by decide

theorem witness_PcTobitsConvertsThePulses :
    let s := accepted (.pcTobits .det) (operands 0 4 100 14 2 0 0) []
    s.pe.latch.arg 3 + s.pe.latch.arg 4 ≤ s.params.bmemBytes := by decide

theorem witness_ScanCopyStep :
    (walking .copy true).sq.phase = .copy ∧
      (walking .copy true).sq.copyIdx + 1 < (walking .copy true).params.pulseCap ∧
      { walking .copy true with sq := { (walking .copy true).sq with copyIdx := 3 } }.params.pulseCap ≤
        { walking .copy true with sq := { (walking .copy true).sq with copyIdx := 3 } }.sq.copyIdx + 1 := by
  decide

/-- At cursor 0 the run has one pulse, at cursor 1 none. -/
theorem witness_ScanClassifyStep :
    (walking .classify true).sq.phase = .classify ∧
      after (exec .pcScan (walking .classify true)) (·.sq.phase) = some .convert ∧
      after (exec .pcScan
        { walking .classify true with sq := { (walking .classify true).sq with cursor := 1 } })
          (fun t => (t.sq.phase, t.sq.cursor)) = some (.classify, 2) := by decide

theorem witness_ScanConvertStep :
    ∀ b : Bool, (walking .convert b).sq.phase = .convert ∧ 1 ≤ (walking .convert b).params.pulseCap ∧
      (walking .convert b).sq.latch.cfg.winBase.toNat + (walking .convert b).sq.latch.cfg.winLen.toNat ≤
        (walking .convert b).params.bmemBytes ∧ (walking .convert b).sq.latch.cfg.decBypass = b := by
  decide

/-- A candidate of one pulse, the unit of its run, at cursor 0. -/
def candidate : State :=
  { walking .update true with
    sq := { (walking .update true).sq with len := 1, unit := 100, nb := 1 } }

theorem witness_ScanUpdateStep :
    candidate.sq.phase = .update ∧
      (candidate.best.decoded = false ∧
        (candidate.best.len.toNat < candidate.sq.len ∨ candidate.sq.vd = true)) ∧
      ¬ ({ candidate with best := { candidate.best with len := 1#32 } }.best.decoded = false ∧
        ({ candidate with best := { candidate.best with len := 1#32 } }.best.len.toNat < candidate.sq.len ∨
          candidate.sq.vd = true)) := by decide

theorem witness_ScanDoneAndDisabledSteps :
    (walking .done true).sq.phase = .done ∧ (walking .wait true).sq.phase = .wait ∧
      small.sq.phase = .idle := by decide

theorem witness_VerdictOnlyInItsWindow :
    ((walking .wait false).decWait = true ∧ (walking .wait false).busy = false) ∧
      ¬ (small.decWait = true ∧ small.busy = false) := by decide

theorem witness_BypassedScanEnds :
    let s := walking .copy true
    Inv s ∧ s.schedule = [] ∧ s.pe.pending = false ∧ s.sq.phase = .copy ∧ s.sq.copyIdx = 0 ∧
      s.sq.nreq = 0 ∧ s.sq.latch.cfg.decBypass = true :=
  ⟨witness_inv_copying, by decide⟩

/-- The class table of a run of one high pulse of 100. -/
def oneHigh : ClassTable Nat := (ClassTable.empty 0).setSlot true 0 { avg := 100, cnt := 1 }

theorem oneHigh_walk :
    ClassWalk candidate.sq.latch.cfg (pulsesOf .snap candidate.snap candidate.params.pulseCap)
      candidate.params.pulseCap candidate.sq.cursor 0 (ClassTable.empty 0) candidate.sq.len oneHigh :=
  .opened 0 (by decide) (by unfold Rejected; decide) (fun k h => absurd h (by decide +revert)) (by decide)
    (.rejected (by decide) (by unfold Rejected; decide))

theorem oneHigh_unit : IsUnit candidate.sq.latch.cfg oneHigh candidate.sq.unit :=
  ⟨none, some 100, by unfold LevelLeast Qualifies; decide, by unfold LevelLeast Qualifies; decide, by decide⟩

/-- The primitive engine with `pc.classify 0, det` accepted on the pulses of the replaced best. -/
def reclassifying (t : State) : State :=
  { t with pe := { pending := true, copyIdx := 0, sampledW := 0
                   latch := { candidate.sq.latch with word := 0x00000141#32 } } }

theorem witness_HeldBestReclassifies :
    ∃ t, exec .pcScan candidate = .next t ∧ 1 ≤ candidate.params.pulseCap ∧ candidate.sq.phase = .update ∧
      ClassWalk candidate.sq.latch.cfg (pulsesOf .snap candidate.snap candidate.params.pulseCap)
        candidate.params.pulseCap candidate.sq.cursor 0 (ClassTable.empty 0) candidate.sq.len oneHigh ∧
      IsUnit candidate.sq.latch.cfg oneHigh candidate.sq.unit ∧ candidate.best.decoded = false ∧
      (candidate.best.len.toNat < candidate.sq.len ∨ candidate.sq.vd = true) ∧
      (reclassifying t).params = t.params ∧ (reclassifying t).det = t.det ∧
      (reclassifying t).pe.latch.cfg = candidate.sq.latch.cfg ∧ (reclassifying t).pe.latch.arg 0 = 0 :=
  ⟨_, rfl, by decide, by decide, oneHigh_walk, oneHigh_unit, by decide, by decide, rfl, rfl, rfl, by decide⟩

/-- The scan at CONVERT with a run of one pulse of unit 100. -/
def converting : State :=
  { walking .convert true with sq := { (walking .convert true).sq with len := 1, unit := 100 } }

/-- `pc.tobits 0, 1, 100, 0, 1, det` accepted on a cleared window and the rotated snapshot. -/
def rebuilding : State :=
  { converting with
    det := converting.snap, bmem := bytesAt0 0 [0]
    pe := { pending := true, copyIdx := 0, sampledW := 0
            latch := { converting.sq.latch with
              word := 0x00000142#32, args := operands 0 1 100 0 1 0 0 } } }

theorem witness_HeldBestRebuildsItsWindow :
    1 ≤ converting.params.pulseCap ∧ converting.sq.phase = .convert ∧
      (∃ t, exec .pcScan converting = .next t) ∧ rebuilding.params = converting.params ∧
      (∀ j, j < converting.params.pulseCap → pulseRead .det rebuilding.det j =
        pulseRead .snap converting.snap ((converting.sq.cursor + j) % converting.params.pulseCap)) ∧
      rebuilding.pe.latch.cfg.repCap = converting.sq.latch.cfg.repCap ∧
      rebuilding.pe.latch.arg 0 = (converting.params.pulseCap -
        converting.sq.latch.cfg.lookback.toNat % converting.params.pulseCap) %
          converting.params.pulseCap ∧
      rebuilding.pe.latch.arg 1 = converting.sq.latch.cfg.lookback.toNat + converting.sq.len +
        converting.sq.latch.cfg.lookahead.toNat ∧
      rebuilding.pe.latch.arg 2 = converting.sq.unit ∧
      rebuilding.pe.latch.arg 3 = converting.sq.latch.cfg.winBase.toNat ∧
      rebuilding.pe.latch.arg 4 = converting.sq.latch.cfg.winLen.toNat ∧
      ∀ p, bget rebuilding.bmem converting.sq.latch.window p = false := by
  refine ⟨by decide, by decide, ⟨_, rfl⟩, by decide, by decide, by decide, by decide, by decide, by decide,
    by decide, by decide, fun p => ?_⟩
  have h : ∀ q, q < 8 → bget rebuilding.bmem converting.sq.latch.window q = false := by decide
  by_cases hp : p < 8
  · exact h p hp
  · exact if_neg hp

theorem witness_DecodedBestStaysUntilCleared :
    let s := { candidate with best := { candidate.best with valid := true, decoded := true } }
    s.best.decoded = true ∧ ∃ t, step s = .next t :=
  ⟨rfl, ⟨_, rfl⟩⟩

theorem witness_OnlyAlignedWordsAreAccepted :
    ((4 : Nat) ≠ 4 ∨ (0x001#22).toNat % 4 ≠ 0) ∧ ((2 : Nat) ≠ 4 ∨ (0x000#22).toNat % 4 ≠ 0) ∧
      (0x3FFFFC#22).toNat % 4 = 0 := by decide

theorem witness_ReadsHaveNoSideEffect :
    (∃ t, hostStep (.read 4 0x038#22) small = .next t) ∧
      ∃ t, hostStep (.read 4 0x038#22) snapping = .next t :=
  ⟨⟨_, rfl⟩, ⟨_, rfl⟩⟩

theorem witness_RegisterFileReads : small.busy = false ∧ (walking .wait false).busy = false := by decide

/-- Offsets at the ends of the ranges of both clauses, of a machine of 4 slots and 16 bytes. -/
theorem witness_BusyReadsAreDraws :
    snapping.busy = true ∧
      ([0x090#22, 0x0A4#22, 0x0B0#22, 0x0C4#22, 0x0D0#22, 0x0E8#22, 0x100000#22, 0x10000C#22,
        0x200000#22, 0x20001C#22, 0x300000#22, 0x30001C#22, 0x000#22, 0x034#22, 0x050#22, 0x074#22,
        0x0F8#22, 0x100#22, 0x108#22, 0x118#22].all fun o => o.toNat % 4 == 0) = true ∧
      (0x10000C#22).toNat < 0x100000 + 4 * ((snapping.params.bmemBytes + 3) / 4) ∧
      (0x20001C#22).toNat < 0x200000 + 8 * snapping.params.pulseCap ∧
      (0x30001C#22).toNat < 0x300000 + 8 * snapping.params.pulseCap := by decide +kernel

/-- The first and last unmapped word of each range, of a machine of 4 slots and 16 bytes. -/
theorem witness_UnmappedOffsets :
    (0x048#22).toNat % 4 = 0 ∧ 0x11C ≤ (0x11C#22).toNat ∧ (0x0FFFFC#22).toNat < 0x100000 ∧
      0x100000 + 4 * ((small.params.bmemBytes + 3) / 4) ≤ (0x100010#22).toNat ∧
      0x200000 + 8 * small.params.pulseCap ≤ (0x200020#22).toNat ∧ (0x2FFFFC#22).toNat < 0x300000 ∧
      0x300000 + 8 * small.params.pulseCap ≤ (0x300020#22).toNat := by decide +kernel

theorem witness_CtrlActions :
    ((0x10#32).getLsbD 1 = false ∧ (0x10#32).getLsbD 0 = false ∧ (0x10#32).getLsbD 2 = false) ∧
      ((0x05#32).getLsbD 1 = false ∧ (0x05#32).getLsbD 0 = true ∧ snapping.busy = true) ∧
      ((0x04#32).getLsbD 1 = false ∧ (0x04#32).getLsbD 2 = true ∧ small.busy = false ∧
        small.scanning = false) ∧
      ((walking .wait false).busy = false ∧ (walking .wait false).scanning = true) := by decide

theorem witness_SoftResetFromAnyState : (0x02#32).getLsbD 1 = true := by decide

/-- The last word of an aperture of 1023 bytes and of the largest one. -/
theorem witness_BmemApertureWords :
    (ParamsLegal (State.powerOn 4 1023).params ∧ 1020 % 4 = 0 ∧
      1020 < 4 * (((State.powerOn 4 1023).params.bmemBytes + 3) / 4) ∧ (State.powerOn 4 1023).busy = false) ∧
      (ParamsLegal (State.powerOn 4 1048576).params ∧
        1048572 < 4 * (((State.powerOn 4 1048576).params.bmemBytes + 3) / 4)) ∧
      ParamsLegal snapping.params ∧ snapping.busy = true := by
  unfold ParamsLegal
  decide +kernel

theorem witness_PulseApertures :
    ParamsLegal small.params ∧ 3 < small.params.pulseCap ∧ small.busy = false := by
  unfold ParamsLegal
  decide

end Sys2Proof.Tests
end

section
/-!
PROOFS. The machine invariant: power-on satisfies it (O13) and every step of every agent keeps it (O12).
First what each part of the invariant asks of a state, then one lemma per update of the machine, then the
commands, the scan steps, the host's accesses and the turns, each assembled from the updates it is made of.
-/

namespace Sys2Proof.Machine

/-! What the invariant asks of the two engines. -/

section Parts

variable {s : State}

theorem peLegal_of_not_pending (hp : s.pe.pending = false) : PeLegal s := fun h => by simp [hp] at h

theorem enginesExclusive_of_not_pending (hp : s.pe.pending = false) : EnginesExclusive s :=
  fun h => by simp [hp] at h

theorem sqLegal_of_idle (hi : s.sq.phase = .idle) : SqLegal s := fun h => absurd hi h

theorem sqEnabled_iff : s.sqEnabled = true ↔ s.sq.phase ≠ .idle ∧ s.sq.phase ≠ .wait := by
  simp [State.sqEnabled]

theorem scanning_eq_false_iff : s.scanning = false ↔ s.sq.phase = .idle := by simp [State.scanning]

theorem busy_eq_false_iff : s.busy = false ↔ s.pe.pending = false ∧ s.sqEnabled = false := by
  simp [State.busy]

/-- What `PeLegal` asks of a latched word that decodes, in one form for all commands: `PC.SNAP` names no
descriptor, so the range clause says nothing of it. -/
theorem peLegal_iff_of_decode {i : Instr} (hd : decode s.pe.latch.word = .ok i) :
    PeLegal s ↔ (s.pe.pending = true → i ≠ .pcScan ∧
      (i = .pcSnap → s.pe.copyIdx < s.params.pulseCap ∧ s.pe.sampledW < s.params.pulseCap ∧
        s.sq.phase = .idle) ∧
      inRange (descriptors i s.pe.latch) s.params.bmemBytes = true) := by
  unfold PeLegal
  rw [hd]
  cases i <;> simp [descriptors]

theorem peLegal_of_decode {i : Instr} (hd : decode s.pe.latch.word = .ok i) (hi : i ≠ .pcScan)
    (hsnap : i = .pcSnap → s.pe.copyIdx < s.params.pulseCap ∧ s.pe.sampledW < s.params.pulseCap ∧
      s.sq.phase = .idle)
    (hr : inRange (descriptors i s.pe.latch) s.params.bmemBytes = true) : PeLegal s :=
  (peLegal_iff_of_decode hd).2 fun _ => ⟨hi, hsnap, hr⟩

/-- What an active scan keeps from its acceptance to its end (R210): the latched word and window, and the
sampled write index. -/
def ScanLatched (s : State) : Prop :=
  decode s.sq.latch.word = .ok .pcScan ∧ inRange [s.sq.latch.window] s.params.bmemBytes = true ∧
    s.sq.sampledW < s.params.pulseCap

theorem SqLegal.latched (h : SqLegal s) (ha : s.sq.phase ≠ .idle) : ScanLatched s := by
  obtain ⟨hl, -⟩ := h ha
  exact hl

theorem SqLegal.copyIdx_lt (h : SqLegal s) (hp : s.sq.phase = .copy) :
    s.sq.copyIdx < s.params.pulseCap := by
  obtain ⟨-, hc, -⟩ := h (by simp [hp])
  exact hc hp

theorem SqLegal.cursor_lt (h : SqLegal s) (hp : s.sq.phase = .classify ∨ s.sq.phase = .convert ∨
    s.sq.phase = .wait ∨ s.sq.phase = .update) : s.sq.cursor < s.params.pulseCap := by
  obtain ⟨-, -, hc, -⟩ := h (fun hi => by simp [hi] at hp)
  exact hc hp

theorem SqLegal.len_le (h : SqLegal s)
    (hp : s.sq.phase = .convert ∨ s.sq.phase = .wait ∨ s.sq.phase = .update) :
    s.sq.len ≤ s.params.pulseCap := by
  obtain ⟨-, -, -, hn, -⟩ := h (fun hi => by simp [hi] at hp)
  exact hn hp

theorem sqLegal_of_copy (hl : ScanLatched s) (hp : s.sq.phase = .copy)
    (hc : s.sq.copyIdx < s.params.pulseCap) : SqLegal s :=
  fun _ => ⟨hl, fun _ => hc, by simp [hp], by simp [hp], by simp [hp]⟩

/-- From CONVERT to UPDATE the cursor is a slot and the run fits in the snapshot. -/
theorem sqLegal_of_run (hl : ScanLatched s)
    (hp : s.sq.phase = .convert ∨ s.sq.phase = .wait ∨ s.sq.phase = .update)
    (hc : s.sq.cursor < s.params.pulseCap) (hn : s.sq.len ≤ s.params.pulseCap) : SqLegal s :=
  fun _ => ⟨hl, fun h => by simp [h] at hp, fun _ => hc, fun _ => hn, fun h => by simp [h] at hp⟩

/-- Wherever the cursor moves below `2*CAP`, the phase it leads to is legal (R213, R221, R223). -/
theorem sqLegal_of_phaseAt (hl : ScanLatched s)
    (hp : s.sq.phase = phaseAt s.params.pulseCap s.sq.cursor)
    (hc : s.sq.cursor < 2 * s.params.pulseCap) : SqLegal s := by
  unfold phaseAt at hp
  split at hp
  · exact fun _ => ⟨hl, by simp [hp], by simp [hp], by simp [hp], fun _ => ⟨‹_›, hc⟩⟩
  · exact fun _ => ⟨hl, by simp [hp], fun _ => by omega, by simp [hp], by simp [hp]⟩

theorem configLegal_reset (bytes : Nat) : ConfigLegal (ConfigRegs.reset bytes) := by
  simp [ConfigLegal, ConfigRegs.reset]

/-- With both engines idle the invariant speaks of parameters, memories, configuration and held best. -/
theorem inv_of_idle (hparams : ParamsLegal s.params) (hmem : MemoriesWf s)
    (hw : s.widx < s.params.pulseCap) (hcfg : ConfigLegal s.regs) (hb : BestLegal s.best)
    (hp : s.pe.pending = false) (hi : s.sq.phase = .idle) : Inv s :=
  ⟨hparams, hmem, hw, hcfg, peLegal_of_not_pending hp, sqLegal_of_idle hi,
    enginesExclusive_of_not_pending hp, hb⟩

end Parts

/-! What the invariant gives. -/

namespace Inv

variable {s : State}

theorem pulseCap_pos (h : Inv s) : 0 < s.params.pulseCap := by
  obtain ⟨⟨⟨hcap, -⟩, -⟩, -⟩ := h
  exact hcap

theorem widx_lt (h : Inv s) : s.widx < s.params.pulseCap := by
  obtain ⟨-, -, hw, -⟩ := h
  exact hw

theorem bmem_wf (h : Inv s) : Memory.wf s.params.bmemBytes s.bmem := by
  obtain ⟨-, ⟨hbmem, -⟩, -⟩ := h
  exact hbmem

theorem peLegal (h : Inv s) : PeLegal s := by
  obtain ⟨-, -, -, -, hpe, -⟩ := h
  exact hpe

theorem sqLegal (h : Inv s) : SqLegal s := by
  obtain ⟨-, -, -, -, -, hsq, -⟩ := h
  exact hsq

/-- While the sequencer is enabled no command is pending (R243). -/
theorem not_pending (h : Inv s) (he : s.sqEnabled = true) : s.pe.pending = false := by
  obtain ⟨-, -, -, -, -, -, hex, -⟩ := h
  by_contra hp
  exact Bool.false_ne_true ((hex (Bool.eq_true_of_not_eq_false hp)).symm.trans he)

/-! Updates of fields of which the invariant does not speak. -/

theorem setResult0 (h : Inv s) (v : Word) : Inv (s.setResult0 v) := h
theorem setResult1 (h : Inv s) (v : Word) : Inv (s.setResult1 v) := h
theorem setFound (h : Inv s) (b : Bool) : Inv (s.setFound b) := h
theorem setScanCur (h : Inv s) (i : Nat) : Inv (s.setScanCur i) := h
theorem setDecNbits (h : Inv s) (v : Word) : Inv { s with decNbits := v } := h
theorem setClassified (h : Inv s) (len unit : Nat) (t : ClassTable Nat) :
    Inv (s.setClassified len unit t) := h
theorem raise (h : Inv s) (bits : BitVec 5) : Inv (s.raise bits) := h
theorem overrun (h : Inv s) : Inv s.overrun := h
theorem reject (h : Inv s) (x : Word) (code : ErrCode) : Inv (s.reject x code) := h
theorem returnWord (h : Inv s) (v : Word) : Inv (s.returnWord v) := h
theorem returnDraw (h : Inv s) : Inv s.returnDraw := h

/-! Updates of the memories, the configuration and the held best. -/

theorem setBmem {m : List Host.Cell} (h : Inv s) (hm : Memory.wf s.params.bmemBytes m) :
    Inv (s.setBmem m) := by
  obtain ⟨hparams, ⟨-, hring, hsnap, hdet⟩, rest⟩ := h
  exact ⟨hparams, ⟨hm, hring, hsnap, hdet⟩, rest⟩

theorem copySlot {c : Nat} (h : Inv s) (hc : c < s.params.pulseCap) (w : Nat) :
    Inv (s.copySlot w c) := by
  obtain ⟨hparams, ⟨hbmem, hring, hsnap, hdet⟩, rest⟩ := h
  exact ⟨hparams, ⟨hbmem, hring, Memory.wf_store hsnap hc _, hdet⟩, rest⟩

theorem appendPulse (h : Inv s) (p : Pulse) : Inv (s.appendPulse p) := by
  have hcap := h.pulseCap_pos
  obtain ⟨hparams, ⟨hbmem, hring, hsnap, hdet⟩, hw, rest⟩ := h
  exact ⟨hparams, ⟨hbmem, Memory.wf_store hring hw p, hsnap, hdet⟩, Nat.mod_lt _ hcap, rest⟩

theorem clearRing (h : Inv s) : Inv s.clearRing := by
  have hcap := h.pulseCap_pos
  obtain ⟨hparams, ⟨hbmem, -, hsnap, hdet⟩, -, rest⟩ := h
  exact ⟨hparams, ⟨hbmem, Memory.wf_tabulate _ _, hsnap, hdet⟩, hcap, rest⟩

theorem setRegs {c : ConfigRegs} (h : Inv s) (hc : ConfigLegal c) : Inv { s with regs := c } := by
  obtain ⟨hparams, hmem, hw, -, rest⟩ := h
  exact ⟨hparams, hmem, hw, hc, rest⟩

theorem clearBest (h : Inv s) : Inv s.clearBest := by
  obtain ⟨hparams, hmem, hw, hcfg, hpe, hsq, hex, -⟩ := h
  exact ⟨hparams, hmem, hw, hcfg, hpe, hsq, hex, fun _ => rfl⟩

theorem replaceBest (h : Inv s) : Inv s.replaceBest := by
  obtain ⟨hparams, ⟨hbmem, hring, hsnap, -⟩, hw, hcfg, hpe, hsq, hex, -⟩ := h
  exact ⟨hparams, ⟨hbmem, hring, hsnap, Memory.wf_tabulate _ _⟩, hw, hcfg, hpe, hsq, hex,
    fun hv => absurd hv (by simp [State.replaceBest, State.candidate])⟩

theorem softReset (h : Inv s) : Inv s.softReset := by
  obtain ⟨hparams, hmem, hw, -⟩ := h
  exact inv_of_idle hparams hmem hw (configLegal_reset _) (fun _ => rfl) rfl rfl

/-! Updates of the engines. -/

theorem completePe (h : Inv s) : Inv s.completePe := by
  obtain ⟨hparams, hmem, hw, hcfg, -, hsq, -, hb⟩ := h
  exact ⟨hparams, hmem, hw, hcfg, peLegal_of_not_pending rfl, hsq,
    enginesExclusive_of_not_pending rfl, hb⟩

/-- While no command is pending the sequencer may take any legal variables. -/
theorem setSq {q : SqState} (h : Inv s) (hp : s.pe.pending = false) (hq : SqLegal (s.setSq q)) :
    Inv (s.setSq q) := by
  obtain ⟨hparams, hmem, hw, hcfg, -, -, -, hb⟩ := h
  exact ⟨hparams, hmem, hw, hcfg, peLegal_of_not_pending hp, hq, enginesExclusive_of_not_pending hp, hb⟩

/-- While the sequencer is not enabled the primitive engine may take any legal command. -/
theorem setPe {p : PeState} (h : Inv s) (he : s.sqEnabled = false) (hp : PeLegal { s with pe := p }) :
    Inv { s with pe := p } := by
  obtain ⟨hparams, hmem, hw, hcfg, -, hsq, -, hb⟩ := h
  exact ⟨hparams, hmem, hw, hcfg, hp, hsq, fun _ => he, hb⟩

end Inv

/-- What is claimed of a step from `s` to `t`: the invariant holds after it and the parameters stay. -/
def KeepsInv (s t : State) : Prop := Inv t ∧ t.params = s.params

section Steps

variable {s t : State}

/-! The commands of the primitive engine. -/

/-- A guarded step keeps the invariant when its result does for descriptors in range. -/
theorem ifInRange_keepsInv {ds : List Desc} {u : State} (hx : ifInRange ds s u = .next t)
    (hu : inRange ds s.params.bmemBytes = true → Inv u) (hp : u.params = s.params) :
    KeepsInv s t := by
  obtain ⟨hr, rfl⟩ := ifInRange_next hx
  exact ⟨hu hr, hp⟩

theorem inRange_pair {d e : Desc} {bytes : Nat} (h : inRange [d, e] bytes = true) :
    d.inRange bytes = true ∧ e.inRange bytes = true := by simpa using h

theorem inRange_single {d : Desc} {bytes : Nat} (h : inRange [d] bytes = true) :
    d.inRange bytes = true := by simpa using h

/-- A step of `PC.SNAP` writes a slot that exists and either moves to the next one or completes (R183). -/
theorem execPcSnap_keepsInv (h : Inv s) (hp : s.pe.pending = true)
    (hd : decode s.pe.latch.word = .ok .pcSnap) (hx : execPcSnap s = .next t) : KeepsInv s t := by
  obtain ⟨-, hsnap, -⟩ := (peLegal_iff_of_decode hd).1 h.peLegal hp
  obtain ⟨hc, hw, hidle⟩ := hsnap rfl
  have hcopy : Inv (s.copySlot s.pe.sampledW s.pe.copyIdx) := h.copySlot hc _
  unfold execPcSnap at hx
  split at hx
  · rename_i hnext
    cases hx
    exact ⟨hcopy.setPe (by simp [State.sqEnabled, hidle])
      (peLegal_of_decode hd nofun (fun _ => ⟨hnext, hw, hidle⟩) rfl), rfl⟩
  · cases hx
    exact ⟨Inv.completePe hcopy, rfl⟩

/-- A step of the pending command keeps the invariant: the commands that write BMEM write inside a
descriptor in range, the others write registers only. -/
theorem exec_pending_keepsInv {i : Instr} (h : Inv s) (hp : s.pe.pending = true)
    (hd : decode s.pe.latch.word = .ok i) (hx : exec i s = .next t) : KeepsInv s t := by
  have hm := h.bmem_wf
  cases i with
  | bmGet => exact ifInRange_keepsInv hx (fun _ => (h.setResult0 _).completePe) rfl
  | bmSet val =>
    exact ifInRange_keepsInv hx
      (fun hr => (h.setBmem (bset_wf hm (inRange_single hr) _ val)).completePe) rfl
  | bmCopy =>
    exact ifInRange_keepsInv hx
      (fun hr => (h.setBmem (copyBits_wf _ (inRange_pair hr).1 _ _ _ hm)).completePe) rfl
  | bmRev =>
    refine ifInRange_keepsInv hx (fun hr => (h.setBmem (reverseBytes_wf _ _ hm ?_)).completePe) rfl
    exact (Desc.inRange_iff _ _).1 (inRange_single hr)
  | bmMatch plen =>
    exact ifInRange_keepsInv hx (fun _ => ((h.setResult0 _).setFound _).completePe) rfl
  | bmSeek plen =>
    exact ifInRange_keepsInv hx (fun _ => ((h.setResult0 _).setFound _).completePe) rfl
  | bmReadw nbits => exact ifInRange_keepsInv hx (fun _ => (h.setResult0 _).completePe) rfl
  | lcManch opat zpat olen zlen =>
    exact ifInRange_keepsInv hx (fun hr => (((h.setBmem
      (manchester_wf (inRange_pair hr).2 _ _ _ _ _ _ hm)).setResult0 _).setResult1 _).completePe) rfl
  | lcDiffm =>
    exact ifInRange_keepsInv hx (fun hr => (((h.setBmem
      (diffManchester_wf (inRange_pair hr).2 _ _ _ hm)).setResult0 _).setResult1 _).completePe) rfl
  | crc8 => exact ifInRange_keepsInv hx (fun _ => (h.setResult0 _).completePe) rfl
  | crc16 => exact ifInRange_keepsInv hx (fun _ => (h.setResult0 _).completePe) rfl
  | pcSnap => exact execPcSnap_keepsInv h hp hd hx
  | pcClassify src =>
    cases hx
    exact ⟨(((h.setClassified _ _ _).setResult0 _).setResult1 _).completePe, rfl⟩
  | pcTobits src =>
    exact ifInRange_keepsInv hx (fun hr => ((h.setBmem
      (toBits_wf (inRange_single hr) _ _ _ _ _ hm)).setResult0 _).completePe) rfl
  | pcScan => exact absurd rfl ((peLegal_iff_of_decode hd).1 h.peLegal hp).1

/-! The steps of the scan sequencer. -/

/-- A run is never longer than the pulses it may read (R187). -/
theorem classifyRun_len_le (cfg : ConfigRegs) (pulse : Nat → Pulse) (cap start : Nat) :
    (classifyRun cfg pulse cap start).1 ≤ cap := by
  have loop : ∀ (fuel len : Nat) (table : ClassTable Nat),
      (classifyLoop cfg pulse start fuel len table).1 ≤ len + fuel := by
    intro fuel
    induction fuel with
    | zero => intro len table; exact le_rfl
    | succ n ih =>
      intro len table
      unfold classifyLoop
      split
      · split
        · exact (ih _ _).trans (by omega)
        · exact Nat.le_add_right _ _
      · exact Nat.le_add_right _ _
  simpa [classifyRun] using loop cap 0 (ClassTable.empty 0)

theorem scanCopy_inv (h : Inv s) (hp : s.pe.pending = false) (hph : s.sq.phase = .copy) :
    Inv s.scanCopy := by
  have hcap := h.pulseCap_pos
  have hl : ScanLatched s := h.sqLegal.latched (by simp [hph])
  have hcopy : Inv (s.copySlot s.sq.sampledW s.sq.copyIdx) := h.copySlot (h.sqLegal.copyIdx_lt hph) _
  unfold State.scanCopy
  split
  · exact hcopy.setSq hp (sqLegal_of_copy hl hph ‹_›)
  · refine Inv.setSq (Inv.setScanCur hcopy 0) hp (sqLegal_of_phaseAt hl ?_ ?_)
    · simp [phaseAt, hcap.ne']
    · simp [hcap]

theorem scanClassify_inv (h : Inv s) (hp : s.pe.pending = false) (hph : s.sq.phase = .classify) :
    Inv s.scanClassify := by
  have hcap := h.pulseCap_pos
  have hl : ScanLatched s := h.sqLegal.latched (by simp [hph])
  have hc := h.sqLegal.cursor_lt (.inl hph)
  unfold State.scanClassify
  dsimp only
  split
  · refine ((h.setClassified _ _ _).setScanCur _).setSq hp (sqLegal_of_phaseAt hl rfl ?_)
    show s.sq.cursor + 1 < 2 * s.params.pulseCap
    omega
  · exact (h.setClassified _ _ _).setSq hp
      (sqLegal_of_run hl (.inl rfl) hc (classifyRun_len_le _ _ _ _))

/-- The window is built inside the latched region, which is in range (R210, R214). -/
theorem scanWindow_wf (h : Inv s) (hl : ScanLatched s) :
    Memory.wf s.params.bmemBytes s.scanWindow.1 := by
  obtain ⟨-, hr, -⟩ := hl
  have hwin := inRange_single hr
  exact toBits_wf hwin _ _ _ _ _ (fillBytes_wf _ _ _ h.bmem_wf ((Desc.inRange_iff _ _).1 hwin))

theorem scanConvert_inv (h : Inv s) (hp : s.pe.pending = false) (hph : s.sq.phase = .convert) :
    Inv s.scanConvert := by
  have hl : ScanLatched s := h.sqLegal.latched (by simp [hph])
  have hc := h.sqLegal.cursor_lt (.inr (.inl hph))
  have hn := h.sqLegal.len_le (.inl hph)
  have hbuilt : Inv (s.setBmem s.scanWindow.1) := h.setBmem (scanWindow_wf h hl)
  unfold State.scanConvert
  split
  · exact (hbuilt.setDecNbits _).setSq hp
      (sqLegal_of_run hl (.inr (.inr rfl)) hc hn)
  · exact ((hbuilt.setDecNbits _).raise _).setSq hp
      (sqLegal_of_run hl (.inr (.inl rfl)) hc hn)

/-- An update advances the cursor from below `CAP` by at least 1 and at most `CAP` (R221, R223). -/
theorem scanUpdate_inv (h : Inv s) (hp : s.pe.pending = false) (hph : s.sq.phase = .update) :
    Inv s.scanUpdate := by
  have hcap := h.pulseCap_pos
  have hl : ScanLatched s := h.sqLegal.latched (by simp [hph])
  have hc := h.sqLegal.cursor_lt (.inr (.inr (.inr hph)))
  have hn := h.sqLegal.len_le (.inr (.inr hph))
  have hnext : s.sq.cursor + max s.sq.len 1 < 2 * s.params.pulseCap := by omega
  unfold State.scanUpdate
  split
  · exact (h.replaceBest.setScanCur _).setSq hp (sqLegal_of_phaseAt hl rfl hnext)
  · exact (h.setScanCur _).setSq hp (sqLegal_of_phaseAt hl rfl hnext)

theorem scanDone_inv (h : Inv s) (hp : s.pe.pending = false) : Inv s.scanDone :=
  ((((h.setResult0 _).setResult1 _).setScanCur _).raise _).setSq hp (sqLegal_of_idle rfl)

theorem scanCopy_params (s : State) : s.scanCopy.params = s.params := by
  unfold State.scanCopy; split <;> rfl

theorem scanClassify_params (s : State) : s.scanClassify.params = s.params := by
  unfold State.scanClassify; dsimp only; split <;> rfl

theorem scanConvert_params (s : State) : s.scanConvert.params = s.params := by
  unfold State.scanConvert; split <;> rfl

theorem scanUpdate_params (s : State) : s.scanUpdate.params = s.params := by
  unfold State.scanUpdate; split <;> rfl

/-- Each phase step of the sequencer keeps the invariant (R211). -/
theorem execPcScan_keepsInv (h : Inv s) (hp : s.pe.pending = false) (hx : execPcScan s = .next t) :
    KeepsInv s t := by
  unfold execPcScan at hx
  cases hph : s.sq.phase with rw [hph] at hx
  | idle => cases hx; exact ⟨h, rfl⟩
  | copy => cases hx; exact ⟨scanCopy_inv h hp hph, scanCopy_params s⟩
  | classify => cases hx; exact ⟨scanClassify_inv h hp hph, scanClassify_params s⟩
  | convert =>
    exact ifInRange_keepsInv hx (fun _ => scanConvert_inv h hp hph) (scanConvert_params s)
  | wait => cases hx; exact ⟨h, rfl⟩
  | update => cases hx; exact ⟨scanUpdate_inv h hp hph, scanUpdate_params s⟩
  | done => cases hx; exact ⟨scanDone_inv h hp, rfl⟩

/-! The turns of the engines. -/

theorem peTurn_keepsInv (h : Inv s) (hx : peTurn s = .next t) : KeepsInv s t := by
  unfold peTurn at hx
  split at hx
  · rename_i hp
    obtain ⟨i, hd, hrun⟩ | ⟨e, -, hrun⟩ := runLatched_cases s.pe.latch.word s
    · exact exec_pending_keepsInv h hp hd (hrun.symm.trans hx)
    · simp [hrun] at hx
  · cases hx
    exact ⟨h, rfl⟩

theorem sqTurn_keepsInv (h : Inv s) (hx : sqTurn s = .next t) : KeepsInv s t := by
  unfold sqTurn at hx
  split at hx
  · rename_i he
    obtain ⟨hd, -⟩ := h.sqLegal.latched (sqEnabled_iff.1 he).1
    unfold runLatched at hx
    rw [hd] at hx
    exact execPcScan_keepsInv h (h.not_pending he) hx
  · cases hx
    exact ⟨h, rfl⟩

theorem engineTurn_keepsInv (h : Inv s) (hx : engineTurn s = .next t) : KeepsInv s t := by
  unfold engineTurn at hx
  split at hx
  · exact peTurn_keepsInv h hx
  · exact sqTurn_keepsInv h hx

/-! The host's accesses. -/

/-- An accepted command other than `PC.SCAN` starts the primitive engine with a legal latch: the issue
check has decoded the word, checked its descriptors and kept a snapshot apart from a scan (R242). -/
theorem startPe_inv {x : Word} {i : Instr} (h : Inv s) (hi : i ≠ .pcScan)
    (hok : issueCheck s x = .ok i) : Inv (s.startPe x) := by
  obtain ⟨hbusy, hd, hconf, hr⟩ := issueCheck_ok hok
  obtain ⟨-, he⟩ := busy_eq_false_iff.1 hbusy
  refine h.setPe he (peLegal_of_decode hd hi ?_ hr)
  rintro rfl
  have hidle : s.sq.phase = .idle := scanning_eq_false_iff.1 (by simpa [conflictsWithScan] using hconf)
  exact ⟨h.pulseCap_pos, h.widx_lt, hidle⟩

/-- An accepted `PC.SCAN` starts the sequencer in COPY on a window in range (R210, R242). -/
theorem startScan_inv {x : Word} (h : Inv s) (hok : issueCheck s x = .ok .pcScan) :
    Inv (s.startScan x) := by
  obtain ⟨hbusy, hd, -, hr⟩ := issueCheck_ok hok
  obtain ⟨hp, -⟩ := busy_eq_false_iff.1 hbusy
  exact h.setSq hp (sqLegal_of_copy ⟨hd, hr, h.widx_lt⟩ rfl h.pulseCap_pos)

/-- Every command but `PC.SCAN` is accepted by the primitive engine (R240). -/
theorem accept_of_ne_pcScan {i : Instr} (hi : i ≠ .pcScan) (x : Word) :
    s.accept i x = { s with cmd := x, errCode := ErrCode.none.toByte,
                            lastOp := opcodeField x }.startPe x := by
  cases i with
  | pcScan => exact absurd rfl hi
  | _ => rfl

theorem accept_keepsInv {x : Word} {i : Instr} (h : Inv s) (hok : issueCheck s x = .ok i) :
    KeepsInv s (s.accept i x) := by
  by_cases hi : i = .pcScan
  · subst hi
    exact ⟨startScan_inv h hok, rfl⟩
  · rw [accept_of_ne_pcScan hi]
    exact ⟨startPe_inv (s := s) h hi hok, rfl⟩

theorem issue_keepsInv (h : Inv s) (x : Word) : KeepsInv s (s.issue x) := by
  obtain ⟨code, -, hrej⟩ | ⟨i, hok, hacc⟩ := issue_cases s x
  · rw [hrej]
    exact ⟨h.reject x code, rfl⟩
  · rw [hacc]
    exact accept_keepsInv h hok

theorem ctrlActions_keepsInv (h : Inv s) (v : Word) : KeepsInv s (s.ctrlActions v) := by
  unfold State.ctrlActions
  cases v.getLsbD 2 <;> cases v.getLsbD 0
  · exact ⟨h, rfl⟩
  · exact ⟨h.clearBest, rfl⟩
  · exact ⟨h.clearRing, rfl⟩
  · exact ⟨h.clearRing.clearBest, rfl⟩

theorem writeCtrl_keepsInv (h : Inv s) (v : Word) : KeepsInv s (s.writeCtrl v) := by
  obtain ⟨-, hreset⟩ | ⟨u, hu, hwrite⟩ := writeCtrl_cases s v
  · rw [hreset]
    exact ⟨h.softReset, rfl⟩
  · have hbypass : KeepsInv s u := by
      subst hu
      exact ⟨h, rfl⟩
    obtain ⟨hinv, hparams⟩ := hbypass
    obtain hstored | hovr | ⟨-, -, hacts⟩ := hwrite
    · rw [hstored]
      exact ⟨hinv, hparams⟩
    · rw [hovr]
      exact ⟨hinv.overrun, hparams⟩
    · rw [hacts]
      obtain ⟨hinv', hparams'⟩ := ctrlActions_keepsInv hinv v
      exact ⟨hinv', hparams'.trans hparams⟩

/-- The verdict moves a waiting scan to UPDATE with its cursor and run as they are (R217). -/
theorem writeVerdict_keepsInv (h : Inv s) (v : Word) : KeepsInv s (s.writeVerdict v) := by
  obtain ⟨hph, hbusy, hverdict⟩ | hovr := writeVerdict_cases s v
  · rw [hverdict]
    obtain ⟨hp, -⟩ := busy_eq_false_iff.1 hbusy
    have hl : ScanLatched s := h.sqLegal.latched (by simp [hph])
    have hc := h.sqLegal.cursor_lt (.inr (.inr (.inl hph)))
    have hn := h.sqLegal.len_le (.inr (.inl hph))
    exact ⟨h.setSq hp (sqLegal_of_run hl (.inr (.inr rfl)) hc hn), rfl⟩
  · rw [hovr]
    exact ⟨h.overrun, rfl⟩

theorem clampPct_le (p : BitVec 7) : (clampPct p).toNat ≤ 100 := by
  unfold clampPct
  split
  · decide
  · omega

/-- A register write keeps the invariant. All registers but the five named hold what the invariant does
not speak of, or a configuration without `PCT`. -/
theorem writeReg_keepsInv (h : Inv s) (v : Word) (r : Reg) : KeepsInv s (writeReg s v r) := by
  cases r with
  | ctrl => exact writeCtrl_keepsInv h v
  | cmd => exact issue_keepsInv h v
  | clsTol => exact ⟨h.setRegs (clampPct_le _), rfl⟩
  | decVerdict => exact writeVerdict_keepsInv h v
  | pushDur => exact ⟨h.appendPulse _, rfl⟩
  | _ => exact ⟨h, rfl⟩

theorem writeTarget_keepsInv (h : Inv s) (v : Word) (g : Target) : KeepsInv s (writeTarget s v g) := by
  cases g with
  | reg r => exact writeReg_keepsInv h v r
  | bmem a =>
    simp only [writeTarget]
    split
    · exact ⟨h.overrun, rfl⟩
    · exact ⟨h.setBmem (writeWord_wf h.bmem_wf a v), rfl⟩
  | snap j half => exact ⟨h, rfl⟩
  | det j half => exact ⟨h, rfl⟩
  | unmapped => exact ⟨h, rfl⟩

theorem hostRead_keepsInv (h : Inv s) (g : Target) : KeepsInv s (hostRead s g) := by
  unfold hostRead
  split
  · exact ⟨h.returnDraw, rfl⟩
  · exact ⟨h.returnWord _, rfl⟩

theorem hostStep_keepsInv {op : HostOp} (h : Inv s) (hx : hostStep op s = .next t) : KeepsInv s t := by
  obtain ⟨o, -, -, rfl⟩ | ⟨o, v, -, -, rfl⟩ := hostStep_next hx
  · exact hostRead_keepsInv h _
  · exact writeTarget_keepsInv h v _

/-! One step, and power-on. -/

/-- The next turn keeps the invariant: the schedule is nothing it speaks of, and each agent's turn does. -/
theorem step_keepsInv (h : Inv s) (hx : step s = .next t) : KeepsInv s t := by
  obtain ⟨-, hs⟩ | ⟨op, rest, -, hs⟩ | ⟨p, rest, -, hs⟩ | ⟨rest, -, hs⟩ | ⟨rest, -, hs⟩ |
    ⟨rest, -, hs | hs⟩ := step_cases s
  · exact engineTurn_keepsInv h (hs.symm.trans hx)
  · exact hostStep_keepsInv (s := { s with schedule := rest }) h (hs.symm.trans hx)
  · cases hs.symm.trans hx
    exact ⟨Inv.appendPulse (s := { s with schedule := rest }) h p, rfl⟩
  · exact peTurn_keepsInv (s := { s with schedule := rest }) h (hs.symm.trans hx)
  · exact sqTurn_keepsInv (s := { s with schedule := rest }) h (hs.symm.trans hx)
  · cases hs.symm.trans hx
    exact ⟨h, rfl⟩
  · exact engineTurn_keepsInv h (hs.symm.trans hx)

end Steps

theorem powerOn_inv {cap bytes : Nat} (hp : ParamsLegal { pulseCap := cap, bmemBytes := bytes }) :
    Inv (State.powerOn cap bytes) := by
  have ⟨⟨hcap, _⟩, _⟩ := hp
  exact inv_of_idle hp (powerOn_memories_wf cap bytes) hcap (configLegal_reset bytes) (fun _ => rfl)
    rfl rfl

/-- Settles O12: the agent whose turn it is takes one step, and each agent's steps are made of updates
that keep every part of the invariant. -/
theorem stepKeepsInvariant : Obligations.StepKeepsInvariant :=
  fun _ _ h hx => step_keepsInv h hx

/-- Settles O13: power-on leaves both engines idle and the memories empty; 32 and 1024 are legal. -/
theorem powerOnSatisfiesInvariant : Obligations.PowerOnSatisfiesInvariant :=
  ⟨fun _ _ => powerOn_inv, powerOn_inv (by unfold ParamsLegal; decide)⟩

end Sys2Proof.Machine
end

section
/-!
PROOFS. The host's port: which register or aperture word an offset names, and what an access to it does.
-/

namespace Sys2Proof.Machine

/-! The address map (R20, R52, R72). -/

theorem Reg.mem_all (r : Reg) : r ∈ Reg.all := by
  cases r with
  | arg n => revert n; decide
  | clsAvg level k => revert level k; decide
  | clsCnt level k => revert level k; decide
  | _ => decide

theorem Reg.offset_aligned (r : Reg) : r.offset % 4 = 0 :=
  (by decide : ∀ r ∈ Reg.all, r.offset % 4 = 0) r r.mem_all

theorem Reg.offset_le (r : Reg) : r.offset ≤ 0x118 :=
  (by decide : ∀ r ∈ Reg.all, r.offset ≤ 0x118) r r.mem_all

/-- No two registers share an offset (R20). -/
theorem Reg.ofOffset_offset (r : Reg) : Reg.ofOffset r.offset = some r :=
  (by decide : ∀ r ∈ Reg.all, Reg.ofOffset r.offset = some r) r r.mem_all

theorem Reg.ofOffset_eq_none {o : Nat} (h : ∀ r : Reg, r.offset ≠ o) : Reg.ofOffset o = none := by
  simpa [Reg.ofOffset] using fun r _ => h r

theorem targetAt_reg (p : Params) (r : Reg) : targetAt p r.offset = .reg r := by
  have hle := r.offset_le
  simp [targetAt, Reg.ofOffset_offset, show r.offset < 0x100000 by omega]

theorem targetAt_hole (p : Params) {o : Nat} (ho : o < 0x100000) (h : ∀ r : Reg, r.offset ≠ o) :
    targetAt p o = .unmapped := by
  simp [targetAt, Reg.ofOffset_eq_none h, ho]

theorem targetAt_bmemAperture (p : Params) {o : Nat} (hlo : 0x100000 ≤ o) (hhi : o < 0x200000) :
    targetAt p o =
      if o < 0x100000 + 4 * ((p.bmemBytes + 3) / 4) then .bmem (o - 0x100000) else .unmapped := by
  rw [targetAt, if_neg (by omega), if_pos hhi]
  exact if_congr (by omega) rfl rfl

theorem targetAt_snapAperture (p : Params) {o : Nat} (hlo : 0x200000 ≤ o) (hhi : o < 0x300000) :
    targetAt p o =
      if o < 0x200000 + 8 * p.pulseCap then .snap ((o - 0x200000) / 8) (pulseHalfAt o)
      else .unmapped := by
  rw [targetAt, if_neg (by omega), if_neg (by omega), if_pos hhi]
  exact if_congr (by omega) rfl rfl

theorem targetAt_detAperture (p : Params) {o : Nat} (hlo : 0x300000 ≤ o) :
    targetAt p o =
      if o < 0x300000 + 8 * p.pulseCap then .det ((o - 0x300000) / 8) (pulseHalfAt o)
      else .unmapped := by
  rw [targetAt, if_neg (by omega), if_neg (by omega), if_neg (by omega)]
  exact if_congr (by omega) rfl rfl

/-! Accesses to an aligned offset (R74, R79). -/

section Accesses

variable (s : State) {o : BitVec 22}

theorem hostStep_read (ho : o.toNat % 4 = 0) :
    hostStep (.read 4 o) s = .next (hostRead s (targetAt s.params o.toNat)) := by
  simp [hostStep, accessAllowed, ho]

theorem hostStep_write (ho : o.toNat % 4 = 0) (v : Word) :
    hostStep (.write 4 o v) s = .next (writeTarget s v (targetAt s.params o.toNat)) := by
  simp [hostStep, accessAllowed, ho]

/-- A write at a register's offset writes that register. -/
theorem hostStep_write_reg (r : Reg) (ho : o.toNat = r.offset) (v : Word) :
    hostStep (.write 4 o v) s = .next (writeReg s v r) := by
  rw [hostStep_write s (ho ▸ r.offset_aligned), ho, targetAt_reg]
  rfl

theorem hostRead_of_defined {t : Target} (h : s.busy = false ∨ t.unspecifiedWhileBusy = false) :
    hostRead s t = s.returnWord (readTarget s t) := by
  rcases h with h | h <;> simp [hostRead, h]

theorem hostRead_of_unspecified {t : Target} (hb : s.busy = true)
    (ht : t.unspecifiedWhileBusy = true) : hostRead s t = s.returnDraw := by
  simp [hostRead, hb, ht]

/-- A read at a register's offset returns that register, unless the core is busy and the register is one
that R50 lists. -/
theorem hostStep_read_reg (r : Reg) (ho : o.toNat = r.offset)
    (h : s.busy = false ∨ r.unspecifiedWhileBusy = false) :
    hostStep (.read 4 o) s = .next (s.returnWord (readReg s r)) := by
  rw [hostStep_read s (ho ▸ r.offset_aligned), ho, targetAt_reg,
    hostRead_of_defined s (t := .reg r) h]
  rfl

/-- The offset of a register as the host's 22-bit address. -/
theorem Reg.toNat_ofNat_offset (r : Reg) : (BitVec.ofNat 22 r.offset).toNat = r.offset := by
  have hle := r.offset_le
  exact Nat.mod_eq_of_lt (by omega)

end Accesses

/-! Registers by class: read-only ones (R20), and what three packed registers read as. -/

/-- The registers that R20 lists as read-only. -/
def Reg.readOnly : Reg → Bool
  | .id | .status | .result0 | .result1 | .runLen | .unitDur | .clsAvg _ _ | .clsCnt _ _ => true
  | .bestLen | .bestUnit | .bestStart | .bestWbits | .bestBitoff | .bestBitcnt | .bestWidx => true
  | .scanCur | .decNbits | .snapWidx | .cfgCap | .cfgBmem | .ringWidx => true
  | _ => false

theorem writeReg_of_readOnly (s : State) (v : Word) {r : Reg} (h : r.readOnly = true) :
    writeReg s v r = s := by
  cases r <;> cases h <;> rfl

theorem readReg_ctrl (s : State) :
    readReg s .ctrl = if s.regs.decBypass then 0x10#32 else 0#32 := by
  cases h : s.regs.decBypass <;> simp [readReg, h]

theorem readReg_clsTol (s : State) :
    readReg s .clsTol = BitVec.ofNat 32 (s.regs.tolPct.toNat + 256 * s.regs.tolStrict.toNat) := by
  have hpct : s.regs.tolPct.toNat < 2 ^ 7 := s.regs.tolPct.isLt
  apply BitVec.eq_of_toNat_eq
  simp only [readReg, BitVec.toNat_setWidth, BitVec.toNat_append, BitVec.toNat_ofBool,
    BitVec.toNat_ofNat, ← Nat.shiftLeft_add_eq_or_of_lt hpct]
  simp only [pow_one, Nat.zero_mod, Nat.or_zero, Nat.reducePow]
  omega

theorem readReg_pushLvl (s : State) :
    readReg s .pushLvl = if s.pushLvl then 1#32 else 0#32 := by
  cases h : s.pushLvl <;> simp [readReg, h, Word.ofBit]

/-! Reads of the register file. -/

/-- Settles O49: the statement's table lists every register but `STATUS`, in the order of its offset, with
the word it reads as. -/
theorem registerFileReads : Obligations.RegisterFileReads := by
  intro s hb
  have hread : ∀ e ∈ (Reg.all.erase .status).map fun r => (BitVec.ofNat 22 r.offset, readReg s r),
      hostStep (.read 4 e.1) s = .next { s with readData := e.2 } :=
    List.forall_mem_map.2 fun r _ => hostStep_read_reg s r r.toNat_ofNat_offset (.inl hb)
  rw [← readReg_ctrl s, ← readReg_clsTol s, ← readReg_pushLvl s]
  exact hread

/-- The reset column of R20, for a machine with these parameters. -/
def Reg.resetWord (cap bytes : Nat) : Reg → Word
  | .id => 0x50434C31#32
  | .maxDur => 0x00000FA0#32
  | .clsTol => 0x00000014#32
  | .minRun => 0x00000012#32
  | .lookback => 0x00000020#32
  | .lookahead => 0x00000064#32
  | .repCap => 0x00000400#32
  | .minClassCnt => 0x00000003#32
  | .winLen => BitVec.ofNat 32 bytes
  | .cfgCap => BitVec.ofNat 32 cap
  | .cfgBmem => BitVec.ofNat 32 bytes
  | _ => 0#32

theorem ClassTable.slot_empty {α : Type} (zero : α) (level : Bool) (k : Fin 3) :
    (ClassTable.empty zero).slot level k = Slot.empty zero := by
  cases level <;> fin_cases k <;> rfl

theorem status_powerOn (cap bytes : Nat) : (State.powerOn cap bytes).status = 0#32 := by
  simp [State.status, State.busy, State.sqEnabled, State.scanning, State.decWait, State.powerOn,
    HeldBest.empty, PeState.idle, SqState.idle]

theorem readReg_powerOn (cap bytes : Nat) (r : Reg) :
    readReg (State.powerOn cap bytes) r = r.resetWord cap bytes := by
  cases r with
  | ctrl => exact readReg_ctrl _
  | status => exact status_powerOn cap bytes
  | clsTol => exact readReg_clsTol _
  | arg n => simp [readReg, State.powerOn, Reg.resetWord]
  | clsAvg level k => exact congrArg Slot.avg (ClassTable.slot_empty 0#32 level k)
  | clsCnt level k => exact congrArg Slot.cnt (ClassTable.slot_empty 0#32 level k)
  | _ => rfl

/-- Settles O59: after power-on no engine is busy, and every register reads as the reset column says. -/
theorem resetColumn : Obligations.ResetColumn := by
  intro cap bytes
  have hread : ∀ e ∈ Reg.all.map fun r => (BitVec.ofNat 22 r.offset, r.resetWord cap bytes),
      hostStep (.read 4 e.1) (State.powerOn cap bytes) =
        .next { State.powerOn cap bytes with readData := e.2 } := by
    refine List.forall_mem_map.2 fun r _ => ?_
    rw [← readReg_powerOn]
    exact hostStep_read_reg _ r r.toNat_ofNat_offset (.inl rfl)
  exact hread

/-- Settles O60: `ID` is no register of R50, and the statement lists the offsets of the read-only
registers. -/
theorem readOnlyRegistersIgnoreWrites : Obligations.ReadOnlyRegistersIgnoreWrites := by
  intro s v
  have hwrite : ∀ o ∈ (Reg.all.filter Reg.readOnly).map fun r => BitVec.ofNat 22 r.offset,
      hostStep (.write 4 o v) s = .next s := by
    refine List.forall_mem_map.2 fun r hr => ?_
    rw [hostStep_write_reg s r r.toNat_ofNat_offset, writeReg_of_readOnly s v (List.mem_filter.1 hr).2]
  exact ⟨hostStep_read_reg s .id rfl (.inr rfl), hwrite⟩

/-- The six flags of `STATUS`, from bit 0 up (R26). -/
theorem getLsbD_status (s : State) : s.status.getLsbD 0 = s.busy ∧ s.status.getLsbD 1 = s.scanning ∧
    s.status.getLsbD 2 = s.decWait ∧ s.status.getLsbD 3 = s.found ∧
    s.status.getLsbD 4 = s.best.valid ∧ s.status.getLsbD 5 = s.best.decoded := by
  simp only [State.status, BitVec.getLsbD_append]
  simp

/-- The fields of `STATUS` above the flags (R26): whatever lies below a field is cut off. -/
theorem extractLsb'_status (s : State) : s.status.extractLsb' 6 2 = 0#2 ∧
    s.status.extractLsb' 8 8 = s.errCode ∧ s.status.extractLsb' 16 8 = s.lastOp ∧
    s.status.extractLsb' 24 8 = 0#8 := by
  refine ⟨?_, ?_, ?_, ?_⟩ <;> rw [State.status] <;>
    repeat rw [BitVec.extractLsb'_append_eq_of_le (by decide)]
  · exact BitVec.extractLsb'_append_eq_right
  · exact BitVec.extractLsb'_append_eq_right
  · exact BitVec.extractLsb'_append_eq_right
  · rfl

/-- Settles O50: `STATUS` is no register of R50, and each bit is read off its packing. -/
theorem statusBits : Obligations.StatusBits := by
  intro s
  obtain ⟨hbusy, hscan, hwait, hfound, hvalid, hdecoded⟩ := getLsbD_status s
  exact ⟨s.status, hostStep_read_reg s .status rfl (.inr rfl), hbusy, hscan, hwait, hfound, hvalid,
    hdecoded, extractLsb'_status s⟩

/-! Reads while the core is busy (R50). -/

/-- The register offsets that R50 lists. -/
@[reducible] def UnspecifiedOffset (o : Nat) : Prop :=
  o = 0x038 ∨ o = 0x03C ∨ o = 0x080 ∨ o = 0x084 ∨ (0x090 ≤ o ∧ o ≤ 0x0A4) ∨
    (0x0B0 ≤ o ∧ o ≤ 0x0C4) ∨ (0x0D0 ≤ o ∧ o ≤ 0x0E8) ∨ o = 0x0F0 ∨ o = 0x0F4 ∨ o = 0x104

/-- The register offsets that R50 does not list. -/
@[reducible] def DefinedOffset (o : Nat) : Prop :=
  o ≤ 0x034 ∨ o = 0x040 ∨ o = 0x044 ∨ (0x050 ≤ o ∧ o ≤ 0x074) ∨ (0x0F8 ≤ o ∧ o ≤ 0x100) ∨
    (0x108 ≤ o ∧ o ≤ 0x118)

/-- Every aligned offset that R50 lists is that of a register the model takes as unspecified. -/
theorem exists_reg_of_unspecifiedOffset {o : Nat} (ho : o % 4 = 0) (h : UnspecifiedOffset o) :
    ∃ r : Reg, r.offset = o ∧ r.unspecifiedWhileBusy = true := by
  have table : ∀ k < 71, UnspecifiedOffset (4 * k) →
      ∃ r ∈ Reg.all, r.offset = 4 * k ∧ r.unspecifiedWhileBusy = true := by decide
  obtain ⟨k, rfl⟩ := Nat.dvd_of_mod_eq_zero ho
  obtain ⟨r, -, hr⟩ := table k (by omega) h
  exact ⟨r, hr⟩

theorem exists_reg_of_definedOffset {o : Nat} (ho : o % 4 = 0) (h : DefinedOffset o) :
    ∃ r : Reg, r.offset = o ∧ r.unspecifiedWhileBusy = false := by
  have table : ∀ k < 71, DefinedOffset (4 * k) →
      ∃ r ∈ Reg.all, r.offset = 4 * k ∧ r.unspecifiedWhileBusy = false := by decide
  obtain ⟨k, rfl⟩ := Nat.dvd_of_mod_eq_zero ho
  obtain ⟨r, -, hr⟩ := table k (by omega) h
  exact ⟨r, hr⟩

/-- Settles O51: each listed offset names a register or an aperture word that is unspecified while busy,
each other register offset a register that is not. -/
theorem busyReadsAreDraws : Obligations.BusyReadsAreDraws := by
  intro s o hb ho
  constructor
  · intro h
    have hlisted : UnspecifiedOffset o.toNat ∨
        (0x100000 ≤ o.toNat ∧ o.toNat < 0x200000 ∧
          o.toNat < 0x100000 + 4 * ((s.params.bmemBytes + 3) / 4)) ∨
        (0x200000 ≤ o.toNat ∧ o.toNat < 0x300000 ∧ o.toNat < 0x200000 + 8 * s.params.pulseCap) ∨
        (0x300000 ≤ o.toNat ∧ o.toNat < 0x300000 + 8 * s.params.pulseCap) := by
      simpa only [or_assoc] using h
    rw [hostStep_read s ho]
    refine congrArg _ (hostRead_of_unspecified s hb ?_)
    obtain hreg | ⟨hlo, hhi, hlt⟩ | ⟨hlo, hhi, hlt⟩ | ⟨hlo, hlt⟩ := hlisted
    · obtain ⟨r, hr, hu⟩ := exists_reg_of_unspecifiedOffset ho hreg
      rw [← hr, targetAt_reg]
      exact hu
    · rw [targetAt_bmemAperture _ hlo hhi, if_pos hlt]
      rfl
    · rw [targetAt_snapAperture _ hlo hhi, if_pos hlt]
      rfl
    · rw [targetAt_detAperture _ hlo, if_pos hlt]
      rfl
  · intro h
    obtain ⟨r, hr, hd⟩ := exists_reg_of_definedOffset ho h
    exact ⟨r, hr, hostStep_read_reg s r hr.symm (.inr hd)⟩

/-! Unmapped offsets (R52). -/

/-- The aligned holes of R20 between its registers, and the offsets past the last one. -/
@[reducible] def RegisterHole (o : Nat) : Prop :=
  o ∈ [0x048, 0x04C, 0x078, 0x07C, 0x088, 0x08C, 0x0A8, 0x0AC, 0x0C8, 0x0CC, 0x0EC] ∨ 0x11C ≤ o

theorem Reg.offset_ne_of_registerHole {o : Nat} (h : RegisterHole o) (r : Reg) : r.offset ≠ o := by
  rintro rfl
  exact (by decide : ∀ r ∈ Reg.all, ¬ RegisterHole r.offset) r r.mem_all h

/-- Settles O52: no register stands at such an offset, and no aperture word. -/
theorem unmappedOffsets : Obligations.UnmappedOffsets := by
  intro s o v ho h
  have hun : targetAt s.params o.toNat = .unmapped := by
    obtain hhole | ⟨hlo, hhi⟩ | ⟨hlo, hhi⟩ | ⟨hlo, hhi⟩ | hlo := h
    · have hlt : o.toNat < 0x100000 := by
        simp only [List.mem_cons, List.not_mem_nil, or_false] at hhole
        omega
      exact targetAt_hole _ hlt (Reg.offset_ne_of_registerHole (.inl hhole))
    · exact targetAt_hole _ hhi (Reg.offset_ne_of_registerHole (.inr hlo))
    · rw [targetAt_bmemAperture _ (by omega) hhi, if_neg (by omega)]
    · rw [targetAt_snapAperture _ (by omega) hhi, if_neg (by omega)]
    · rw [targetAt_detAperture _ (by omega), if_neg (by omega)]
  rw [hostStep_read s ho, hostStep_write s ho, hun]
  exact ⟨congrArg _ (hostRead_of_defined s (.inr rfl)), rfl⟩

/-! Register writes. -/

theorem clampPct_setWidth (v : Word) :
    clampPct (v.setWidth 7) = BitVec.ofNat 7 (min (v.toNat % 128) 100) := by
  apply BitVec.eq_of_toNat_eq
  have hbits : (v.setWidth 7).toNat = v.toNat % 128 := BitVec.toNat_setWidth ..
  rw [BitVec.toNat_ofNat, Nat.mod_eq_of_lt (by omega), clampPct, hbits]
  split
  · rw [min_eq_right (by omega)]
    rfl
  · rw [hbits, min_eq_left (by omega)]

/-- Settles O53: each offset names its register, and `CLS_TOL` clamps `PCT` (R32). -/
theorem registerWrites : Obligations.RegisterWrites := by
  intro s v
  rw [← clampPct_setWidth]
  exact ⟨fun n => hostStep_write_reg s (.arg n) (Reg.arg n).toNat_ofNat_offset v,
    hostStep_write_reg s .patlo rfl v, hostStep_write_reg s .pathi rfl v,
    hostStep_write_reg s .irqEn rfl v, hostStep_write_reg s .minDur rfl v,
    hostStep_write_reg s .maxDur rfl v, hostStep_write_reg s .clsTol rfl v,
    hostStep_write_reg s .minRun rfl v, hostStep_write_reg s .lookback rfl v,
    hostStep_write_reg s .lookahead rfl v, hostStep_write_reg s .repCap rfl v,
    hostStep_write_reg s .minClassCnt rfl v, hostStep_write_reg s .winBase rfl v,
    hostStep_write_reg s .winLen rfl v, hostStep_write_reg s .decBitoff rfl v,
    hostStep_write_reg s .decBitcnt rfl v, hostStep_write_reg s .pushLvl rfl v⟩

/-! Writes to `CTRL` (R22). -/

section Ctrl

variable {s : State} {v : Word}

/-- `CTRL.DEC_BYPASS` takes bit 4 of the word written (R22). -/
def State.storeBypass (s : State) (v : Word) : State :=
  { s with regs := { s.regs with decBypass := v.getLsbD 4 } }

theorem writeCtrl_of_no_action (hrst : v.getLsbD 1 = false) (hbest : v.getLsbD 0 = false)
    (hring : v.getLsbD 2 = false) : s.writeCtrl v = s.storeBypass v := by
  rw [State.writeCtrl, hrst, hbest, hring]
  rfl

theorem writeCtrl_of_action_busy (hrst : v.getLsbD 1 = false)
    (hact : v.getLsbD 0 = true ∨ v.getLsbD 2 = true) (hb : s.busy = true ∨ s.scanning = true) :
    s.writeCtrl v = (s.storeBypass v).overrun := by
  rw [State.writeCtrl, hrst, (Bool.or_eq_true_iff ..).2 hact, (Bool.or_eq_true_iff ..).2 hb]
  rfl

theorem writeCtrl_of_action_idle (hrst : v.getLsbD 1 = false)
    (hact : v.getLsbD 0 = true ∨ v.getLsbD 2 = true) (hb : s.busy = false)
    (hscan : s.scanning = false) : s.writeCtrl v = (s.storeBypass v).ctrlActions v := by
  rw [State.writeCtrl, hrst, (Bool.or_eq_true_iff ..).2 hact, hb, hscan]
  rfl

/-- The action bits touch the ring, its write index and the held best only (R184, R225). -/
theorem ctrlActions_eq (s : State) (v : Word) : s.ctrlActions v =
    { s with ring := (s.ctrlActions v).ring
             widx := if v.getLsbD 2 then 0 else s.widx
             best := if v.getLsbD 0 then HeldBest.empty else s.best } := by
  unfold State.ctrlActions
  cases v.getLsbD 2 <;> cases v.getLsbD 0 <;> rfl

/-- `RING_CLR` makes every ring entry `(0, 0)` (R184); without it the ring stays. -/
theorem pulseRead_ctrlActions (s : State) (v : Word) {k : Nat} (hk : k < s.params.pulseCap) :
    pulseRead .ring (s.ctrlActions v).ring k =
      if v.getLsbD 2 then { level := false, dur := 0#32 } else pulseRead .ring s.ring k := by
  have hring : (s.ctrlActions v).ring = if v.getLsbD 2 then s.clearRing.ring else s.ring := by
    unfold State.ctrlActions
    cases v.getLsbD 2 <;> cases v.getLsbD 0 <;> rfl
  rw [hring]
  split
  · simp [pulseRead, State.clearRing, hk]
  · rfl

end Ctrl

/-- Settles O54: without `SOFT_RST` the write stores `DEC_BYPASS`, and its action bits act or set `OVR`. -/
theorem ctrlActions : Obligations.CtrlActions := by
  intro s v hrst
  rw [hostStep_write_reg s .ctrl rfl]
  refine ⟨fun hbest hring => congrArg _ (writeCtrl_of_no_action hrst hbest hring),
    fun hact hb => congrArg _ (writeCtrl_of_action_busy hrst hact hb), fun hact hb hscan => ?_⟩
  refine ⟨((s.storeBypass v).ctrlActions v).ring, congrArg _ ?_,
    fun k hk => pulseRead_ctrlActions (s.storeBypass v) v hk⟩
  exact (writeCtrl_of_action_idle hrst hact hb hscan).trans (ctrlActions_eq (s.storeBypass v) v)

end Sys2Proof.Machine
end

section
/-!
PROOFS. Commands and the registers of the host: what an accepted word leaves in the machine (O8), which
command a turn runs (O11), and that a command neither writes (O10) nor reads (O9) a register of the host's.
-/

namespace Sys2Proof.Machine

open Sys2Proof.Laws (opcodeOf)

/-! The opcode of a word that decodes (R99). -/

section Decode

variable {w : Word} {i j : Instr}

theorem checkFields_ok (h : checkFields i = .ok j) : j = i := by
  unfold checkFields at h
  split at h <;> cases h
  rfl

theorem decodeN_opcodeOf (h : decodeN i w = .ok j) : opcodeOf j = opcodeOf i := by
  unfold decodeN at h
  split at h
  · rw [checkFields_ok h]
  · cases h

theorem decodeV_opcodeOf {mk : Bool → Instr} {op : BitVec 8} (hop : ∀ b, opcodeOf (mk b) = op)
    (h : decodeV mk w = .ok j) : opcodeOf j = op := by
  unfold decodeV at h
  split at h
  · rw [checkFields_ok h, hop]
  · cases h

theorem decodeP_opcodeOf {mk : BitVec 7 → Instr} {op : BitVec 8} (hop : ∀ n, opcodeOf (mk n) = op)
    (h : decodeP mk w = .ok j) : opcodeOf j = op := by
  unfold decodeP at h
  split at h
  · rw [checkFields_ok h, hop]
  · cases h

theorem decodeW_opcodeOf {mk : BitVec 6 → Instr} {op : BitVec 8} (hop : ∀ n, opcodeOf (mk n) = op)
    (h : decodeW mk w = .ok j) : opcodeOf j = op := by
  unfold decodeW at h
  split at h
  · rw [checkFields_ok h, hop]
  · cases h

theorem decodeM_opcodeOf {mk : BitVec 8 → BitVec 8 → BitVec 4 → BitVec 4 → Instr} {op : BitVec 8}
    (hop : ∀ a b c d, opcodeOf (mk a b c d) = op) (h : decodeM mk w = .ok j) : opcodeOf j = op := by
  rw [checkFields_ok h, hop]

/-- One row of the opcode map: the word has its opcode and is read by its format, or a later row reads
it. -/
theorem opcodeOf_of_row {op : BitVec 8} {row later : Except DecodeError Instr}
    (h : (if opcodeField w = op then row else later) = .ok i) (hrow : row = .ok i → opcodeOf i = op)
    (hlater : later = .ok i → opcodeOf i = opcodeField w) : opcodeOf i = opcodeField w := by
  split at h
  · rename_i hop
    exact (hrow h).trans hop.symm
  · exact hlater h

/-- The command a word decodes to is the one of its opcode byte (R99). -/
theorem opcodeOf_of_decode (h : decode w = .ok i) : opcodeOf i = opcodeField w :=
  opcodeOf_of_row h decodeN_opcodeOf fun h =>
  opcodeOf_of_row h (decodeV_opcodeOf fun _ => rfl) fun h =>
  opcodeOf_of_row h decodeN_opcodeOf fun h =>
  opcodeOf_of_row h decodeN_opcodeOf fun h =>
  opcodeOf_of_row h (decodeP_opcodeOf fun _ => rfl) fun h =>
  opcodeOf_of_row h (decodeP_opcodeOf fun _ => rfl) fun h =>
  opcodeOf_of_row h (decodeW_opcodeOf fun _ => rfl) fun h =>
  opcodeOf_of_row h (decodeM_opcodeOf fun _ _ _ _ => rfl) fun h =>
  opcodeOf_of_row h decodeN_opcodeOf fun h =>
  opcodeOf_of_row h decodeN_opcodeOf fun h =>
  opcodeOf_of_row h decodeN_opcodeOf fun h =>
  opcodeOf_of_row h decodeN_opcodeOf fun h =>
  opcodeOf_of_row h (decodeV_opcodeOf fun _ => rfl) fun h =>
  opcodeOf_of_row h (decodeV_opcodeOf fun _ => rfl) fun h =>
  opcodeOf_of_row h decodeN_opcodeOf nofun

theorem opcodeOf_eq_scan_iff : opcodeOf i = 0x43#8 ↔ i = .pcScan := by
  cases i <;> simp [opcodeOf]

theorem opcodeField_eq_setWidth (w : Word) : opcodeField w = w.setWidth 8 :=
  (BitVec.setWidth_eq_extractLsb' (by decide)).symm

theorem opcodeField_eq_iff (w : Word) (op : BitVec 8) :
    opcodeField w = op ↔ w.toNat % 256 = op.toNat := by
  rw [opcodeField_eq_setWidth, ← BitVec.toNat_inj, BitVec.toNat_setWidth]

/-- A word that decodes is `PC.SCAN` exactly when its low byte is 0x43 (R99). -/
theorem eq_pcScan_iff_of_decode (h : decode w = .ok i) : i = .pcScan ↔ w.toNat % 256 = 0x43 := by
  rw [← opcodeOf_eq_scan_iff, opcodeOf_of_decode h]
  exact opcodeField_eq_iff w 0x43#8

end Decode

/-! Acceptance (R240). -/

section Acceptance

variable {s : State} {x : Word}

/-- Every check of R242 that fails has a code of its own, so no rejection reports 0 (R241). -/
theorem issueCheck_error_ne_none {code : ErrCode} (h : issueCheck s x = .error code) :
    code.toByte ≠ 0x00#8 := by
  unfold issueCheck at h
  split at h
  · cases h; decide
  · split at h
    · rename_i e _
      cases h
      cases e <;> decide
    · split at h
      · cases h; decide
      · split at h <;> cases h
        decide

/-- After a `CMD` write the code is 0 only when the word was accepted. -/
theorem issue_accepts_of_errCode_zero (h : (s.issue x).errCode = 0x00#8) :
    ∃ i, issueCheck s x = .ok i ∧ s.issue x = s.accept i x := by
  obtain ⟨code, herr, hrej⟩ | hacc := issue_cases s x
  · rw [hrej] at h
    exact absurd h (issueCheck_error_ne_none herr)
  · exact hacc

end Acceptance

/-- Settles O8: only an acceptance leaves the code 0, and the opcode byte says which engine starts. -/
theorem acceptanceLatchesAndStarts : Obligations.AcceptanceLatchesAndStarts := by
  intro s t w hx hcode
  obtain rfl : s.issue w = t := by
    rw [hostStep_write_reg s .cmd rfl] at hx
    cases hx
    rfl
  obtain ⟨i, hok, hacc⟩ := issue_accepts_of_errCode_zero hcode
  obtain ⟨-, hd, -⟩ := issueCheck_ok hok
  rw [hacc, ← opcodeField_eq_setWidth]
  constructor
  · intro hop
    rw [accept_of_ne_pcScan (mt (eq_pcScan_iff_of_decode hd).1 hop)]
    rfl
  · intro hop
    rw [(eq_pcScan_iff_of_decode hd).2 hop]
    rfl

/-! Turns of the engines (R211, R243). -/

section Turns

variable {s : State} {i : Instr}

theorem runLatched_of_decode {word : Word} (hd : decode word = .ok i) (s : State) :
    runLatched word s = exec i s := by
  rw [runLatched, hd]

theorem peTurn_of_pending (hp : s.pe.pending = true) (hd : decode s.pe.latch.word = .ok i) :
    peTurn s = exec i s := by
  rw [peTurn, if_pos hp, runLatched_of_decode hd]

theorem sqTurn_of_enabled (he : s.sqEnabled = true) (hd : decode s.sq.latch.word = .ok i) :
    sqTurn s = exec i s := by
  rw [sqTurn, if_pos he, runLatched_of_decode hd]

theorem engineTurn_of_pending (hp : s.pe.pending = true) : engineTurn s = peTurn s := if_pos hp

theorem engineTurn_of_not_pending (hp : s.pe.pending = false) : engineTurn s = sqTurn s :=
  if_neg (by simp [hp])

/-- While an engine is enabled, a poll of `BUSY` gives it the turn. -/
theorem step_waitIdle_of_busy {rest : List Event} (hs : s.schedule = .waitIdle :: rest)
    (hb : s.busy = true) : step s = engineTurn s := by
  simp [step, nextTurn, hs, pollTurn, waitIdleOver, hb]

/-- While the sequencer is enabled, so does a poll of `SCAN` and `DEC_WAIT`. -/
theorem step_waitScan_of_sqEnabled {rest : List Event} (hs : s.schedule = .waitScan :: rest)
    (he : s.sqEnabled = true) : step s = engineTurn s := by
  obtain ⟨hidle, hwait⟩ := sqEnabled_iff.1 he
  simp [step, nextTurn, hs, pollTurn, waitScanOver, State.scanning, State.decWait, hidle, hwait]

theorem step_of_schedule_nil (hs : s.schedule = []) : step s = engineTurn s := by
  simp [step, nextTurn, hs]

end Turns

/-- Settles O11: the head of the schedule, or the enabled engine, says whose turn it is, and an enabled
engine runs the word in its latch. -/
theorem stepRunsLatchedCommand : Obligations.StepRunsLatchedCommand := by
  intro s i
  constructor
  · intro hp hd
    have hturn : engineTurn s = exec i s := (engineTurn_of_pending hp).trans (peTurn_of_pending hp hd)
    refine ⟨fun hs => (step_of_schedule_nil hs).trans hturn, fun rest hs => ?_,
      fun rest hs => (step_waitIdle_of_busy hs (by simp [State.busy, hp])).trans hturn⟩
    rw [step, nextTurn, hs]
    exact peTurn_of_pending (s := { s with schedule := rest }) hp hd
  · intro he hd
    have hturn (hp : s.pe.pending = false) : engineTurn s = exec i s :=
      (engineTurn_of_not_pending hp).trans (sqTurn_of_enabled he hd)
    refine ⟨fun hp hs => (step_of_schedule_nil hs).trans (hturn hp), fun rest hs => ?_,
      fun rest hp hs => (step_waitIdle_of_busy hs (by simp [State.busy, he])).trans (hturn hp),
      fun rest hp hs => (step_waitScan_of_sqEnabled hs he).trans (hturn hp)⟩
    rw [step, nextTurn, hs]
    exact sqTurn_of_enabled (s := { s with schedule := rest }) he hd

/-! What no command writes (R23, R24, R28, R44, R46, R85). -/

/-- The part of the machine that only the host, the capture agent and the issue of a command write. -/
structure HostSide where
  params : Params
  cmd : Word
  args : Vector Word 8
  patlo : Word
  pathi : Word
  irqEn : BitVec 5
  regs : ConfigRegs
  errCode : BitVec 8
  lastOp : BitVec 8
  decBitoff : Word
  decBitcnt : Word
  pushLvl : Bool
  ring : List (Nat × Pulse)
  widx : Nat
  schedule : List Event
  readData : Word
  draws : Nat

def State.hostSide (s : State) : HostSide :=
  { params := s.params, cmd := s.cmd, args := s.args, patlo := s.patlo, pathi := s.pathi
    irqEn := s.irqEn, regs := s.regs, errCode := s.errCode, lastOp := s.lastOp
    decBitoff := s.decBitoff, decBitcnt := s.decBitcnt, pushLvl := s.pushLvl, ring := s.ring
    widx := s.widx, schedule := s.schedule, readData := s.readData, draws := s.draws }

@[simp] theorem State.setResult0_hostSide (s : State) (v : Word) :
    (s.setResult0 v).hostSide = s.hostSide := rfl
@[simp] theorem State.setResult1_hostSide (s : State) (v : Word) :
    (s.setResult1 v).hostSide = s.hostSide := rfl
@[simp] theorem State.setFound_hostSide (s : State) (b : Bool) :
    (s.setFound b).hostSide = s.hostSide := rfl
@[simp] theorem State.setBmem_hostSide (s : State) (m : List Host.Cell) :
    (s.setBmem m).hostSide = s.hostSide := rfl
@[simp] theorem State.setDecoded_hostSide (s : State) (d : Decoded) :
    (s.setDecoded d).hostSide = s.hostSide := rfl
@[simp] theorem State.setClassified_hostSide (s : State) (len unit : Nat) (t : ClassTable Nat) :
    (s.setClassified len unit t).hostSide = s.hostSide := rfl
@[simp] theorem State.completePe_hostSide (s : State) : s.completePe.hostSide = s.hostSide := rfl

section HostSideKept

variable {s t : State}

/-- A guarded step keeps the host's side when its result does. -/
theorem ifInRange_hostSide {ds : List Desc} {u : State} (hx : ifInRange ds s u = .next t)
    (hu : u.hostSide = s.hostSide) : t.hostSide = s.hostSide := by
  obtain ⟨-, rfl⟩ := ifInRange_next hx
  exact hu

theorem execPcSnap_hostSide (hx : execPcSnap s = .next t) : t.hostSide = s.hostSide := by
  unfold execPcSnap at hx
  split at hx <;> cases hx <;> rfl

theorem scanCopy_hostSide (s : State) : s.scanCopy.hostSide = s.hostSide := by
  unfold State.scanCopy; split <;> rfl

theorem scanClassify_hostSide (s : State) : s.scanClassify.hostSide = s.hostSide := by
  unfold State.scanClassify; dsimp only; split <;> rfl

theorem scanConvert_hostSide (s : State) : s.scanConvert.hostSide = s.hostSide := by
  unfold State.scanConvert; split <;> rfl

theorem scanUpdate_hostSide (s : State) : s.scanUpdate.hostSide = s.hostSide := by
  unfold State.scanUpdate; split <;> rfl

theorem execPcScan_hostSide (hx : execPcScan s = .next t) : t.hostSide = s.hostSide := by
  unfold execPcScan at hx
  cases hph : s.sq.phase with rw [hph] at hx
  | idle => cases hx; rfl
  | copy => cases hx; exact scanCopy_hostSide s
  | classify => cases hx; exact scanClassify_hostSide s
  | convert => exact ifInRange_hostSide hx (scanConvert_hostSide s)
  | wait => cases hx; rfl
  | update => cases hx; exact scanUpdate_hostSide s
  | done => cases hx; rfl

/-- Every command leaves the host's side of the machine as it is: the commands with a descriptor write
results, flags and BMEM, the others the classifier's and scanner's registers and memories. -/
theorem exec_hostSide {i : Instr} (hx : exec i s = .next t) : t.hostSide = s.hostSide := by
  cases i with
  | pcSnap => exact execPcSnap_hostSide hx
  | pcClassify src => cases hx; simp
  | pcScan => exact execPcScan_hostSide hx
  | _ => exact ifInRange_hostSide hx (by simp)

end HostSideKept

/-- Settles O10: the host's side is kept, field by field. -/
theorem commandsWriteNoHostRegister : Obligations.CommandsWriteNoHostRegister := by
  intro i s t hx
  have h := exec_hostSide hx
  simp only [State.hostSide, HostSide.mk.injEq] at h
  obtain ⟨hparams, hcmd, hargs, hpatlo, hpathi, hirqEn, hregs, herr, hlast, hoff, hcnt, hlvl, hring,
    hwidx, hsched, hread, hdraws⟩ := h
  exact ⟨hargs, hpatlo, hpathi, hcmd, hregs, hirqEn, hoff, hcnt, hlvl, herr, hlast, hring, hwidx,
    hparams, hsched, hread, hdraws⟩

/-! What no command reads (R39, R280). -/

/-- The registers of which a command latches its operands at acceptance, and `CMD`. -/
structure IssueRegs where
  cmd : Word
  args : Vector Word 8
  patlo : Word
  pathi : Word
  regs : ConfigRegs

/-- The machine with these registers rewritten. -/
def State.withIssueRegs (s : State) (r : IssueRegs) : State :=
  { s with cmd := r.cmd, args := r.args, patlo := r.patlo, pathi := r.pathi, regs := r.regs }

section IssueRegsUnread

variable {s t : State} (r : IssueRegs)

/-- A guarded step commutes with the rewriting when its result does. -/
theorem ifInRange_withIssueRegs {ds : List Desc} {u u' : State} (hx : ifInRange ds s u = .next t)
    (hu : u' = u.withIssueRegs r) :
    ifInRange ds (s.withIssueRegs r) u' = .next (t.withIssueRegs r) := by
  obtain ⟨hr, rfl⟩ := ifInRange_next hx
  rw [hu]
  exact ifInRange_of_inRange hr

theorem execPcSnap_withIssueRegs (hx : execPcSnap s = .next t) :
    execPcSnap (s.withIssueRegs r) = .next (t.withIssueRegs r) := by
  unfold execPcSnap at hx
  split at hx
  · cases hx
    exact if_pos ‹_›
  · cases hx
    exact if_neg ‹_›

theorem scanCopy_withIssueRegs (s : State) :
    (s.withIssueRegs r).scanCopy = s.scanCopy.withIssueRegs r := by
  unfold State.scanCopy
  dsimp only
  symm
  exact apply_ite (State.withIssueRegs · r) _ _ _

theorem scanClassify_withIssueRegs (s : State) :
    (s.withIssueRegs r).scanClassify = s.scanClassify.withIssueRegs r := by
  unfold State.scanClassify
  dsimp only
  symm
  exact apply_ite (State.withIssueRegs · r) _ _ _

theorem scanConvert_withIssueRegs (s : State) :
    (s.withIssueRegs r).scanConvert = s.scanConvert.withIssueRegs r := by
  unfold State.scanConvert
  dsimp only
  symm
  exact apply_ite (State.withIssueRegs · r) _ _ _

theorem scanUpdate_withIssueRegs (s : State) :
    (s.withIssueRegs r).scanUpdate = s.scanUpdate.withIssueRegs r := by
  unfold State.scanUpdate
  dsimp only
  symm
  exact apply_ite (State.withIssueRegs · r) _ _ _

theorem execPcScan_withIssueRegs (hx : execPcScan s = .next t) :
    execPcScan (s.withIssueRegs r) = .next (t.withIssueRegs r) := by
  have hphase : (s.withIssueRegs r).sq.phase = s.sq.phase := rfl
  unfold execPcScan at hx ⊢
  rw [hphase]
  cases hph : s.sq.phase with rw [hph] at hx
  | idle => cases hx; rfl
  | copy => cases hx; exact congrArg _ (scanCopy_withIssueRegs r s)
  | classify => cases hx; exact congrArg _ (scanClassify_withIssueRegs r s)
  | convert => exact ifInRange_withIssueRegs r hx (scanConvert_withIssueRegs r s)
  | wait => cases hx; rfl
  | update => cases hx; exact congrArg _ (scanUpdate_withIssueRegs r s)
  | done => cases hx; rfl

/-- A command's step commutes with rewriting the issue registers: its operands and configuration come
from the latch. -/
theorem exec_withIssueRegs {i : Instr} (hx : exec i s = .next t) :
    exec i (s.withIssueRegs r) = .next (t.withIssueRegs r) := by
  cases i with
  | pcSnap => exact execPcSnap_withIssueRegs r hx
  | pcClassify src => cases hx; rfl
  | pcScan => exact execPcScan_withIssueRegs r hx
  | _ => exact ifInRange_withIssueRegs r hx rfl

end IssueRegsUnread

/-- Settles O9: the step of every command commutes with rewriting those registers. -/
theorem commandsUseLatchedOperandsOnly : Obligations.CommandsUseLatchedOperandsOnly :=
  fun _ _ _ cmd args patlo pathi regs hx =>
    exec_withIssueRegs { cmd := cmd, args := args, patlo := patlo, pathi := pathi, regs := regs } hx

end Sys2Proof.Machine
end

section
/-!
PROOFS. The classifier against its rules (R186 to R189): the model's tests and updates of a class table are
the relations of Safety.lean, its loop is the run walk, and its unit estimate the unit of the rule (O34).
-/

namespace Sys2Proof.Machine

variable {cfg : ConfigRegs}

/-! One pulse against one class (R186, R187). -/

theorem near_iff (d a : Nat) : near cfg d a = true ↔ Near cfg d a := by
  have habs : absDiff d a = ((d : Int) - a).natAbs := by
    unfold absDiff
    omega
  unfold near Near
  split <;> simp [habs]

theorem pulseAccepted_iff (p : Pulse) : pulseAccepted cfg p = true ↔ ¬ Rejected cfg p := by
  simp [pulseAccepted, Rejected, BitVec.lt_def]

theorem slotTakes_iff (d : Nat) (sl : Slot Nat) : slotTakes cfg d sl = true ↔ ¬ Passed cfg d sl := by
  simp only [slotTakes, Passed, Bool.or_eq_true, beq_iff_eq, near_iff]
  tauto

/-! One pulse against the classes of a level: the lowest class that does not pass it takes it (R187). -/

/-- The slot `k` of a level replaced. -/
def LevelTable.setSlot (t : LevelTable Nat) (k : Fin 3) (sl : Slot Nat) : LevelTable Nat :=
  match k with
  | 0 => { t with s0 := sl }
  | 1 => { t with s1 := sl }
  | 2 => { t with s2 := sl }

theorem ClassTable.setSlot_eq (t : ClassTable Nat) (level : Bool) (k : Fin 3) (sl : Slot Nat) :
    t.setSlot level k sl = if level then { t with high := t.high.setSlot k sl }
      else { t with low := t.low.setSlot k sl } := by
  fin_cases k <;> rfl

/-- Every class of a level passes the pulse and none takes it, or the lowest class that does not pass it
does. -/
theorem levelPlace_cases (cfg : ConfigRegs) (d : Nat) (t : LevelTable Nat) :
    ((∀ k, Passed cfg d (t.slot k)) ∧ levelPlace cfg d t = none) ∨
      ∃ k, (∀ k' < k, Passed cfg d (t.slot k')) ∧ ¬ Passed cfg d (t.slot k) ∧
        levelPlace cfg d t = some (t.setSlot k (slotJoin d (t.slot k))) := by
  have hpass {sl : Slot Nat} (h : ¬ slotTakes cfg d sl = true) : Passed cfg d sl :=
    not_not.1 (mt (slotTakes_iff d sl).2 h)
  unfold levelPlace
  split_ifs with h0 h1 h2
  · exact .inr ⟨0, by simp, (slotTakes_iff d _).1 h0, rfl⟩
  · exact .inr ⟨1, by simp [LevelTable.slot, hpass h0], (slotTakes_iff d _).1 h1, rfl⟩
  · exact .inr ⟨2, by simp [Fin.forall_fin_succ, LevelTable.slot, hpass h0, hpass h1],
      (slotTakes_iff d _).1 h2, rfl⟩
  · exact .inl ⟨by simp [Fin.forall_fin_succ, LevelTable.slot, hpass h0, hpass h1, hpass h2], rfl⟩

/-- A pulse meets the classes of its own level only (R187). -/
theorem tablePlace_cases (cfg : ConfigRegs) (p : Pulse) (t : ClassTable Nat) :
    ((∀ k, Passed cfg p.dur.toNat (t.slot p.level k)) ∧ tablePlace cfg p t = none) ∨
      ∃ k, (∀ k' < k, Passed cfg p.dur.toNat (t.slot p.level k')) ∧
        ¬ Passed cfg p.dur.toNat (t.slot p.level k) ∧
        tablePlace cfg p t =
          some (t.setSlot p.level k (slotJoin p.dur.toNat (t.slot p.level k))) := by
  simp only [ClassTable.setSlot_eq, tablePlace, ClassTable.slot]
  cases p.level with
  | false =>
    obtain ⟨hall, hnone⟩ | ⟨k, hlow, hk, hsome⟩ := levelPlace_cases cfg p.dur.toNat t.low
    · exact .inl ⟨hall, by simp [hnone]⟩
    · exact .inr ⟨k, hlow, hk, by simp [hsome]⟩
  | true =>
    obtain ⟨hall, hnone⟩ | ⟨k, hlow, hk, hsome⟩ := levelPlace_cases cfg p.dur.toNat t.high
    · exact .inl ⟨hall, by simp [hnone]⟩
    · exact .inr ⟨k, hlow, hk, by simp [hsome]⟩

/-! The run walk (R187). -/

/-- The class that takes a pulse is opened by it or joined by it. -/
theorem ClassWalk.placed {pulse : Nat → Pulse} {cap start len len' : Nat} {t t' : ClassTable Nat}
    (k : Fin 3) (hlen : len < cap) (hacc : ¬ Rejected cfg (pulse (start + len)))
    (hlow : ∀ k' < k, Passed cfg (pulse (start + len)).dur.toNat
      (t.slot (pulse (start + len)).level k'))
    (hk : ¬ Passed cfg (pulse (start + len)).dur.toNat (t.slot (pulse (start + len)).level k))
    (hrest : ClassWalk cfg pulse cap start (len + 1)
      (t.setSlot (pulse (start + len)).level k (slotJoin (pulse (start + len)).dur.toNat
        (t.slot (pulse (start + len)).level k))) len' t') :
    ClassWalk cfg pulse cap start len t len' t' := by
  unfold slotJoin at hrest
  split at hrest
  · exact .opened k hlen hacc hlow ‹_› hrest
  · rename_i hcnt
    have hnear := not_not.1 (not_and.1 hk hcnt)
    exact .joined k _ hlen hacc hlow rfl hcnt hnear hrest

/-- The model's loop walks the run, `fuel` being what is left of `PULSE_CAP`. -/
theorem classifyLoop_walk (pulse : Nat → Pulse) (cap start fuel : Nat) :
    ∀ (len : Nat) (t : ClassTable Nat), len + fuel = cap →
      ClassWalk cfg pulse cap start len t (classifyLoop cfg pulse start fuel len t).1
        (classifyLoop cfg pulse start fuel len t).2 := by
  induction fuel with
  | zero => exact fun len t hcap => .full (by omega)
  | succ fuel ih =>
    intro len t hcap
    have hlen : len < cap := by omega
    by_cases hacc : pulseAccepted cfg (pulse (start + len)) = true
    · have hnot := (pulseAccepted_iff _).1 hacc
      obtain ⟨hall, hnone⟩ | ⟨k, hlow, hk, hsome⟩ := tablePlace_cases cfg (pulse (start + len)) t
      · simpa [classifyLoop, hacc, hnone] using ClassWalk.noClass hlen hnot hall
      · simpa [classifyLoop, hacc, hsome] using ClassWalk.placed k hlen hnot hlow hk (ih _ _ (by omega))
    · have hrej : Rejected cfg (pulse (start + len)) := not_not.1 (mt (pulseAccepted_iff _).2 hacc)
      simpa [classifyLoop, hacc] using ClassWalk.rejected hlen hrej

theorem classifyRun_walk (pulse : Nat → Pulse) (cap start : Nat) :
    ClassWalk cfg pulse cap start 0 (ClassTable.empty 0) (classifyRun cfg pulse cap start).1
      (classifyRun cfg pulse cap start).2 :=
  classifyLoop_walk pulse cap start cap 0 _ (Nat.zero_add cap)

/-! The unit estimate (R188, R189). -/

/-- `a` is the smallest average among the qualifying classes of a set of slots, or none. -/
def SlotsLeast (cfg : ConfigRegs) (slots : List (Slot Nat)) : Option Nat → Prop
  | none => ∀ sl ∈ slots, ¬ Qualifies cfg sl
  | some v => (∃ sl ∈ slots, Qualifies cfg sl ∧ sl.avg = v) ∧
      ∀ sl ∈ slots, Qualifies cfg sl → v ≤ sl.avg

theorem slotsLeast_slotAvg (sl : Slot Nat) : SlotsLeast cfg [sl] (slotAvg cfg sl) := by
  have hq : slotQualifies cfg sl = true ↔ Qualifies cfg sl := by simp [slotQualifies, Qualifies]
  unfold slotAvg
  split
  · rename_i h
    simp [SlotsLeast, hq.1 h]
  · rename_i h
    simpa [SlotsLeast] using mt hq.2 h

/-- A set without a qualifying class adds nothing to another, on either side. -/
theorem slotsLeast_append_of_none {xs ys : List (Slot Nat)} {a : Option Nat}
    (hx : SlotsLeast cfg xs none) (hy : SlotsLeast cfg ys a) :
    SlotsLeast cfg (xs ++ ys) a ∧ SlotsLeast cfg (ys ++ xs) a := by
  cases a with
  | none => grind [SlotsLeast]
  | some v => grind [SlotsLeast]

/-- The least of two sets of classes is the smaller of their leasts. -/
theorem slotsLeast_minAvg {xs ys : List (Slot Nat)} {a b : Option Nat} (ha : SlotsLeast cfg xs a)
    (hb : SlotsLeast cfg ys b) : SlotsLeast cfg (xs ++ ys) (minAvg a b) := by
  cases a with
  | none =>
    rw [show minAvg none b = b by cases b <;> rfl]
    exact (slotsLeast_append_of_none ha hb).1
  | some v =>
    cases b with
    | none => exact (slotsLeast_append_of_none hb ha).2
    | some w =>
      obtain ⟨⟨sl, hsl, hq, hv⟩, hle⟩ := ha
      obtain ⟨⟨sl', hsl', hq', hw⟩, hle'⟩ := hb
      refine ⟨?_, fun x hx hqx => ?_⟩
      · obtain hvw | hwv := le_total v w
        · exact ⟨sl, List.mem_append_left _ hsl, hq, hv.trans (min_eq_left hvw).symm⟩
        · exact ⟨sl', List.mem_append_right _ hsl', hq', hw.trans (min_eq_right hwv).symm⟩
      · obtain hx | hx := List.mem_append.1 hx
        · exact (min_le_left _ _).trans (hle x hx hqx)
        · exact (min_le_right _ _).trans (hle' x hx hqx)

theorem levelLeast_iff (t : ClassTable Nat) (level : Bool) (a : Option Nat) :
    LevelLeast cfg t level a ↔
      SlotsLeast cfg [t.slot level 0, t.slot level 1, t.slot level 2] a := by
  cases a <;> simp [LevelLeast, SlotsLeast, Fin.forall_fin_succ, Fin.exists_fin_succ]

theorem levelMin_least (t : ClassTable Nat) :
    LevelLeast cfg t false (levelMin cfg t.low) ∧ LevelLeast cfg t true (levelMin cfg t.high) := by
  have least (l : LevelTable Nat) : SlotsLeast cfg [l.s0, l.s1, l.s2] (levelMin cfg l) :=
    slotsLeast_minAvg (slotsLeast_slotAvg _)
      (slotsLeast_minAvg (slotsLeast_slotAvg _) (slotsLeast_slotAvg _))
  exact ⟨(levelLeast_iff t false _).2 (least t.low), (levelLeast_iff t true _).2 (least t.high)⟩

/-- The model's unit is the unit of the rule: a level without a qualifying class takes the other's value. -/
theorem unitOf_isUnit (t : ClassTable Nat) : IsUnit cfg t (unitOf cfg t) := by
  obtain ⟨hlow, hhigh⟩ := levelMin_least (cfg := cfg) t
  refine ⟨_, _, hlow, hhigh, ?_⟩
  unfold unitOf
  cases levelMin cfg t.low <;> cases levelMin cfg t.high <;> simp <;> omega

/-- Settles O34: the walk and the unit of the model's classification are those of the rules. -/
theorem pcClassifyWalksTheRun : Obligations.PcClassifyWalksTheRun := by
  intro s src
  refine ⟨_, _, _, ?_, unitOf_isUnit _, rfl⟩
  cases src <;> exact classifyRun_walk _ _ _

end Sys2Proof.Machine
end

section
/-!
PROOFS. Progress and the apertures: in a good state every agent's turn goes on unless the host breaks R74
(O14, O47), a read changes only what the host has read (O48), and what the BMEM and pulse apertures show and
take (O56, O57).
-/

namespace Sys2Proof.Machine

/-! The interface takes aligned words and nothing else (R74). -/

theorem accessAllowed_iff {size : Nat} {o : BitVec 22} :
    accessAllowed size o = true ↔ size = 4 ∧ o.toNat % 4 = 0 := by
  simp [accessAllowed]

theorem hostStep_refused {size : Nat} {o : BitVec 22} (h : ¬ (size = 4 ∧ o.toNat % 4 = 0))
    (s : State) (v : Word) : hostStep (.read size o) s = .refused .hostAccess ∧
      hostStep (.write size o v) s = .refused .hostAccess := by
  have hbad := mt accessAllowed_iff.1 h
  exact ⟨if_neg hbad, if_neg hbad⟩

/-- Settles O47: alignment and size alone decide whether an access is refused. -/
theorem onlyAlignedWordsAreAccepted : Obligations.OnlyAlignedWordsAreAccepted := by
  intro s size o v
  constructor
  · intro hbad
    exact hostStep_refused (fun ⟨hsize, ho⟩ => hbad.elim (· hsize) (· ho)) s v
  · rintro rfl ho
    exact ⟨⟨_, hostStep_read s ho⟩, _, hostStep_write s ho v⟩

/-- A read writes only the two fields that record it (logs 3 and 10). -/
theorem hostRead_frame (s : State) (g : Target) :
    hostRead s g = { s with readData := (hostRead s g).readData, draws := (hostRead s g).draws } := by
  unfold hostRead
  split <;> rfl

/-- Settles O48: an accepted read is a `hostRead` of the target of its offset. -/
theorem readsHaveNoSideEffect : Obligations.ReadsHaveNoSideEffect := by
  intro s t size o hx
  obtain ⟨_, -, -, rfl⟩ | ⟨_, _, hop, -, -⟩ := hostStep_next hx
  · exact hostRead_frame s _
  · cases hop

/-! Progress (R112, R242): the issue check has made sure that every step of an accepted command has a
meaning. -/

section Progress

variable {s : State}

/-- A pending command is one the primitive engine runs, with its descriptors in range. -/
theorem PeLegal.latched (h : PeLegal s) (hp : s.pe.pending = true) :
    ∃ i, decode s.pe.latch.word = .ok i ∧ i ≠ .pcScan ∧
      inRange (descriptors i s.pe.latch) s.params.bmemBytes = true := by
  cases hd : decode s.pe.latch.word with
  | error e => simpa [PeLegal, hd] using h hp
  | ok i =>
    obtain ⟨hi, -, hr⟩ := (peLegal_iff_of_decode hd).1 h hp
    exact ⟨i, rfl, hi, hr⟩

/-- A step of `PC.SNAP` names no descriptor: it moves on or completes (R183). -/
theorem execPcSnap_goesOn (s : State) : ∃ t, execPcSnap s = .next t := by
  unfold execPcSnap
  dsimp only
  split <;> exact ⟨_, rfl⟩

/-- Only the CONVERT step of a scan touches BMEM, in its window (R214). -/
theorem execPcScan_goesOn (hr : inRange [s.sq.latch.window] s.params.bmemBytes = true) :
    ∃ t, execPcScan s = .next t := by
  unfold execPcScan
  cases s.sq.phase with
  | convert => exact ⟨_, ifInRange_of_inRange hr⟩
  | _ => exact ⟨_, rfl⟩

/-- A command of the primitive engine goes on when every descriptor it names is in range. -/
theorem exec_goesOn {i : Instr} (hi : i ≠ .pcScan)
    (hr : inRange (descriptors i s.pe.latch) s.params.bmemBytes = true) :
    ∃ t, exec i s = .next t := by
  cases i with
  | pcSnap => exact execPcSnap_goesOn s
  | pcClassify src => exact ⟨_, rfl⟩
  | pcScan => exact absurd rfl hi
  | _ => exact ⟨_, ifInRange_of_inRange hr⟩

theorem peTurn_goesOn (h : PeLegal s) : ∃ t, peTurn s = .next t := by
  cases hp : s.pe.pending with
  | false => exact ⟨s, if_neg (by simp [hp])⟩
  | true =>
    obtain ⟨i, hd, hi, hr⟩ := h.latched hp
    rw [peTurn_of_pending hp hd]
    exact exec_goesOn hi hr

theorem sqTurn_goesOn (h : SqLegal s) : ∃ t, sqTurn s = .next t := by
  cases he : s.sqEnabled with
  | false => exact ⟨s, if_neg (by simp [he])⟩
  | true =>
    obtain ⟨hd, hr, -⟩ := h.latched (sqEnabled_iff.1 he).1
    rw [sqTurn_of_enabled he hd]
    exact execPcScan_goesOn hr

theorem engineTurn_goesOn (h : Inv s) : ∃ t, engineTurn s = .next t := by
  cases hp : s.pe.pending with
  | false =>
    rw [engineTurn_of_not_pending hp]
    exact sqTurn_goesOn h.sqLegal
  | true =>
    rw [engineTurn_of_pending hp]
    exact peTurn_goesOn h.peLegal

/-- The host's turn goes on when its access is an aligned word, whatever the machine holds. -/
theorem hostStep_goesOn {op : HostOp} {rest : List Event} (hs : s.schedule = .host op :: rest)
    (ha : NextAccessAllowed s) (u : State) : ∃ t, hostStep op u = .next t := by
  rw [NextAccessAllowed, hs] at ha
  cases op with
  | read size o =>
    obtain ⟨rfl, ho⟩ := ha
    exact ⟨_, hostStep_read u ho⟩
  | write size o v =>
    obtain ⟨rfl, ho⟩ := ha
    exact ⟨_, hostStep_write u ho v⟩

end Progress

/-- Settles O14: whoever takes the turn, the invariant says that its step has a meaning; a host turn alone
needs R74 as well. -/
theorem runsNeverStop : Obligations.RunsNeverStop := by
  intro s h ha
  obtain ⟨-, hx⟩ | ⟨op, rest, hs, hx⟩ | ⟨p, rest, -, hx⟩ | ⟨rest, -, hx⟩ | ⟨rest, -, hx⟩ |
    ⟨rest, -, hx | hx⟩ := step_cases s
  · rw [hx]
    exact engineTurn_goesOn h
  · rw [hx]
    exact hostStep_goesOn hs ha _
  · exact ⟨_, hx⟩
  · rw [hx]
    exact peTurn_goesOn (s := { s with schedule := rest }) h.peLegal
  · rw [hx]
    exact sqTurn_goesOn (s := { s with schedule := rest }) h.sqLegal
  · exact ⟨_, hx⟩
  · rw [hx]
    exact engineTurn_goesOn h

/-! The offset of an aperture word (R72, R73, R75): the address map read backwards. -/

section Apertures

/-- The place of a half in the eight bytes of its entry (R75). -/
def PulseHalf.offset : PulseHalf → Nat
  | .dur => 0
  | .level => 4

/-- Where a target stands; an unmapped one has no place of its own. -/
def Target.offset : Target → Nat
  | .reg r => r.offset
  | .bmem a => 0x100000 + a
  | .snap j half => 0x200000 + half.offset + 8 * j
  | .det j half => 0x300000 + half.offset + 8 * j
  | .unmapped => 0

/-- The targets that a machine with these parameters has. -/
def Target.Mapped (p : Params) : Target → Prop
  | .reg _ => True
  | .bmem a => a % 4 = 0 ∧ a < 4 * ((p.bmemBytes + 3) / 4)
  | .snap j _ => j < p.pulseCap
  | .det j _ => j < p.pulseCap
  | .unmapped => False

variable {p : Params} {g : Target}

theorem PulseHalf.offset_aligned (half : PulseHalf) : half.offset % 4 = 0 := by
  cases half <;> rfl

theorem PulseHalf.offset_lt (half : PulseHalf) : half.offset < 8 := by
  cases half <;> decide

/-- The half of an entry is told by the offset modulo 8, at every aperture base. -/
theorem pulseHalfAt_offset {base : Nat} (hbase : base % 8 = 0) (half : PulseHalf) (j : Nat) :
    pulseHalfAt (base + half.offset + 8 * j) = half := by
  cases half with
  | dur => exact if_pos (by simp only [PulseHalf.offset]; omega)
  | level => exact if_neg (by simp only [PulseHalf.offset]; omega)

theorem Target.offset_aligned (hg : g.Mapped p) : g.offset % 4 = 0 := by
  cases g with
  | reg r => exact r.offset_aligned
  | bmem a =>
    obtain ⟨ha, -⟩ := hg
    simp only [Target.offset]
    omega
  | snap j half =>
    have := half.offset_aligned
    simp only [Target.offset]
    omega
  | det j half =>
    have := half.offset_aligned
    simp only [Target.offset]
    omega
  | unmapped => exact hg.elim

/-- Every target of a legal machine has a 22-bit offset (R72): the apertures hold the largest memories. -/
theorem Target.offset_lt (hp : ParamsLegal p) (hg : g.Mapped p) : g.offset < 2 ^ 22 := by
  obtain ⟨⟨-, hcap⟩, -, hbytes⟩ := hp
  simp only [Config.maxPulseCap, Config.maxBmemBytes] at hcap hbytes
  cases g with
  | reg r =>
    have := r.offset_le
    simp only [Target.offset]
    omega
  | bmem a =>
    obtain ⟨-, ha⟩ := hg
    simp only [Target.offset]
    omega
  | snap j half =>
    have := half.offset_lt
    simp only [Target.offset, Target.Mapped] at hg ⊢
    omega
  | det j half =>
    have := half.offset_lt
    simp only [Target.offset, Target.Mapped] at hg ⊢
    omega
  | unmapped => exact hg.elim

/-- In a legal machine no aperture runs into the next one, so an offset names its target. -/
theorem targetAt_offset (hp : ParamsLegal p) (hg : g.Mapped p) : targetAt p g.offset = g := by
  obtain ⟨⟨-, hcap⟩, -, hbytes⟩ := hp
  simp only [Config.maxPulseCap, Config.maxBmemBytes] at hcap hbytes
  cases g with
  | reg r => exact targetAt_reg p r
  | bmem a =>
    obtain ⟨-, ha⟩ := hg
    simp only [Target.offset]
    rw [targetAt_bmemAperture p (by omega) (by omega), if_pos (by omega), Nat.add_sub_cancel_left]
  | snap j half =>
    have hhalf := half.offset_lt
    simp only [Target.offset, Target.Mapped] at hg ⊢
    rw [targetAt_snapAperture p (by omega) (by omega), if_pos (by omega),
      pulseHalfAt_offset (by decide)]
    congr
    omega
  | det j half =>
    have hhalf := half.offset_lt
    simp only [Target.offset, Target.Mapped] at hg ⊢
    rw [targetAt_detAperture p (by omega), if_pos (by omega), pulseHalfAt_offset (by decide)]
    congr
    omega
  | unmapped => exact hg.elim

variable {s : State}

/-- An access at a target's offset is an access to the target. -/
theorem hostStep_at_offset (hp : ParamsLegal s.params) (hg : g.Mapped s.params) (v : Word) :
    hostStep (.read 4 (BitVec.ofNat 22 g.offset)) s = .next (hostRead s g) ∧
      hostStep (.write 4 (BitVec.ofNat 22 g.offset) v) s = .next (writeTarget s v g) := by
  have haddr : (BitVec.ofNat 22 g.offset).toNat = g.offset := Nat.mod_eq_of_lt (g.offset_lt hp hg)
  have hal : (BitVec.ofNat 22 g.offset).toNat % 4 = 0 := by rw [haddr, g.offset_aligned hg]
  rw [hostStep_read s hal, hostStep_write s hal, haddr, targetAt_offset hp hg]
  exact ⟨rfl, rfl⟩

/-- A read of a mapped target by a core that is not busy returns its defined value. -/
theorem hostStep_read_idle (hp : ParamsLegal s.params) (hg : g.Mapped s.params)
    (hb : s.busy = false) : hostStep (.read 4 (BitVec.ofNat 22 g.offset)) s =
      .next { s with readData := readTarget s g } := by
  obtain ⟨hread, -⟩ := hostStep_at_offset hp hg 0#32
  rw [hread, hostRead_of_defined s (.inl hb)]
  rfl

end Apertures

/-! The pulse apertures (R75). -/

theorem pulseWord_level (q : Pulse) : pulseWord q .level = if q.level then 1#32 else 0#32 := by
  cases h : q.level <;> simp [pulseWord, h, Word.ofBit]

/-- Settles O57: the four offsets are those of the two halves of an entry in the two apertures. -/
theorem pulseApertures : Obligations.PulseApertures := by
  intro s j v hp hj
  have hsnap (half : PulseHalf) : (Target.snap j half).Mapped s.params := hj
  have hdet (half : PulseHalf) : (Target.det j half).Mapped s.params := hj
  constructor
  · intro hb
    rw [← pulseWord_level, ← pulseWord_level]
    exact ⟨hostStep_read_idle hp (hsnap .dur) hb, hostStep_read_idle hp (hsnap .level) hb,
      hostStep_read_idle hp (hdet .dur) hb, hostStep_read_idle hp (hdet .level) hb⟩
  · simp only [List.forall_mem_cons, List.not_mem_nil, false_imp_iff, implies_true, and_true]
    exact ⟨(hostStep_at_offset hp (hsnap .dur) v).2, (hostStep_at_offset hp (hsnap .level) v).2,
      (hostStep_at_offset hp (hdet .dur) v).2, (hostStep_at_offset hp (hdet .level) v).2⟩

/-! The words of the BMEM aperture (R73, R86). -/

/-- Lane `j` of a word read is the byte `j` above its address. -/
theorem extractLsb'_readWord (s : State) (a : Nat) {j : Nat} (hj : j < 4) :
    (readWord s a).extractLsb' (8 * j) 8 = readLane s (a + j) := by
  unfold readWord
  interval_cases j
  · exact BitVec.extractLsb'_append_eq_right
  · rw [BitVec.extractLsb'_append_eq_of_le (by decide)]
    exact BitVec.extractLsb'_append_eq_right
  · rw [BitVec.extractLsb'_append_eq_of_le (by decide),
      BitVec.extractLsb'_append_eq_of_le (by decide)]
    exact BitVec.extractLsb'_append_eq_right
  · rw [BitVec.extractLsb'_append_eq_of_le (by decide),
      BitVec.extractLsb'_append_eq_of_le (by decide)]
    exact BitVec.extractLsb'_append_eq_left

theorem memRead_writeLane (bytes : Nat) (m : List Host.Cell) (a b : Nat) (v : Byte) :
    memRead (writeLane bytes m a v) b = if b = a ∧ a < bytes then v else memRead m b := by
  by_cases h : a < bytes <;> simp [writeLane, h, memRead_memWrite]

/-- A lane that exists takes its byte of the word. -/
theorem memRead_writeWord_lane {bytes : Nat} (m : List Host.Cell) {a j : Nat} (v : Word) (hj : j < 4)
    (hb : a + j < bytes) :
    memRead (writeWord bytes m a v) (a + j) = v.extractLsb' (8 * j) 8 := by
  have ha : a < bytes := by omega
  simp only [writeWord, memRead_writeLane]
  interval_cases j <;> simp [ha, hb]

/-- No other byte changes. -/
theorem memRead_writeWord_other {bytes : Nat} (m : List Host.Cell) {a b : Nat} (v : Word)
    (h : ¬ (a ≤ b ∧ b < a + 4 ∧ b < bytes)) :
    memRead (writeWord bytes m a v) b = memRead m b := by
  simp only [writeWord, memRead_writeLane]
  repeat rw [if_neg (by omega)]

/-- Settles O56: the offset names the BMEM word at `a`, whose write is four lane writes, or `OVR` while the
core is busy, and whose read is four lane reads. -/
theorem bmemApertureWords : Obligations.BmemApertureWords := by
  intro s a v hp ha hlt
  have hg : (Target.bmem a).Mapped s.params := ⟨ha, hlt⟩
  obtain ⟨-, hwrite⟩ := hostStep_at_offset hp hg v
  constructor
  · intro hb
    exact hwrite.trans (congrArg _ (if_pos hb))
  · intro hb
    refine ⟨⟨writeWord s.params.bmemBytes s.bmem a v, ?_, ?_, ?_⟩, readWord s a,
      hostStep_read_idle hp hg hb, ?_⟩
    · exact hwrite.trans (congrArg _ (if_neg (by simp [hb])))
    · exact fun j hj hlane => memRead_writeWord_lane s.bmem v hj hlane
    · exact fun b hother => memRead_writeWord_other s.bmem v hother
    · exact fun j hj => extractLsb'_readWord s a hj

end Sys2Proof.Machine
end

section
/-!
PROOFS. The command words (R90 to R103): decoding and encoding undo each other (O1, O2, O3), the masks of
R99 and the ranges of R102 sort the words into four classes (O4), and the issue of a word that is no command
reports its class (O5). The command whose pattern a format P word measures, `BM.MATCH`, comes last (O20).
-/

namespace Sys2Proof.Machine

open Sys2Proof.Laws (opcodeOf)

/-! Zeros above a bit position, and words cut into their fields and put together again. -/

section Bits

variable {k m n : Nat}

theorem extractLsb'_eq_zero_iff {w : BitVec k} (h : m + n = k) :
    w.extractLsb' n m = 0#m ↔ w.toNat < 2 ^ n := by
  have hlt : w.toNat / 2 ^ n < 2 ^ m := by
    rw [Nat.div_lt_iff_lt_mul (by positivity), ← pow_add, h]
    exact w.isLt
  rw [← BitVec.toNat_inj, BitVec.extractLsb'_toNat, Nat.shiftRight_eq_div_pow, Nat.mod_eq_of_lt hlt]
  simp

theorem toNat_lt_two_pow_iff (w : Word) : w.toNat < 2 ^ n ↔ ∀ j, n ≤ j → w.getLsbD j = false :=
  ⟨fun h _ hj => Nat.testBit_lt_two_pow (h.trans_le (Nat.pow_le_pow_right two_pos hj)),
    Nat.lt_pow_two_of_testBit _⟩

theorem ofBool_getLsbD (w : Word) (k : Nat) : BitVec.ofBool (w.getLsbD k) = w.extractLsb' k 1 := by
  ext j hj
  obtain rfl : j = 0 := by omega
  simp

/-- A format with one field: its reserved bits are 0. -/
theorem toNat_oneField_lt (f : BitVec n) (op : BitVec 8) :
    (0#m ++ f ++ op).toNat < 2 ^ (n + 8) := by
  rw [← extractLsb'_eq_zero_iff (m := m) (by omega), BitVec.extractLsb'_append_eq_of_le (by omega),
    Nat.add_sub_cancel]
  exact BitVec.extractLsb'_append_eq_left

theorem extractLsb'_oneField (f : BitVec n) (op : BitVec 8) :
    (0#m ++ f ++ op).extractLsb' 8 n = f := by
  rw [BitVec.extractLsb'_append_eq_of_le le_rfl]
  exact BitVec.extractLsb'_append_eq_right

theorem getLsbD_oneField (b : Bool) (op : BitVec 8) :
    (0#m ++ BitVec.ofBool b ++ op).getLsbD 8 = b := by
  rw [BitVec.getLsbD_append, BitVec.getLsbD_append]
  simp

theorem noField_of_extractLsb' {w : BitVec (m + 8)} (h : w.toNat < 2 ^ 8) :
    0#m ++ w.extractLsb' 0 8 = w := by
  rw [← (extractLsb'_eq_zero_iff rfl).2 h,
    BitVec.extractLsb'_append_extractLsb'_eq_extractLsb' (Nat.zero_add 8).symm,
    BitVec.extractLsb'_eq_self]

theorem oneField_of_extractLsb' {w : BitVec (m + n + 8)} (h : w.toNat < 2 ^ (n + 8)) :
    0#m ++ w.extractLsb' 8 n ++ w.extractLsb' 0 8 = w := by
  rw [← (extractLsb'_eq_zero_iff (m := m) (by omega)).2 h,
    BitVec.extractLsb'_append_extractLsb'_eq_extractLsb' (Nat.add_comm n 8),
    BitVec.extractLsb'_append_extractLsb'_eq_extractLsb' (Nat.zero_add 8).symm,
    BitVec.extractLsb'_eq_self]

/-- The four fields of format M and the opcode leave no bit out (R95). -/
theorem fourFields_of_extractLsb' (w : Word) :
    w.extractLsb' 24 8 ++ w.extractLsb' 16 8 ++ w.extractLsb' 12 4 ++ w.extractLsb' 8 4 ++
      w.extractLsb' 0 8 = w := by
  iterate 4 rw [BitVec.extractLsb'_append_extractLsb'_eq_extractLsb' (by decide)]
  exact BitVec.extractLsb'_eq_self

/-- The four fields of format M are read back (R95). -/
theorem extractLsb'_fourFields (a b : BitVec 8) (c d : BitVec 4) (op : BitVec 8) :
    (encodeM op a b c d).extractLsb' 24 8 = a ∧ (encodeM op a b c d).extractLsb' 16 8 = b ∧
      (encodeM op a b c d).extractLsb' 12 4 = c ∧ (encodeM op a b c d).extractLsb' 8 4 = d := by
  unfold encodeM
  refine ⟨?_, ?_, ?_, ?_⟩
  · iterate 3 rw [BitVec.extractLsb'_append_eq_of_le (by decide)]
    exact BitVec.extractLsb'_append_eq_left
  · iterate 3 rw [BitVec.extractLsb'_append_eq_of_le (by decide)]
    exact BitVec.extractLsb'_append_eq_right
  · iterate 2 rw [BitVec.extractLsb'_append_eq_of_le (by decide)]
    exact BitVec.extractLsb'_append_eq_right
  · rw [BitVec.extractLsb'_append_eq_of_le (by decide)]
    exact BitVec.extractLsb'_append_eq_right

end Bits

/-! One row of the opcode map (R99): where the fields of its format end, and what they hold. -/

section Rows

variable {w : Word} {i j : Instr} {n : Nat}

/-- The lowest bit that the format of an opcode reserves; 32 when it reserves none (R91, R99). -/
def fieldsEnd (op : BitVec 8) : Nat :=
  if op = 0x20#8 then 32
  else if op ∈ [0x14#8, 0x15#8] then 15
  else if op = 0x16#8 then 14
  else if op ∈ [0x11#8, 0x41#8, 0x42#8] then 9
  else 8

/-- The command with the opcode of a given one and the fields that `w` holds (R91). -/
def readFields (w : Word) : Instr → Instr
  | .bmSet _ => .bmSet (w.getLsbD 8)
  | .bmMatch _ => .bmMatch (w.extractLsb' 8 7)
  | .bmSeek _ => .bmSeek (w.extractLsb' 8 7)
  | .bmReadw _ => .bmReadw (w.extractLsb' 8 6)
  | .lcManch _ _ _ _ =>
    .lcManch (w.extractLsb' 24 8) (w.extractLsb' 16 8) (w.extractLsb' 12 4) (w.extractLsb' 8 4)
  | .pcClassify _ => .pcClassify (srcOfBit (w.getLsbD 8))
  | .pcTobits _ => .pcTobits (srcOfBit (w.getLsbD 8))
  | i => i

theorem eight_le_fieldsEnd (op : BitVec 8) : 8 ≤ fieldsEnd op := by
  unfold fieldsEnd
  split_ifs <;> decide

theorem srcOfBit_bitOfSrc (src : Src) : srcOfBit (bitOfSrc src) = src := by cases src <;> rfl

theorem bitOfSrc_srcOfBit (b : Bool) : bitOfSrc (srcOfBit b) = b := by cases b <;> rfl

theorem decodeN_eq (i : Instr) (w : Word) :
    decodeN i w = if w.toNat < 2 ^ 8 then checkFields i else .error .reservedBits :=
  if_congr (extractLsb'_eq_zero_iff rfl) rfl rfl

theorem decodeV_eq (mk : Bool → Instr) (w : Word) : decodeV mk w =
    if w.toNat < 2 ^ 9 then checkFields (mk (w.getLsbD 8)) else .error .reservedBits :=
  if_congr (extractLsb'_eq_zero_iff rfl) rfl rfl

theorem decodeS_eq (mk : Src → Instr) (w : Word) : decodeS mk w =
    if w.toNat < 2 ^ 9 then checkFields (mk (srcOfBit (w.getLsbD 8))) else .error .reservedBits :=
  decodeV_eq _ w

theorem decodeP_eq (mk : BitVec 7 → Instr) (w : Word) : decodeP mk w =
    if w.toNat < 2 ^ 15 then checkFields (mk (w.extractLsb' 8 7)) else .error .reservedBits :=
  if_congr (extractLsb'_eq_zero_iff rfl) rfl rfl

theorem decodeW_eq (mk : BitVec 6 → Instr) (w : Word) : decodeW mk w =
    if w.toNat < 2 ^ 14 then checkFields (mk (w.extractLsb' 8 6)) else .error .reservedBits :=
  if_congr (extractLsb'_eq_zero_iff rfl) rfl rfl

/-- A word whose opcode is in the map is read by the format of its opcode, which asks that the bits above
the fields are 0 and then that the fields hold legal values (R90, R242). -/
theorem decode_of_opcode (h : opcodeField w = opcodeOf i) :
    decode w = if w.toNat < 2 ^ fieldsEnd (opcodeOf i) then checkFields (readFields w i)
      else .error .reservedBits := by
  unfold decode
  rw [h]
  cases i with
  | bmGet => exact decodeN_eq _ w
  | bmSet val => exact decodeV_eq _ w
  | bmCopy => exact decodeN_eq _ w
  | bmRev => exact decodeN_eq _ w
  | bmMatch plen => exact decodeP_eq _ w
  | bmSeek plen => exact decodeP_eq _ w
  | bmReadw nbits => exact decodeW_eq _ w
  | lcManch opat zpat olen zlen => exact (if_pos w.isLt).symm
  | lcDiffm => exact decodeN_eq _ w
  | crc8 => exact decodeN_eq _ w
  | crc16 => exact decodeN_eq _ w
  | pcSnap => exact decodeN_eq _ w
  | pcClassify src => exact decodeS_eq _ w
  | pcTobits src => exact decodeS_eq _ w
  | pcScan => exact decodeN_eq _ w

/-- A word of no row is an illegal opcode (R100). -/
theorem decode_of_not_mapped (h : ∀ i, opcodeField w ≠ opcodeOf i) :
    decode w = .error .illegalOpcode :=
  (if_neg (h .bmGet)).trans <| (if_neg (h (.bmSet false))).trans <| (if_neg (h .bmCopy)).trans <|
  (if_neg (h .bmRev)).trans <| (if_neg (h (.bmMatch 0))).trans <| (if_neg (h (.bmSeek 0))).trans <|
  (if_neg (h (.bmReadw 0))).trans <| (if_neg (h (.lcManch 0 0 0 0))).trans <|
  (if_neg (h .lcDiffm)).trans <| (if_neg (h .crc8)).trans <| (if_neg (h .crc16)).trans <|
  (if_neg (h .pcSnap)).trans <| (if_neg (h (.pcClassify .snap))).trans <|
  (if_neg (h (.pcTobits .snap))).trans <| if_neg (h .pcScan)

theorem checkFields_eq_ok_iff : checkFields i = .ok j ↔ i.wellFormed = true ∧ i = j := by
  unfold checkFields
  split <;> simp [*]

/-- A word decodes to `j` exactly when its opcode is that of `j`, its reserved bits are 0, and `j` is what
its fields hold and is well formed. -/
theorem decode_eq_ok_iff : decode w = .ok j ↔
    opcodeField w = opcodeOf j ∧ w.toNat < 2 ^ fieldsEnd (opcodeOf j) ∧ readFields w j = j ∧
      j.wellFormed = true := by
  constructor
  · intro h
    have hop := (opcodeOf_of_decode h).symm
    rw [decode_of_opcode hop] at h
    split at h
    · obtain ⟨hwf, hj⟩ := checkFields_eq_ok_iff.1 h
      exact ⟨hop, ‹_›, hj, hj ▸ hwf⟩
    · cases h
  · rintro ⟨hop, hlt, hj, hwf⟩
    rw [decode_of_opcode hop, if_pos hlt, hj]
    exact checkFields_eq_ok_iff.2 ⟨hwf, rfl⟩

/-! The word of a command (R91, R105). -/

theorem opcodeField_encode (i : Instr) : opcodeField (encode i) = opcodeOf i := by
  cases i <;> exact Laws.low_byte_append _ _

theorem encode_lt (i : Instr) : (encode i).toNat < 2 ^ fieldsEnd (opcodeOf i) := by
  cases i with
  | bmSet val => exact toNat_oneField_lt _ _
  | bmMatch plen => exact toNat_oneField_lt _ _
  | bmSeek plen => exact toNat_oneField_lt _ _
  | bmReadw nbits => exact toNat_oneField_lt _ _
  | lcManch opat zpat olen zlen => exact (encode _).isLt
  | pcClassify src => exact toNat_oneField_lt _ _
  | pcTobits src => exact toNat_oneField_lt _ _
  | _ => decide

theorem readFields_encode (i : Instr) : readFields (encode i) i = i := by
  cases i with
  | bmSet val => exact congrArg _ (getLsbD_oneField val _)
  | bmMatch plen => exact congrArg _ (extractLsb'_oneField plen _)
  | bmSeek plen => exact congrArg _ (extractLsb'_oneField plen _)
  | bmReadw nbits => exact congrArg _ (extractLsb'_oneField nbits _)
  | lcManch opat zpat olen zlen =>
    obtain ⟨hopat, hzpat, holen, hzlen⟩ := extractLsb'_fourFields opat zpat olen zlen 0x20#8
    simp only [readFields, encode, hopat, hzpat, holen, hzlen]
  | pcClassify src =>
    exact congrArg _ ((congrArg _ (getLsbD_oneField _ _)).trans (srcOfBit_bitOfSrc src))
  | pcTobits src =>
    exact congrArg _ ((congrArg _ (getLsbD_oneField _ _)).trans (srcOfBit_bitOfSrc src))
  | _ => rfl

theorem encodeV_getLsbD (hlt : w.toNat < 2 ^ 9) : encodeV (opcodeField w) (w.getLsbD 8) = w := by
  rw [encodeV, ofBool_getLsbD]
  exact oneField_of_extractLsb' hlt

/-- A word whose reserved bits are 0 is made of its opcode and its fields. -/
theorem encode_readFields (h : opcodeField w = opcodeOf i)
    (hlt : w.toNat < 2 ^ fieldsEnd (opcodeOf i)) : encode (readFields w i) = w := by
  cases i with
  | bmSet val => exact (congrArg (encodeV · _) h.symm).trans (encodeV_getLsbD hlt)
  | bmMatch plen => exact (congrArg (encodeP · _) h.symm).trans (oneField_of_extractLsb' hlt)
  | bmSeek plen => exact (congrArg (encodeP · _) h.symm).trans (oneField_of_extractLsb' hlt)
  | bmReadw nbits => exact (congrArg (encodeW · _) h.symm).trans (oneField_of_extractLsb' hlt)
  | lcManch opat zpat olen zlen =>
    exact (congrArg (encodeM · _ _ _ _) h.symm).trans (fourFields_of_extractLsb' w)
  | pcClassify src =>
    simp only [readFields, encode, bitOfSrc_srcOfBit]
    exact (congrArg (encodeV · _) h.symm).trans (encodeV_getLsbD hlt)
  | pcTobits src =>
    simp only [readFields, encode, bitOfSrc_srcOfBit]
    exact (congrArg (encodeV · _) h.symm).trans (encodeV_getLsbD hlt)
  | _ => exact (congrArg encodeN h.symm).trans (noField_of_extractLsb' hlt)

end Rows

/-- Settles O2: the word of a command has its opcode, zeros above its fields, and its fields. -/
theorem decodeOfEncode : Obligations.DecodeOfEncode :=
  fun i hwf => decode_eq_ok_iff.2 ⟨opcodeField_encode i, encode_lt i, readFields_encode i, hwf⟩

/-- Settles O3: a word that decodes holds its opcode, its fields and zeros, which is how it is encoded. -/
theorem encodeOfDecode : Obligations.EncodeOfDecode := by
  intro w i h
  obtain ⟨hop, hlt, hi, hwf⟩ := decode_eq_ok_iff.1 h
  exact ⟨hwf, hi ▸ encode_readFields hop hlt⟩

/-- Settles O1: each of the words is the word of its command. -/
theorem decodeWrittenOutWords : Obligations.DecodeWrittenOutWords :=
  ⟨decodeOfEncode .bmGet rfl, decodeOfEncode (.bmSet true) rfl, decodeOfEncode .bmCopy rfl,
    decodeOfEncode .bmRev rfl, decodeOfEncode (.bmMatch 6#7) rfl, decodeOfEncode (.bmSeek 16#7) rfl,
    decodeOfEncode (.bmReadw 32#6) rfl, decodeOfEncode (.lcManch 0x02#8 0x01#8 2#4 2#4) rfl,
    decodeOfEncode (.lcManch 0x01#8 0x06#8 3#4 3#4) rfl, decodeOfEncode .lcDiffm rfl,
    decodeOfEncode .crc8 rfl, decodeOfEncode .crc16 rfl, decodeOfEncode .pcSnap rfl,
    decodeOfEncode (.pcClassify .det) rfl, decodeOfEncode (.pcTobits .det) rfl,
    decodeOfEncode .pcScan rfl⟩

/-! The masks of R99 and the ranges of R102. -/

section Classes

variable {w : Word} {i : Instr} {n : Nat}

/-- The mask of a row: the opcode byte and every bit from `n` up. -/
def rowMask (n : Nat) : Word := BitVec.allOnes 32 <<< n ||| (BitVec.allOnes 8).setWidth 32

theorem getLsbD_rowMask {j : Nat} (hj : j < 32) :
    (rowMask n).getLsbD j = decide (n ≤ j ∨ j < 8) := by
  rw [Bool.eq_iff_iff, rowMask, BitVec.getLsbD_or, BitVec.getLsbD_shiftLeft, BitVec.getLsbD_setWidth,
    BitVec.getLsbD_allOnes, BitVec.getLsbD_allOnes]
  simp
  omega

/-- A word matches under a row's mask when it has the row's opcode and zeros above the fields. -/
theorem and_rowMask_eq_iff {op : BitVec 8} (hn : 8 ≤ n) :
    w &&& rowMask n = op.setWidth 32 ↔ opcodeField w = op ∧ w.toNat < 2 ^ n := by
  rw [toNat_lt_two_pow_iff]
  constructor
  · intro h
    have hbit (j : Nat) (hj : j < 32) :
        (w.getLsbD j && decide (n ≤ j ∨ j < 8)) = op.getLsbD j := by
      rw [← getLsbD_rowMask hj, ← BitVec.getLsbD_and, h, BitVec.getLsbD_setWidth]
      simp [hj]
    constructor
    · apply BitVec.eq_of_getLsbD_eq
      intro j hj
      simpa [opcodeField, hj] using hbit j (by omega)
    · intro j hj
      by_cases hj' : j < 32
      · simpa [hj, show 8 ≤ j by omega] using hbit j hj'
      · exact BitVec.getLsbD_of_ge w j (by omega)
  · rintro ⟨rfl, hw⟩
    apply BitVec.eq_of_getLsbD_eq
    intro j hj
    rw [BitVec.getLsbD_and, getLsbD_rowMask hj, BitVec.getLsbD_setWidth, opcodeField]
    by_cases h : n ≤ j
    · simp [hw j h]
    · by_cases h8 : j < 8 <;> simp [h, h8, hj]

/-- The row of an opcode in the table of R99: (match, mask). -/
def rowOf (op : BitVec 8) : Word × Word := (op.setWidth 32, rowMask (fieldsEnd op))

/-- The opcodes of R99. -/
def opcodeMap : List (BitVec 8) :=
  [0x10#8, 0x11#8, 0x12#8, 0x13#8, 0x14#8, 0x15#8, 0x16#8, 0x20#8, 0x21#8, 0x30#8, 0x31#8, 0x40#8,
    0x41#8, 0x42#8, 0x43#8]

theorem specRows_eq_map : specRows = opcodeMap.map rowOf := by decide

theorem mem_opcodeMap_iff {op : BitVec 8} : op ∈ opcodeMap ↔ ∃ i, op = opcodeOf i := by
  constructor
  · intro h
    simp only [opcodeMap, List.mem_cons, List.not_mem_nil, or_false] at h
    obtain h | h | h | h | h | h | h | h | h | h | h | h | h | h | h := h
    exacts [⟨.bmGet, h⟩, ⟨.bmSet false, h⟩, ⟨.bmCopy, h⟩, ⟨.bmRev, h⟩, ⟨.bmMatch 0, h⟩,
      ⟨.bmSeek 0, h⟩, ⟨.bmReadw 0, h⟩, ⟨.lcManch 0 0 0 0, h⟩, ⟨.lcDiffm, h⟩, ⟨.crc8, h⟩, ⟨.crc16, h⟩,
      ⟨.pcSnap, h⟩, ⟨.pcClassify .snap, h⟩, ⟨.pcTobits .snap, h⟩, ⟨.pcScan, h⟩]
  · rintro ⟨i, rfl⟩
    cases i <;> simp [opcodeMap, opcodeOf]

/-- The rows of R99 are those of the commands. -/
theorem mem_specRows_iff {r : Word × Word} : r ∈ specRows ↔ ∃ i, r = rowOf (opcodeOf i) := by
  rw [specRows_eq_map, List.mem_map]
  constructor
  · rintro ⟨op, hop, rfl⟩
    obtain ⟨i, rfl⟩ := mem_opcodeMap_iff.1 hop
    exact ⟨i, rfl⟩
  · rintro ⟨i, rfl⟩
    exact ⟨_, mem_opcodeMap_iff.2 ⟨i, rfl⟩, rfl⟩

theorem exists_mem_specRows {P : Word × Word → Prop} :
    (∃ r ∈ specRows, P r) ↔ ∃ i, P (rowOf (opcodeOf i)) := by
  simp only [mem_specRows_iff]
  exact ⟨fun ⟨_, ⟨i, hr⟩, hP⟩ => ⟨i, hr ▸ hP⟩, fun ⟨i, hP⟩ => ⟨_, ⟨i, rfl⟩, hP⟩⟩

theorem and_0xFF_eq_iff {op : BitVec 8} : w &&& 0xFF#32 = op.setWidth 32 ↔ opcodeField w = op :=
  (and_rowMask_eq_iff (n := 32) (by decide)).trans (and_iff_left w.isLt)

theorem opcodeInMap_iff : OpcodeInMap w ↔ ∃ i, opcodeField w = opcodeOf i :=
  exists_mem_specRows.trans (exists_congr fun _ => and_0xFF_eq_iff)

theorem reservedClean_iff : ReservedClean w ↔
    ∃ i, opcodeField w = opcodeOf i ∧ w.toNat < 2 ^ fieldsEnd (opcodeOf i) :=
  exists_mem_specRows.trans (exists_congr fun _ => and_rowMask_eq_iff (eight_le_fieldsEnd _))

/-- The opcode alone says which bits are reserved (R90). -/
theorem reservedClean_iff_of_opcode (h : opcodeField w = opcodeOf i) :
    ReservedClean w ↔ w.toNat < 2 ^ fieldsEnd (opcodeOf i) := by
  rw [reservedClean_iff]
  constructor
  · rintro ⟨j, hj, hlt⟩
    rwa [← hj, h] at hlt
  · exact fun hlt => ⟨i, h, hlt⟩

/-- R102 names the field values that are not well formed. -/
theorem fieldIllegal_iff_of_opcode (h : opcodeField w = opcodeOf i) :
    FieldIllegal w ↔ ¬ (readFields w i).wellFormed = true := by
  have hop := (opcodeField_eq_iff w _).1 h
  unfold FieldIllegal
  rw [hop]
  cases i with
  | bmMatch plen => simp [opcodeOf, readFields, Instr.wellFormed, Config.patMax, Nat.shiftRight_eq_div_pow]
  | bmSeek plen => simp [opcodeOf, readFields, Instr.wellFormed, Config.patMax, Nat.shiftRight_eq_div_pow]
  | bmReadw nbits => simp [opcodeOf, readFields, Instr.wellFormed, Nat.shiftRight_eq_div_pow]
  | lcManch opat zpat olen zlen =>
    simp [opcodeOf, readFields, Instr.wellFormed, Config.lcPatMax, Nat.shiftRight_eq_div_pow]
    omega
  | _ => simp [opcodeOf, readFields, Instr.wellFormed]

end Classes

/-- Settles O4: by the opcode, then the bits above the fields, then the fields. -/
theorem fourClassesOfWords : Obligations.FourClassesOfWords := by
  intro w
  by_cases hmap : ∃ i, opcodeField w = opcodeOf i
  · obtain ⟨i, hi⟩ := hmap
    rw [decode_of_opcode hi, reservedClean_iff_of_opcode hi, fieldIllegal_iff_of_opcode hi,
      checkFields]
    have hin : OpcodeInMap w := opcodeInMap_iff.2 ⟨i, hi⟩
    split_ifs <;> simp [*]
  · have hclean : ¬ ReservedClean w := fun h =>
      hmap ((reservedClean_iff.1 h).imp fun _ hi => hi.1)
    rw [decode_of_not_mapped (not_exists.1 hmap), opcodeInMap_iff]
    simp [hmap, hclean]

/-! Words that are no command, at issue (R100 to R102). -/

/-- A core that is not busy rejects a word that is no command under the code of its class. -/
theorem issue_of_decode_error {s : State} {w : Word} {e : DecodeError} (hb : s.busy = false)
    (hd : decode w = .error e) : s.issue w = s.reject w (ErrCode.ofDecodeError e) := by
  simp [State.issue, issueCheck, hb, hd]

/-- The opcode bytes that R100 lists are those of no command. -/
theorem not_opcodeInMap_of_range {w : Word}
    (h : w.toNat % 256 ≤ 0x0F ∨ (0x17 ≤ w.toNat % 256 ∧ w.toNat % 256 ≤ 0x1F) ∨
      (0x22 ≤ w.toNat % 256 ∧ w.toNat % 256 ≤ 0x2F) ∨ (0x32 ≤ w.toNat % 256 ∧ w.toNat % 256 ≤ 0x3F) ∨
      0x44 ≤ w.toNat % 256) : ¬ OpcodeInMap w := by
  rw [opcodeInMap_iff]
  rintro ⟨i, hi⟩
  rw [opcodeField_eq_iff] at hi
  rw [hi] at h
  cases i <;> simp [opcodeOf] at h

/-- A word that has a row's opcode and does not match under its mask is in the second class. -/
theorem not_reservedClean_of_row {r : Word × Word} {w : Word} (hr : r ∈ specRows)
    (hop : w &&& 0xFF#32 = r.1) (hmask : w &&& r.2 ≠ r.1) : ¬ ReservedClean w := by
  obtain ⟨i, rfl⟩ := mem_specRows_iff.1 hr
  have hi : opcodeField w = opcodeOf i := and_0xFF_eq_iff.1 hop
  rw [reservedClean_iff_of_opcode hi]
  exact fun hlt => hmask ((and_rowMask_eq_iff (eight_le_fieldsEnd _)).2 ⟨hi, hlt⟩)

/-- Settles O5: the class of the word says how it fails to decode, and so the code of its rejection. -/
theorem malformedWordsAreRejected : Obligations.MalformedWordsAreRejected := by
  intro s w hb
  obtain ⟨hopcode, hreserved, hfield, -⟩ := fourClassesOfWords w
  have hreject {e : DecodeError} (hd : decode w = .error e) :
      hostStep (.write 4 0x00C#22 w) s = .next (s.reject w (ErrCode.ofDecodeError e)) := by
    rw [hostStep_write_reg s .cmd rfl, ← issue_of_decode_error hb hd]
    rfl
  exact ⟨fun hrange => hreject (hopcode.2 (not_opcodeInMap_of_range hrange)),
    fun r hr hop hmask => hreject (hreserved.2 ⟨⟨r, hr, hop⟩, not_reservedClean_of_row hr hop hmask⟩),
    fun hclean hill => hreject (hfield.2 ⟨hclean, hill⟩)⟩

/-! The pattern test (R117, R118). -/

theorem matchAt_iff {m : List Host.Cell} {d : Desc} {off n : Nat} {pat : Nat → Bool} :
    matchAt m d off pat n = true ↔ ∀ i, i < n → bget m d (off + i) = pat i := by
  simp [matchAt]

/-- Settles O20: `BM.MATCH` answers the pattern test at its offset. -/
theorem bmMatchTestsThePattern : Obligations.BmMatchTestsThePattern :=
  fun _ _ hbuf => ⟨_, matchAt_iff, ifInRange_of_inRange (by simpa [Latch.buf0] using hbuf)⟩

end Sys2Proof.Machine
end

section
/-!
PROOFS. No command reads or writes a byte of BMEM outside its buffers (O23, R122). A computation over BMEM is
confined when it keeps the bytes outside the buffers, and what it answers and leaves inside depends on
the bytes inside alone. One lemma per reader and writer of BMEM says so, the loops by composition; a
command is such a computation between its latch and its results.
-/

namespace Sys2Proof.Machine

/-! Computations confined to buffers. -/

/-- Two contents of BMEM hold the same bytes inside the buffers. -/
def AgreeOn (ds : List Desc) (m m' : List Host.Cell) : Prop :=
  ∀ a, InSome ds a → memRead m a = memRead m' a

/-- What is read from BMEM depends on the bytes inside the buffers alone. -/
def ReadsInside {β : Type} (ds : List Desc) (g : List Host.Cell → β) : Prop :=
  ∀ m m', AgreeOn ds m m' → g m = g m'

/-- A computation that goes from BMEM to BMEM and a value is confined to the buffers (R122). -/
structure StaysInside {β : Type} (ds : List Desc) (f : List Host.Cell → List Host.Cell × β) : Prop where
  keeps_outside : ∀ m a, ¬ InSome ds a → memRead (f m).1 a = memRead m a
  agree_inside : ∀ m m', AgreeOn ds m m' → AgreeOn ds (f m).1 (f m').1
  value_eq : ReadsInside ds fun m => (f m).2

/-- A write to BMEM is confined to the buffers. -/
abbrev WritesInside (ds : List Desc) (w : List Host.Cell → List Host.Cell) : Prop :=
  StaysInside ds fun m => (w m, ())

section Confined

variable {β γ : Type} {ds : List Desc} {d inp out : Desc}

/-- A computation that answers at once touches nothing. -/
theorem StaysInside.answer (x : β) : StaysInside ds fun m => (m, x) :=
  ⟨fun _ _ _ => rfl, fun _ _ h => h, fun _ _ _ => rfl⟩

/-- Reading inside the buffers, then a confined computation that depends on what was read. -/
theorem StaysInside.after_read {g : List Host.Cell → β} {f : β → List Host.Cell → List Host.Cell × γ}
    (hg : ReadsInside ds g) (hf : ∀ x, StaysInside ds (f x)) : StaysInside ds fun m => f (g m) m where
  keeps_outside m := (hf (g m)).keeps_outside m
  agree_inside m m' h := by
    rw [hg m m' h]
    exact (hf (g m')).agree_inside m m' h
  value_eq m m' h := by
    dsimp only
    rw [hg m m' h]
    exact (hf (g m')).value_eq m m' h

/-- A test that reads inside the buffers, then one of two confined computations. -/
theorem StaysInside.after_test {c : List Host.Cell → Prop} [DecidablePred c]
    {f g : List Host.Cell → List Host.Cell × γ} (hc : ReadsInside ds c) (hf : StaysInside ds f)
    (hg : StaysInside ds g) : StaysInside ds fun m => if c m then f m else g m := by
  have htest : ReadsInside ds fun m => decide (c m) := fun m m' h => by simp only [hc m m' h]
  simpa only [Bool.cond_decide] using
    StaysInside.after_read (f := fun b m => bif b then f m else g m) htest (Bool.rec hg hf)

/-- Writing inside the buffers, then a confined computation. -/
theorem StaysInside.after_write {w : List Host.Cell → List Host.Cell}
    {f : List Host.Cell → List Host.Cell × γ} (hf : StaysInside ds f) (hw : WritesInside ds w) :
    StaysInside ds fun m => f (w m) where
  keeps_outside m a ha := (hf.keeps_outside (w m) a ha).trans (hw.keeps_outside m a ha)
  agree_inside m m' h := hf.agree_inside _ _ (hw.agree_inside m m' h)
  value_eq m m' h := hf.value_eq _ _ (hw.agree_inside m m' h)

theorem ReadsInside.map {g : List Host.Cell → β} (hg : ReadsInside ds g) (f : β → γ) :
    ReadsInside ds fun m => f (g m) :=
  fun m m' h => congrArg f (hg m m' h)

theorem ReadsInside.pair {g : List Host.Cell → β} {g' : List Host.Cell → γ} (hg : ReadsInside ds g)
    (hg' : ReadsInside ds g') : ReadsInside ds fun m => (g m, g' m) :=
  fun m m' h => congrArg₂ Prod.mk (hg m m' h) (hg' m m' h)

theorem StaysInside.mapValue {f : List Host.Cell → List Host.Cell × β} (hf : StaysInside ds f)
    (k : β → γ) : StaysInside ds fun m => ((f m).1, k (f m).2) :=
  ⟨hf.keeps_outside, hf.agree_inside, hf.value_eq.map k⟩

/-! The readers of BMEM. -/

/-- A position in range lies in a byte of its buffer (R110). -/
theorem inSome_of_lt_bits (hd : d ∈ ds) {p : Nat} (hp : p < d.bits) : InSome ds (d.base + p / 8) := by
  rw [Desc.bits] at hp
  exact ⟨d, hd, by omega, by omega⟩

theorem memRead_readsInside {a : Nat} (ha : InSome ds a) : ReadsInside ds (memRead · a) :=
  fun _ _ h => h a ha

theorem bget_readsInside (hd : d ∈ ds) (p : Nat) : ReadsInside ds (bget · d p) := by
  intro m m' h
  by_cases hp : p < d.bits
  · simp only [bget, hp, h _ (inSome_of_lt_bits hd hp)]
  · simp only [bget, hp, ↓reduceIte]

theorem matchAt_readsInside (hd : d ∈ ds) (off : Nat) (pat : Nat → Bool) (n : Nat) :
    ReadsInside ds (matchAt · d off pat n) := by
  intro m m' h
  have hbit (p : Nat) : bget m d p = bget m' d p := bget_readsInside hd p m m' h
  simp only [matchAt, hbit]

theorem seek_readsInside (hd : d ∈ ds) (start maxBits : Nat) (pat : Nat → Bool) (n : Nat) :
    ReadsInside ds (seek · d start maxBits pat n) := by
  intro m m' h
  have hmatch (j : Nat) : matchAt m d j pat n = matchAt m' d j pat n :=
    matchAt_readsInside hd j pat n m m' h
  simp only [seek, hmatch]

theorem bitsToNat_readsInside (hd : d ∈ ds) (off n : Nat) :
    ReadsInside ds fun m => bitsToNat (fun i => bget m d (off + i)) n :=
  fun m m' h => congrArg (bitsToNat · n) (funext fun i => bget_readsInside hd (off + i) m m' h)

theorem readBytes_readsInside (hd : d ∈ ds) : ReadsInside ds (readBytes · d.base d.len) := by
  intro m m' h
  refine List.map_congr_left fun i hi => h _ ⟨d, hd, Nat.le_add_right _ _, ?_⟩
  simpa using hi

/-! The writers of BMEM. -/

theorem memWrite_writesInside {a : Nat} (ha : InSome ds a) (v : Byte) :
    WritesInside ds (memWrite · a v) where
  keeps_outside m b hb := memRead_memWrite_other m v fun h => hb (h ▸ ha)
  agree_inside m m' h b hb := by
    dsimp only
    rw [memRead_memWrite, memRead_memWrite, h b hb]
  value_eq _ _ _ := rfl

theorem bset_writesInside (hd : d ∈ ds) (p : Nat) (v : Bool) : WritesInside ds (bset · d p v) := by
  by_cases hp : p < d.bits
  · have ha := inSome_of_lt_bits hd hp
    simp only [bset, hp, ↓reduceIte]
    exact .after_read (f := fun b m => (memWrite m _ (setByteBit b (bitIndex p) v), ()))
      (memRead_readsInside ha) fun b => memWrite_writesInside ha _
  · simp only [bset, hp, ↓reduceIte]
    exact .answer ()

theorem fillBytes_writesInside (hd : d ∈ ds) (v : Byte) (n : Nat) : ∀ base, d.base ≤ base →
    base + n ≤ d.base + d.len → WritesInside ds (fillBytes v base n) := by
  induction n with
  | zero => exact fun _ _ _ => .answer ()
  | succ n ih =>
    intro base hlo hhi
    exact (ih (base + 1) (by omega) (by omega)).after_write
      (memWrite_writesInside ⟨d, hd, hlo, by omega⟩ v)

theorem reverseBytes_writesInside (hd : d ∈ ds) (n : Nat) : ∀ base, d.base ≤ base →
    base + n ≤ d.base + d.len → WritesInside ds (reverseBytes base n) := by
  induction n with
  | zero => exact fun _ _ _ => .answer ()
  | succ n ih =>
    intro base hlo hhi
    have ha : InSome ds base := ⟨d, hd, hlo, by omega⟩
    exact (ih (base + 1) (by omega) (by omega)).after_write
      (.after_read (memRead_readsInside ha) fun _ => memWrite_writesInside ha _)

theorem copyBits_writesInside {dst src : Desc} (hdst : dst ∈ ds) (hsrc : src ∈ ds) (n : Nat) :
    ∀ doff soff, WritesInside ds (copyBits dst src doff soff n) := by
  induction n with
  | zero => exact fun _ _ => .answer ()
  | succ n ih =>
    intro doff soff
    exact (ih (doff + 1) (soff + 1)).after_write
      (.after_read (bget_readsInside hsrc soff) fun v => bset_writesInside hdst doff v)

theorem emitBits_writesInside (hout : out ∈ ds) (v : Bool) (n : Nat) :
    ∀ pos, WritesInside ds (emitBits out v pos n) := by
  induction n with
  | zero => exact fun _ => .answer ()
  | succ n ih => exact fun pos => (ih (pos + 1)).after_write (bset_writesInside hout pos v)

theorem toBits_staysInside (hout : out ∈ ds) (repCap : Nat) (pulse : Nat → Pulse)
    (start count u : Nat) : StaysInside ds (toBits repCap pulse start count u out) := by
  have loop : ∀ n k pos, StaysInside ds (toBitsLoop repCap u pulse out k n pos) := by
    intro n
    induction n with
    | zero => exact fun _ _ => .answer _
    | succ n ih => exact fun k pos => (ih _ _).after_write (emitBits_writesInside hout _ _ pos)
  unfold toBits
  split
  · exact .answer 0
  · exact loop count start 0

/-- A line-code decoder's stand as BMEM and a value: the count and the position. -/
def Decoded.parts (r : Decoded) : List Host.Cell × Nat × Nat := (r.bmem, r.count, r.pos)

theorem manchester_staysInside (hinp : inp ∈ ds) (hout : out ∈ ds) (start : Nat)
    (zero one : Nat → Bool) (zlen olen : Nat) :
    StaysInside ds fun m => (manchester m inp out start zero one zlen olen).parts := by
  have loop : ∀ fuel count pos, StaysInside ds fun m =>
      (manchesterLoop inp out zero one zlen olen fuel ⟨m, count, pos⟩).parts := by
    intro fuel
    induction fuel with
    | zero => exact fun count pos => .answer (count, pos)
    | succ n ih =>
      intro count pos
      have hmatch (pat : Nat → Bool) (k : Nat) := (matchAt_readsInside hinp pos pat k).map (· = true)
      by_cases hend : pos < inp.bits
      · simp only [manchesterLoop, hend, ↓reduceIte, apply_ite Decoded.parts]
        exact .after_test (hmatch zero zlen)
          ((ih _ _).after_write (bset_writesInside hout count false))
          (.after_test (hmatch one olen)
            ((ih _ _).after_write (bset_writesInside hout count true))
            (.answer (count, pos)))
      · simp only [manchesterLoop, hend, ↓reduceIte]
        exact .answer (count, pos)
  exact loop _ _ _

theorem diffManchester_staysInside (hinp : inp ∈ ds) (hout : out ∈ ds) (start maxBits : Nat) :
    StaysInside ds fun m => (diffManchester m inp out start maxBits).parts := by
  have loop : ∀ n b0 count pos, StaysInside ds fun m =>
      (diffmLoop inp out n b0 ⟨m, count, pos⟩).parts := by
    intro n
    induction n with
    | zero => exact fun _ count pos => .answer (count, pos)
    | succ n ih =>
      intro b0 count pos
      by_cases hend : pos + 2 < inp.bits
      · simp only [diffmLoop, hend, ↓reduceIte, apply_ite Decoded.parts]
        refine .after_test ((bget_readsInside hinp (pos + 1)).map (· = b0)) (.answer (count, pos)) ?_
        exact .after_read (β := Bool × Bool) (g := fun m => (bget m inp (pos + 1), bget m inp (pos + 2)))
          (f := fun b m => (diffmLoop inp out n b.2 ⟨bset m out count (b.1 == b.2), _, _⟩).parts)
          ((bget_readsInside hinp (pos + 1)).pair (bget_readsInside hinp (pos + 2))) fun b =>
            (ih b.2 _ _).after_write (bset_writesInside hout count (b.1 == b.2))
      · simp only [diffmLoop, hend, ↓reduceIte]
        exact .answer (count, pos)
  by_cases hstart : start < inp.bits
  · simp only [diffManchester, hstart, ↓reduceIte]
    have hrun := StaysInside.after_read (f := fun b m => (diffmLoop inp out maxBits b ⟨m, 0, start⟩).parts)
      (bget_readsInside hinp start) fun b => loop maxBits b 0 start
    exact hrun.mapValue fun v => (v.1, v.2 + 1)
  · simp only [diffManchester, hstart, ↓reduceIte]
    exact .answer (0, start)

end Confined

/-! Commands confined to their buffers. -/

/-- What R122 asks of a step from `s`. -/
def StepStaysInside (ds : List Desc) (run : State → Host.Outcome State Fault Refusal) (s : State) : Prop :=
  ∀ t, run s = .next t →
    (∀ a, ¬ InSome ds a → memRead t.bmem a = memRead s.bmem a) ∧
    ∀ m, AgreeOn ds m s.bmem →
      ∃ m', run (s.setBmem m) = .next (t.setBmem m') ∧ AgreeOn ds m' t.bmem

section Commands

variable {β : Type} {ds : List Desc} {s : State} {run : State → Host.Outcome State Fault Refusal}

/-- A guarded step that runs a confined computation on BMEM and writes its value to registers. -/
theorem stepStaysInside_of_staysInside {f : List Host.Cell → List Host.Cell × β} (hf : StaysInside ds f)
    (u : β → State) (hrun : ∀ m, run (s.setBmem m) = ifInRange ds s ((u (f m).2).setBmem (f m).1)) :
    StepStaysInside ds run s := by
  intro t ht
  obtain ⟨hr, rfl⟩ := ifInRange_next ((hrun s.bmem).symm.trans ht)
  refine ⟨hf.keeps_outside s.bmem, fun m hm => ⟨(f m).1, ?_, hf.agree_inside m s.bmem hm⟩⟩
  have hvalue : (f m).2 = (f s.bmem).2 := hf.value_eq m s.bmem hm
  rw [hrun, ifInRange_of_inRange hr, hvalue]
  rfl

/-- A guarded step that reads BMEM inside the buffers and writes registers. -/
theorem stepStaysInside_of_readsInside {g : List Host.Cell → β} (hg : ReadsInside ds g) (u : β → State)
    (hrun : ∀ m, run (s.setBmem m) = ifInRange ds s ((u (g m)).setBmem m)) : StepStaysInside ds run s :=
  stepStaysInside_of_staysInside (.after_read hg fun x => .answer x) u hrun

/-- A step that neither reads nor writes BMEM. -/
theorem stepStaysInside_of_ignores
    (h : ∀ m t, run s = .next t → run (s.setBmem m) = .next (t.setBmem m)) : StepStaysInside ds run s := by
  intro t ht
  have hkept : t = t.setBmem s.bmem := Host.Outcome.next.inj (ht.symm.trans (h s.bmem t ht))
  have hbmem : t.bmem = s.bmem := by rw [hkept, State.setBmem_bmem]
  exact ⟨fun _ _ => by rw [hbmem], fun m hm => ⟨m, h m t ht, hbmem ▸ hm⟩⟩

theorem execPcSnap_setBmem (m : List Host.Cell) (t : State) (hx : execPcSnap s = .next t) :
    execPcSnap (s.setBmem m) = .next (t.setBmem m) := by
  unfold execPcSnap at hx
  split at hx
  · cases hx
    exact if_pos ‹_›
  · cases hx
    exact if_neg ‹_›

theorem scanCopy_setBmem (s : State) (m : List Host.Cell) :
    (s.setBmem m).scanCopy = s.scanCopy.setBmem m := by
  unfold State.scanCopy
  dsimp only
  symm
  exact apply_ite (State.setBmem · m) _ _ _

theorem scanClassify_setBmem (s : State) (m : List Host.Cell) :
    (s.setBmem m).scanClassify = s.scanClassify.setBmem m := by
  unfold State.scanClassify
  dsimp only
  symm
  exact apply_ite (State.setBmem · m) _ _ _

theorem scanUpdate_setBmem (s : State) (m : List Host.Cell) :
    (s.setBmem m).scanUpdate = s.scanUpdate.setBmem m := by
  unfold State.scanUpdate
  dsimp only
  symm
  exact apply_ite (State.setBmem · m) _ _ _

/-- The window is cleared and rebuilt from the pulses inside the latched region (R214). -/
theorem scanWindow_staysInside (s : State) :
    StaysInside [s.sq.latch.window] fun m => (s.setBmem m).scanWindow := by
  have hwin : s.sq.latch.window ∈ [s.sq.latch.window] := List.mem_singleton_self _
  have hpulse (m : List Host.Cell) : (s.setBmem m).pulseAt .snap = s.pulseAt .snap := rfl
  simp only [State.scanWindow, hpulse, State.setBmem_sq, State.setBmem_params, State.setBmem_bmem]
  exact (toBits_staysInside hwin _ _ _ _ _).after_write
    (fillBytes_writesInside hwin 0#8 _ _ le_rfl le_rfl)

/-- A CONVERT step but for BMEM: what it does with the count of the window's bits (R215, R216, R218). -/
def State.afterWindow (s : State) (nb : Nat) : State :=
  let t := { s with decNbits := BitVec.ofNat 32 (windowBits s.sq.latch nb) }
  if s.sq.latch.cfg.decBypass then
    t.setSq { s.sq with nb := nb, nreq := s.sq.nreq + 1, vd := false, vo := 0#32, vc := 0#32
                        phase := .update }
  else (t.raise irqDecReq).setSq { s.sq with nb := nb, nreq := s.sq.nreq + 1, phase := .wait }

theorem scanConvert_setBmem (s : State) (m : List Host.Cell) : (s.setBmem m).scanConvert =
    (s.afterWindow (s.setBmem m).scanWindow.2).setBmem (s.setBmem m).scanWindow.1 := by
  unfold State.scanConvert State.afterWindow
  dsimp only
  symm
  exact apply_ite (State.setBmem · _) _ _ _

/-- Of the sequencer's steps only CONVERT touches BMEM (R211, R214). -/
theorem execPcScan_staysInside (s : State) : StepStaysInside [s.sq.latch.window] execPcScan s := by
  have hphase (m : List Host.Cell) : (s.setBmem m).sq.phase = s.sq.phase := rfl
  by_cases hconvert : s.sq.phase = .convert
  · refine stepStaysInside_of_staysInside (scanWindow_staysInside s)
      s.afterWindow fun m => ?_
    rw [execPcScan, hphase, hconvert, ← scanConvert_setBmem]
    rfl
  refine stepStaysInside_of_ignores fun m t hx => ?_
  unfold execPcScan at hx ⊢
  rw [hphase]
  cases hph : s.sq.phase with rw [hph] at hx
  | idle => cases hx; rfl
  | copy => cases hx; exact congrArg _ (scanCopy_setBmem s m)
  | classify => cases hx; exact congrArg _ (scanClassify_setBmem s m)
  | convert => exact absurd hph hconvert
  | wait => cases hx; rfl
  | update => cases hx; exact congrArg _ (scanUpdate_setBmem s m)
  | done => cases hx; rfl

/-- The step of every command of the primitive engine is confined to its descriptors (R112, R243). -/
theorem exec_staysInside_descriptors {i : Instr} (hi : i ≠ .pcScan) (s : State) :
    StepStaysInside (descriptors i s.pe.latch) (exec i) s := by
  have hone (d : Desc) : d ∈ [d] := List.mem_singleton_self d
  have hfst (d e : Desc) : d ∈ [d, e] := List.mem_cons_self
  have hsnd (d e : Desc) : e ∈ [d, e] := List.mem_cons_of_mem d (hone e)
  cases i with
  | bmGet =>
    exact stepStaysInside_of_readsInside (bget_readsInside (hone _) (s.pe.latch.arg 2))
      (fun b => (s.setResult0 (Word.ofBit b)).completePe) fun _ => rfl
  | bmSet val =>
    exact stepStaysInside_of_staysInside (bset_writesInside (hone _) (s.pe.latch.arg 2) val)
      (fun _ => s.completePe) fun _ => rfl
  | bmCopy =>
    exact stepStaysInside_of_staysInside (copyBits_writesInside (hfst _ _) (hsnd _ _)
        (s.pe.latch.arg 6) (s.pe.latch.arg 2) (s.pe.latch.arg 5))
      (fun _ => s.completePe) fun _ => rfl
  | bmRev =>
    exact stepStaysInside_of_staysInside (reverseBytes_writesInside (hone s.pe.latch.buf0)
        (s.pe.latch.arg 1) (s.pe.latch.arg 0) le_rfl le_rfl)
      (fun _ => s.completePe) fun _ => rfl
  | bmMatch plen =>
    exact stepStaysInside_of_readsInside (matchAt_readsInside (hone _) (s.pe.latch.arg 2)
        (patternBit s.pe.latch.pat plen.toNat) plen.toNat)
      (fun hit => ((s.setResult0 (Word.ofBit hit)).setFound hit).completePe) fun _ => rfl
  | bmSeek plen =>
    exact stepStaysInside_of_readsInside (seek_readsInside (hone _) (s.pe.latch.arg 2)
        (s.pe.latch.arg 3) (patternBit s.pe.latch.pat plen.toNat) plen.toNat)
      (fun hit => ((s.setResult0 (match hit with
        | some j => BitVec.ofNat 32 j
        | none => 0xFFFFFFFF#32)).setFound hit.isSome).completePe) fun _ => rfl
  | bmReadw nbits =>
    exact stepStaysInside_of_readsInside
      (bitsToNat_readsInside (hone _) (s.pe.latch.arg 2) nbits.toNat)
      (fun n => (s.setResult0 (BitVec.ofNat 32 n)).completePe) fun _ => rfl
  | lcManch opat zpat olen zlen =>
    exact stepStaysInside_of_staysInside (manchester_staysInside (hfst _ _) (hsnd _ _)
        (s.pe.latch.arg 2) (patternBit zpat zlen.toNat) (patternBit opat olen.toNat) zlen.toNat
        olen.toNat)
      (fun r => ((s.setResult0 (BitVec.ofNat 32 r.1)).setResult1 (BitVec.ofNat 32 r.2)).completePe)
      fun _ => rfl
  | lcDiffm =>
    exact stepStaysInside_of_staysInside (diffManchester_staysInside (hfst _ _) (hsnd _ _)
        (s.pe.latch.arg 2) (s.pe.latch.arg 5))
      (fun r => ((s.setResult0 (BitVec.ofNat 32 r.1)).setResult1 (BitVec.ofNat 32 r.2)).completePe)
      fun _ => rfl
  | crc8 =>
    exact stepStaysInside_of_readsInside (readBytes_readsInside (hone s.pe.latch.buf0))
      (fun bytes => (s.setResult0 (BitVec.setWidth 32 (crc8Of (BitVec.ofNat 8 (s.pe.latch.arg 3))
        (BitVec.ofNat 8 (s.pe.latch.arg 2)) bytes))).completePe) fun _ => rfl
  | crc16 =>
    exact stepStaysInside_of_readsInside (readBytes_readsInside (hone s.pe.latch.buf0))
      (fun bytes => (s.setResult0 (BitVec.setWidth 32 (crc16Of (BitVec.ofNat 16 (s.pe.latch.arg 3))
        (BitVec.ofNat 16 (s.pe.latch.arg 2)) bytes))).completePe) fun _ => rfl
  | pcSnap => exact stepStaysInside_of_ignores execPcSnap_setBmem
  | pcClassify src => exact stepStaysInside_of_ignores fun m t hx => by cases hx; rfl
  | pcTobits src =>
    exact stepStaysInside_of_staysInside (toBits_staysInside (hone _) s.pe.latch.cfg.repCap.toNat
        (s.pulseAt src) (s.pe.latch.arg 0) (s.pe.latch.arg 1) (s.pe.latch.arg 2))
      (fun nb => (s.setResult0 (sat32 nb)).completePe) fun _ => rfl
  | pcScan => exact absurd rfl hi

theorem exec_staysInside_touched (i : Instr) (s : State) :
    StepStaysInside (touched i s) (exec i) s := by
  by_cases hi : i = .pcScan
  · subst hi
    exact execPcScan_staysInside s
  · rw [touched, if_neg hi]
    exact exec_staysInside_descriptors hi s

end Commands

/-- Settles O23: the step of every command is confined to the buffers its engine latched. -/
theorem commandsStayInsideTheirBuffers : Obligations.CommandsStayInsideTheirBuffers :=
  exec_staysInside_touched

end Sys2Proof.Machine
end

section
/-!
PROOFS. What the bitmap commands do (O15 to O19, O21, O22; 40_bitmap.md). First one rule per operation over
BMEM that reads or writes bits, then the loops, by induction on their rounds; a command whose buffers are
in range is its operation between latch and results.
-/

namespace Sys2Proof.Machine

/-! The commands on buffers in range (R112). -/

section InRange

variable {s : State}

theorem ifInRange_buf0 (h : s.pe.latch.arg 0 + s.pe.latch.arg 1 ≤ s.params.bmemBytes) (t : State) :
    ifInRange [s.pe.latch.buf0] s t = .next t :=
  ifInRange_of_inRange (by simpa [Latch.buf0] using h)

theorem ifInRange_buf0_buf3 (h0 : s.pe.latch.arg 0 + s.pe.latch.arg 1 ≤ s.params.bmemBytes)
    (h3 : s.pe.latch.arg 3 + s.pe.latch.arg 4 ≤ s.params.bmemBytes) (t : State) :
    ifInRange [s.pe.latch.buf0, s.pe.latch.buf3] s t = .next t :=
  ifInRange_of_inRange (by simpa [Latch.buf0, Latch.buf3] using ⟨h0, h3⟩)

end InRange

/-! One bit (R110, R111). -/

section OneBit

variable {m : List Host.Cell} {d : Desc} {p q : Nat} {v : Bool}

theorem bitIndex_lt (p : Nat) : bitIndex p < 8 := Nat.sub_lt_succ 7 _

theorem bget_of_lt (h : p < d.bits) : bget m d p = (memRead m (d.base + p / 8)).getLsbD (bitIndex p) :=
  if_pos h

theorem bget_of_le (h : d.bits ≤ p) : bget m d p = false := if_neg (Nat.not_lt.2 h)

theorem getLsbD_setByteBit (b : Byte) (v : Bool) {i j : Nat} (hj : j < 8) :
    (setByteBit b i v).getLsbD j = if j = i then v else b.getLsbD j := by
  have hone : (1#8 <<< i).getLsbD j = decide (j = i) := by
    rw [← BitVec.twoPow_eq, BitVec.getLsbD_twoPow]
    by_cases h : j = i
    · simp [← h, hj]
    · simp [h, Ne.symm h]
  simp only [setByteBit, BitVec.getLsbD_or, BitVec.getLsbD_and, BitVec.getLsbD_not, hone,
    apply_ite (BitVec.getLsbD · j)]
  by_cases h : j = i <;> cases v <;> simp [h, hj]

/-- A bit write in range, seen at a bit of the byte it writes. -/
theorem getLsbD_memRead_bset (h : q < d.bits) {j : Nat} (hj : j < 8) :
    (memRead (bset m d q v) (d.base + q / 8)).getLsbD j =
      if j = bitIndex q then v else (memRead m (d.base + q / 8)).getLsbD j := by
  rw [bset, if_pos h, memRead_memWrite_self, getLsbD_setByteBit _ _ hj]

theorem bget_bset_self (h : p < d.bits) : bget (bset m d p v) d p = v := by
  rw [bget_of_lt h, getLsbD_memRead_bset h (bitIndex_lt p), if_pos rfl]

theorem bget_bset_other (h : p ≠ q) : bget (bset m d q v) d p = bget m d p := by
  by_cases hp : p < d.bits
  · rw [bget_of_lt hp, bget_of_lt hp]
    by_cases hbyte : q < d.bits ∧ p / 8 = q / 8
    · obtain ⟨hq, hbyte⟩ := hbyte
      have hbit : bitIndex p ≠ bitIndex q := by
        unfold bitIndex
        omega
      rw [hbyte, getLsbD_memRead_bset hq (bitIndex_lt p), if_neg hbit]
    · rw [memRead_bset_other m d q v (by omega)]
  · rw [bget_of_le (Nat.le_of_not_lt hp), bget_of_le (Nat.le_of_not_lt hp)]

end OneBit

/-- Settles O15: the bit of `BGet` in the low bit of the result. -/
theorem bmGetReadsOneBit : Obligations.BmGetReadsOneBit := by
  intro s h
  have hbit : Word.ofBit (bget s.bmem s.pe.latch.buf0 (s.pe.latch.arg 2)) =
      if s.pe.latch.arg 2 < 8 * s.pe.latch.arg 1 then
        Word.ofBit ((memRead s.bmem (s.pe.latch.arg 0 + s.pe.latch.arg 2 / 8)).getLsbD
          (7 - s.pe.latch.arg 2 % 8))
      else 0#32 := apply_ite Word.ofBit _ _ _
  rw [← hbit]
  exact ifInRange_buf0 h _

/-- Settles O16: the effect of `BSet` on its byte and on the others. -/
theorem bmSetWritesOneBit : Obligations.BmSetWritesOneBit := fun _ v h =>
  ⟨_, ifInRange_buf0 h _, fun hp _ hi => getLsbD_memRead_bset hp hi,
    fun _ ha => memRead_bset_other _ _ _ v ha⟩

/-! The copy loop (R115). -/

section Copy

variable {dst src : Desc}

/-- The last round of the copy loop, on what the rounds before it left. -/
theorem copyBits_succ (n : Nat) : ∀ (doff soff : Nat) (m : List Host.Cell),
    copyBits dst src doff soff (n + 1) m =
      bset (copyBits dst src doff soff n m) dst (doff + n)
        (bget (copyBits dst src doff soff n m) src (soff + n)) := by
  induction n with
  | zero => exact fun _ _ _ => rfl
  | succ n ih =>
    intro doff soff m
    rw [copyBits, ih, copyBits, Nat.add_right_comm doff, Nat.add_right_comm soff]
    rfl

/-- A byte that holds no destination bit keeps its value. -/
theorem memRead_copyBits_other {doff soff n a : Nat} (m : List Host.Cell)
    (h : ∀ j, j < n → doff + j < dst.bits → a ≠ dst.base + (doff + j) / 8) :
    memRead (copyBits dst src doff soff n m) a = memRead m a := by
  induction n with
  | zero => rfl
  | succ n ih =>
    rw [copyBits_succ, memRead_bset_other _ _ _ _ fun ⟨hn, ha⟩ => h n n.lt_succ_self hn ha]
    exact ih fun j hj => h j (hj.trans n.lt_succ_self)

/-- The source of a copy to a buffer that shares no byte with it stays as it is. -/
theorem bget_copyBits_src (hdisj : NoSharedByte dst src) (doff soff n p : Nat) (m : List Host.Cell) :
    bget (copyBits dst src doff soff n m) src p = bget m src p := by
  by_cases hp : p < src.bits
  · rw [bget_of_lt hp, bget_of_lt hp, memRead_copyBits_other]
    unfold NoSharedByte at hdisj
    unfold Desc.bits at *
    omega
  · rw [bget_of_le (Nat.le_of_not_lt hp), bget_of_le (Nat.le_of_not_lt hp)]

/-- The destination of a copy from a buffer that shares no byte with it. -/
theorem bget_copyBits_dst (hdisj : NoSharedByte dst src) (doff soff n : Nat) (m : List Host.Cell) {p : Nat}
    (hp : p < dst.bits) : bget (copyBits dst src doff soff n m) dst p =
      if doff ≤ p ∧ p < doff + n then bget m src (soff + (p - doff)) else bget m dst p := by
  induction n with
  | zero => rw [if_neg (by omega)]; rfl
  | succ n ih =>
    rw [copyBits_succ, bget_copyBits_src hdisj]
    by_cases hlast : p = doff + n
    · subst hlast
      rw [bget_bset_self hp, if_pos (by omega), Nat.add_sub_cancel_left]
    · rw [bget_bset_other hlast, ih]
      exact if_congr (by omega) rfl rfl

end Copy

/-- Settles O17: the memories between the rounds, the last of them what the command leaves. -/
theorem bmCopyIsAscendingLoop : Obligations.BmCopyIsAscendingLoop := fun s h0 h3 =>
  ⟨fun j => copyBits s.pe.latch.buf0 s.pe.latch.buf3 (s.pe.latch.arg 2) (s.pe.latch.arg 5) j s.bmem,
    rfl, fun j _ => copyBits_succ j _ _ _, ifInRange_buf0_buf3 h0 h3 _,
    fun _ ha => memRead_copyBits_other _ ha⟩

/-- Settles O18: the source stays as it is during the loop, so each round copies a bit of it. -/
theorem bmCopyBetweenDisjointBuffers : Obligations.BmCopyBetweenDisjointBuffers :=
  fun _ h0 h3 hdisj => ⟨_, ifInRange_buf0_buf3 h0 h3 _, fun _ hp => bget_copyBits_dst hdisj _ _ _ _ hp⟩

/-! Byte reversal (R116). -/

theorem memRead_reverseBytes (n : Nat) : ∀ (base : Nat) (m : List Host.Cell) (a : Nat),
    memRead (reverseBytes base n m) a =
      if base ≤ a ∧ a < base + n then reverseByte (memRead m a) else memRead m a := by
  induction n with
  | zero =>
    intro base m a
    rw [if_neg (by omega)]
    rfl
  | succ n ih =>
    intro base m a
    rw [reverseBytes, ih, memRead_memWrite]
    by_cases hfirst : a = base
    · subst hfirst
      simp
    · rw [if_neg hfirst]
      exact if_congr (by omega) rfl rfl

theorem getLsbD_reverseByte (b : Byte) {i : Nat} (hi : i < 8) :
    (reverseByte b).getLsbD i = b.getLsbD (7 - i) := by
  rw [reverseByte, BitVec.getLsbD_reverse, BitVec.getMsbD_eq_getLsbD]
  simp [hi]

/-- Settles O19: the loop reverses each byte of the buffer once. -/
theorem bmRevReversesEachByte : Obligations.BmRevReversesEachByte := by
  intro s h
  refine ⟨reverseBytes (s.pe.latch.arg 0) (s.pe.latch.arg 1) s.bmem, ifInRange_buf0 h _,
    fun a hlo hhi i hi => ?_, fun a ha => ?_⟩
  · rw [memRead_reverseBytes, if_pos ⟨hlo, hhi⟩, getLsbD_reverseByte _ hi]
  · rw [memRead_reverseBytes, if_neg ha]

/-! The search (R119, R120). -/

/-- The ascending search answers the lowest of its candidates that passes the test. -/
theorem firstFrom_eq_some_iff {test : Nat → Bool} {j : Nat} (n : Nat) : ∀ start : Nat,
    firstFrom test start n = some j ↔ start ≤ j ∧ j < start + n ∧ test j = true ∧
      ∀ k, start ≤ k → k < j → ¬ test k = true := by
  induction n with
  | zero => exact fun start => ⟨nofun, fun ⟨hlo, hhi, _⟩ => by omega⟩
  | succ n ih =>
    intro start
    rw [firstFrom]
    by_cases htest : test start = true
    · rw [if_pos htest, Option.some.injEq]
      constructor
      · rintro rfl
        exact ⟨le_rfl, by omega, htest, fun k hlo hhi => by omega⟩
      · rintro ⟨hlo, -, -, hleast⟩
        by_contra hne
        exact hleast start le_rfl (lt_of_le_of_ne hlo hne) htest
    · rw [if_neg htest, ih]
      constructor
      · rintro ⟨hlo, hhi, hj, hleast⟩
        refine ⟨by omega, by omega, hj, fun k hk hkj => ?_⟩
        by_cases hks : k = start
        · exact hks ▸ htest
        · exact hleast k (by omega) hkj
      · rintro ⟨hlo, hhi, hj, hleast⟩
        have hne : start ≠ j := fun h => htest (h ▸ hj)
        exact ⟨by omega, by omega, hj, fun k hk => hleast k (by omega)⟩

/-- The search with its candidates as R119 bounds them. -/
theorem seek_eq_some_iff {m : List Host.Cell} {d : Desc} {start maxBits n j : Nat} {pat : Nat → Bool} :
    seek m d start maxBits pat n = some j ↔
      start ≤ j ∧ j < min (start + maxBits) d.bits ∧ Matches m d j pat n ∧
        ∀ k, start ≤ k → k < j → ¬ Matches m d k pat n := by
  have hmatch (k : Nat) : matchAt m d k pat n = true ↔ Matches m d k pat n := matchAt_iff
  simp only [seek, firstFrom_eq_some_iff, hmatch]
  exact and_congr_right fun hlo => and_congr_left' (by omega)

/-- Settles O21: a position found lies in the buffer, so it fits in the 32 bits of the result. -/
theorem bmSeekFindsLowestMatch : Obligations.BmSeekFindsLowestMatch := by
  intro s plen hlegal h
  have hfind (j : Nat) := seek_eq_some_iff (m := s.bmem) (d := s.pe.latch.buf0) (j := j)
    (start := s.pe.latch.arg 2) (maxBits := s.pe.latch.arg 3) (n := plen.toNat)
    (pat := patternBit s.pe.latch.pat plen.toNat)
  cases hhit : seek s.bmem s.pe.latch.buf0 (s.pe.latch.arg 2) (s.pe.latch.arg 3)
    (patternBit s.pe.latch.pat plen.toNat) plen.toNat with
  | none =>
    refine ⟨0xFFFFFFFF#32, false, ?_, fun j => ?_, fun _ => rfl⟩
    · rw [exec, execBmSeek, hhit]
      exact ifInRange_buf0 h _
    · refine Iff.trans ?_ (hfind j)
      simp [hhit]
  | some k =>
    refine ⟨BitVec.ofNat 32 k, true, ?_, fun j => ?_, nofun⟩
    · rw [exec, execBmSeek, hhit]
      exact ifInRange_buf0 h _
    · have hk : k < 2 ^ 32 := by
        obtain ⟨-, hbits, -⟩ := (hfind k).1 hhit
        obtain ⟨-, -, hbytes⟩ := hlegal
        simp only [Desc.bits, Latch.buf0, Config.maxBmemBytes] at hbits hbytes
        omega
      refine Iff.trans ?_ (hfind j)
      rw [hhit, BitVec.toNat_ofNat, Nat.mod_eq_of_lt hk]
      simp

/-! The number of a run of bits (R121). -/

theorem bitsToNat_eq_sum (bit : Nat → Bool) (n : Nat) :
    bitsToNat bit n = ∑ i ∈ Finset.range n, (bit i).toNat * 2 ^ (n - 1 - i) := by
  induction n with
  | zero => rfl
  | succ n ih =>
    rw [bitsToNat, ih, Finset.sum_range_succ, Finset.mul_sum]
    congr 1
    · refine Finset.sum_congr rfl fun i hi => ?_
      have hpow : n + 1 - 1 - i = (n - 1 - i) + 1 := by
        have := Finset.mem_range.1 hi
        omega
      rw [hpow, pow_succ]
      ring
    · simp

/-- Settles O22: the number read is the sum of the bits at their weights. -/
theorem bmReadwSumsTheBits : Obligations.BmReadwSumsTheBits := by
  intro s nbits h
  rw [← bitsToNat_eq_sum]
  exact ifInRange_buf0 h _

end Sys2Proof.Machine
end

section
/-!
PROOFS. What the line-code decoders do (O24 to O28; 41_linecode.md). A decoder writes its output bits in
ascending order. Without a condition on the buffers, its loop takes the steps of the rule's relation, and the
frame follows by induction on the run. When the output shares no byte with the input, the loop reads the
input as it was at the start, so what it does is fixed by the symbols there.
-/

namespace Sys2Proof.Machine

/-! Bits written in ascending order. -/

section Output

variable {inp out : Desc} {m m' : List Host.Cell} {n n' : Nat}

/-- The bits `d 0 .. d (n - 1)` written to the output, in this order. -/
def writeBits (out : Desc) (d : Nat → Bool) : Nat → List Host.Cell → List Host.Cell
  | 0, m => m
  | n + 1, m => bset (writeBits out d n m) out n (d n)

theorem bget_writeBits (d : Nat → Bool) {p : Nat} (hn : p < n) (hp : p < out.bits) :
    bget (writeBits out d n m) out p = d p := by
  induction n with
  | zero => omega
  | succ n ih =>
    rw [writeBits]
    by_cases hlast : p = n
    · rw [← hlast, bget_bset_self hp]
    · rw [bget_bset_other hlast, ih (by omega)]

/-- A write to a buffer that shares no byte with the input leaves the input's bits. -/
theorem bget_bset_disjoint (hdisj : NoSharedByte inp out) (p q : Nat) (v : Bool) :
    bget (bset m out q v) inp p = bget m inp p := by
  by_cases hp : p < inp.bits
  · rw [bget_of_lt hp, bget_of_lt hp, memRead_bset_other]
    unfold NoSharedByte at hdisj
    unfold Desc.bits at *
    omega
  · rw [bget_of_le (Nat.le_of_not_lt hp), bget_of_le (Nat.le_of_not_lt hp)]

theorem bget_writeBits_disjoint (hdisj : NoSharedByte inp out) (d : Nat → Bool) (n p : Nat) :
    bget (writeBits out d n m) inp p = bget m inp p := by
  induction n with
  | zero => rfl
  | succ n ih => rw [writeBits, bget_bset_disjoint hdisj, ih]

/-- From `m` to `m'` only bytes that hold one of the output bits `n .. n' - 1` change. -/
structure OnlyBitsWritten (out : Desc) (n n' : Nat) (m m' : List Host.Cell) : Prop where
  count_le : n ≤ n'
  keeps : ∀ a, (∀ j, n ≤ j → j < n' → j < out.bits → a ≠ out.base + j / 8) → memRead m' a = memRead m a

theorem OnlyBitsWritten.refl (out : Desc) (n : Nat) (m : List Host.Cell) : OnlyBitsWritten out n n m m :=
  ⟨n.le_refl, fun _ _ => rfl⟩

theorem OnlyBitsWritten.of_bset {v : Bool} (h : OnlyBitsWritten out (n + 1) n' (bset m out n v) m') :
    OnlyBitsWritten out n n' m m' where
  count_le := Nat.le_of_succ_le h.count_le
  keeps a ha := by
    rw [h.keeps a fun j hj => ha j (Nat.le_of_succ_le hj)]
    exact memRead_bset_other m out n v fun ⟨hn, hbyte⟩ => ha n n.le_refl h.count_le hn hbyte

end Output

/-! The Manchester loop (R141). -/

section ManchesterRun

variable {inp out : Desc} {zero one : Nat → Bool} {zlen olen : Nat}

theorem ManchRun.onlyBitsWritten {m m' : List Host.Cell} {off off' n n' : Nat}
    (h : ManchRun inp out zero one zlen olen m off n m' off' n') : OnlyBitsWritten out n n' m m' := by
  induction h with
  | atEnd => exact .refl _ _ _
  | noMatch => exact .refl _ _ _
  | zero _ _ _ ih => exact ih.of_bset
  | one _ _ _ _ ih => exact ih.of_bset

/-- As patterns are not empty, the positions left bound the rounds left. -/
theorem manchesterLoop_run (hz : 0 < zlen) (ho : 0 < olen) (fuel : Nat) :
    ∀ (m : List Host.Cell) (off n : Nat), inp.bits ≤ off + fuel →
    ManchRun inp out zero one zlen olen m off n
      (manchesterLoop inp out zero one zlen olen fuel ⟨m, n, off⟩).bmem
      (manchesterLoop inp out zero one zlen olen fuel ⟨m, n, off⟩).pos
      (manchesterLoop inp out zero one zlen olen fuel ⟨m, n, off⟩).count := by
  induction fuel with
  | zero => exact fun _ _ _ hfuel => .atEnd hfuel
  | succ fuel ih =>
    intro m off n hfuel
    by_cases hpos : off < inp.bits
    · by_cases hzero : matchAt m inp off zero zlen = true
      · simp only [manchesterLoop, hpos, hzero, ↓reduceIte]
        exact .zero hpos (matchAt_iff.1 hzero) (ih _ _ _ (by omega))
      · have hno : ¬ Matches m inp off zero zlen := mt matchAt_iff.2 hzero
        by_cases hone : matchAt m inp off one olen = true
        · simp only [manchesterLoop, hpos, hzero, hone, ↓reduceIte, Bool.false_eq_true]
          exact .one hpos hno (matchAt_iff.1 hone) (ih _ _ _ (by omega))
        · simp only [manchesterLoop, hpos, hzero, hone, ↓reduceIte, Bool.false_eq_true]
          exact .noMatch hpos hno (mt matchAt_iff.2 hone)
    · simp only [manchesterLoop, hpos, ↓reduceIte]
      exact .atEnd (Nat.le_of_not_lt hpos)

end ManchesterRun

/-- R102: the patterns of a well-formed `LC.MANCH` are not empty. -/
theorem patternLengths_pos {opat zpat : BitVec 8} {olen zlen : BitVec 4}
    (h : (Instr.lcManch opat zpat olen zlen).wellFormed = true) : 0 < zlen.toNat ∧ 0 < olen.toNat := by
  simp only [Instr.wellFormed, decide_eq_true_eq] at h
  omega

/-- Settles O24: the loop takes the rule's steps, and every step writes at most the byte of its bit. -/
theorem lcManchRunsTheLoop : Obligations.LcManchRunsTheLoop := by
  intro s opat zpat olen zlen hwf h0 h3
  obtain ⟨hz, ho⟩ := patternLengths_pos hwf
  have hrun := manchesterLoop_run (inp := s.pe.latch.buf0) (out := s.pe.latch.buf3)
    (zero := patternBit zpat zlen.toNat) (one := patternBit opat olen.toNat) hz ho
    (s.pe.latch.buf0.bits - s.pe.latch.arg 2) s.bmem (s.pe.latch.arg 2) 0 (by omega)
  exact ⟨_, _, _, hrun, ifInRange_buf0_buf3 h0 h3 _,
    fun a ha => hrun.onlyBitsWritten.keeps a fun j _ => ha j⟩

/-! The Manchester code of two half bits (R140, R142). -/

section ManchesterPairs

variable {inp out : Desc} {inverted : Bool} {m : List Host.Cell} {d : Nat → Bool} {n : Nat}

/-- The pattern of the data bit `v` in one polarity (R140): a first half and its complement. -/
def pairBit (inverted v : Bool) (i : Nat) : Bool := if i = 0 then v ^^ inverted else !(v ^^ inverted)

/-- The two polarities of R140 as words of `LC.MANCH`. -/
def pairInstr (inverted : Bool) : Instr :=
  if inverted then .lcManch 0x01#8 0x02#8 2#4 2#4 else .lcManch 0x02#8 0x01#8 2#4 2#4

theorem patternBit_two (v : BitVec 8) (i : Nat) :
    patternBit v 2 i = if i = 0 then v.getLsbD 1 else v.getLsbD 0 := by
  cases i with
  | zero => rfl
  | succ i => simp [patternBit]

theorem exec_pairInstr {s : State} (h0 : s.pe.latch.arg 0 + s.pe.latch.arg 1 ≤ s.params.bmemBytes)
    (h3 : s.pe.latch.arg 3 + s.pe.latch.arg 4 ≤ s.params.bmemBytes) (inverted : Bool) :
    exec (pairInstr inverted) s = .next (s.setDecoded (manchester s.bmem s.pe.latch.buf0 s.pe.latch.buf3
      (s.pe.latch.arg 2) (pairBit inverted false) (pairBit inverted true) 2 2)).completePe := by
  rw [← ifInRange_buf0_buf3 h0 h3]
  have h01 : patternBit 0x01#8 2 = pairBit false false := funext (patternBit_two _)
  have h10 : patternBit 0x02#8 2 = pairBit false true := funext (patternBit_two _)
  cases inverted with
  | false => rw [← h01, ← h10]; rfl
  | true =>
    have hswap (v : Bool) : pairBit true v = pairBit false (!v) := by
      funext i
      simp [pairBit]
    rw [hswap, hswap, Bool.not_false, Bool.not_true, ← h01, ← h10]
    rfl

theorem matches_pairBit_iff {off : Nat} {v : Bool} : Matches m inp off (pairBit inverted v) 2 ↔
    bget m inp off = (v ^^ inverted) ∧ bget m inp (off + 1) = !(v ^^ inverted) :=
  ⟨fun h => ⟨h 0 (by omega), h 1 (by omega)⟩, fun ⟨h0, h1⟩ i hi => by
    obtain rfl | rfl : i = 0 ∨ i = 1 := by omega
    · exact h0
    · exact h1⟩

/-- A round of the loop on the pair of the data bit `v`: the other pattern begins with the other half. -/
theorem manchesterLoop_pair {r : Decoded} {v : Bool} (hpos : r.pos < inp.bits)
    (h : Matches r.bmem inp r.pos (pairBit inverted v) 2) (fuel : Nat) :
    manchesterLoop inp out (pairBit inverted false) (pairBit inverted true) 2 2 (fuel + 1) r =
      manchesterLoop inp out (pairBit inverted false) (pairBit inverted true) 2 2 fuel
        ⟨bset r.bmem out r.count v, r.count + 1, r.pos + 2⟩ := by
  cases v with
  | false => rw [manchesterLoop, if_pos hpos, if_pos (matchAt_iff.2 h)]
  | true =>
    have hzero : ¬ matchAt r.bmem inp r.pos (pairBit inverted false) 2 = true := by
      intro hz
      obtain ⟨hfirst, -⟩ := matches_pairBit_iff.1 h
      obtain ⟨hother, -⟩ := matches_pairBit_iff.1 (matchAt_iff.1 hz)
      simp [hfirst] at hother
    rw [manchesterLoop, if_pos hpos, if_neg hzero, if_pos (matchAt_iff.2 h)]

/-- The loop stops at the end of the input, and on two equal half bits (R142). -/
theorem manchesterLoop_stop {r : Decoded}
    (h : r.pos < inp.bits → bget r.bmem inp r.pos = bget r.bmem inp (r.pos + 1)) (fuel : Nat) :
    manchesterLoop inp out (pairBit inverted false) (pairBit inverted true) 2 2 fuel r = r := by
  cases fuel with
  | zero => rfl
  | succ fuel =>
    by_cases hpos : r.pos < inp.bits
    · have hno (v : Bool) : ¬ matchAt r.bmem inp r.pos (pairBit inverted v) 2 = true := by
        intro hv
        obtain ⟨hfirst, hsecond⟩ := matches_pairBit_iff.1 (matchAt_iff.1 hv)
        simp [← h hpos, hfirst] at hsecond
      rw [manchesterLoop, if_pos hpos, if_neg (hno false), if_neg (hno true)]
    · rw [manchesterLoop, if_neg hpos]

/-- The loop on `n` pairs from position 0: it goes on behind them, with the data bits written. -/
theorem manchesterLoop_pairs (hdisj : NoSharedByte inp out) (hfit : 2 * n ≤ inp.bits)
    (hpairs : ∀ j, j < n → Matches m inp (2 * j) (pairBit inverted (d j)) 2) : ∀ fuel : Nat,
    manchesterLoop inp out (pairBit inverted false) (pairBit inverted true) 2 2 (n + fuel) ⟨m, 0, 0⟩ =
      manchesterLoop inp out (pairBit inverted false) (pairBit inverted true) 2 2 fuel
        ⟨writeBits out d n m, n, 2 * n⟩ := by
  induction n with
  | zero => exact fun fuel => by rw [Nat.zero_add]; rfl
  | succ n ih =>
    intro fuel
    have hpair : Matches (writeBits out d n m) inp (2 * n) (pairBit inverted (d n)) 2 := fun i hi =>
      (bget_writeBits_disjoint hdisj d n _).trans (hpairs n n.lt_succ_self i hi)
    rw [Nat.succ_add_eq_add_succ, ih (by omega) fun j hj => hpairs j (hj.trans n.lt_succ_self),
      manchesterLoop_pair (by dsimp only; omega) hpair]
    rfl

/-- What the decoder makes of `n` pairs at position 0 that the input ends with, or that two equal half
bits follow. -/
theorem manchester_of_pairs (hdisj : NoSharedByte inp out) (hfit : 2 * n ≤ inp.bits)
    (hpairs : ∀ j, j < n → Matches m inp (2 * j) (pairBit inverted (d j)) 2)
    (hstop : 2 * n < inp.bits → bget m inp (2 * n) = bget m inp (2 * n + 1)) :
    manchester m inp out 0 (pairBit inverted false) (pairBit inverted true) 2 2 =
      ⟨writeBits out d n m, n, 2 * n⟩ := by
  have hfuel : inp.bits - 0 = n + (inp.bits - n) := by omega
  rw [manchester, hfuel, manchesterLoop_pairs hdisj hfit hpairs, manchesterLoop_stop]
  simpa only [bget_writeBits_disjoint hdisj] using hstop

end ManchesterPairs

/-- Settles O25: the `8K` pairs are decoded one by one, and behind them nothing matches. -/
theorem manchesterRoundTrip : Obligations.ManchesterRoundTrip := by
  intro s inverted k d h0 h3 hdisj hstart hlen hcode hend
  have hbits : s.pe.latch.buf0.bits = 8 * s.pe.latch.arg 1 := rfl
  have hout : s.pe.latch.buf3.bits = 8 * s.pe.latch.arg 4 := rfl
  have hstop : 2 * (8 * k) < s.pe.latch.buf0.bits →
      bget s.bmem s.pe.latch.buf0 (2 * (8 * k)) = bget s.bmem s.pe.latch.buf0 (2 * (8 * k) + 1) := by
    intro hmore
    obtain hexact | ⟨-, hequal⟩ := hend
    · omega
    · rwa [← Nat.mul_assoc]
  have hdec := manchester_of_pairs hdisj (by omega)
    (fun j hj => matches_pairBit_iff.2 (hcode j hj)) hstop
  refine ⟨_, exec_pairInstr h0 h3 inverted, ?_⟩
  rw [hstart, hdec]
  refine ⟨rfl, congrArg (BitVec.ofNat 32) (Nat.mul_assoc 2 8 k).symm, fun j hj => ?_⟩
  exact bget_writeBits d hj (by omega)

/-! The differential-Manchester loop (R145). -/

section DiffManchesterRun

variable {inp out : Desc} {maxBits : Nat}

theorem DiffRun.onlyBitsWritten {m m' : List Host.Cell} {b0 : Bool} {p p' n n' : Nat}
    (h : DiffRun inp out maxBits m b0 p n m' p' n') : OnlyBitsWritten out n n' m m' := by
  induction h with
  | enough => exact .refl _ _ _
  | atEnd => exact .refl _ _ _
  | corrupt => exact .refl _ _ _
  | bit _ _ _ _ ih => exact ih.of_bset

/-- Two raw bits are consumed per output bit (R143). -/
theorem DiffRun.pos_count {m m' : List Host.Cell} {b0 : Bool} {p p' n n' : Nat}
    (h : DiffRun inp out maxBits m b0 p n m' p' n') : p' + 2 * n = p + 2 * n' := by
  induction h with
  | enough => rfl
  | atEnd => rfl
  | corrupt => rfl
  | bit _ _ _ _ ih => omega

theorem diffmLoop_run (rounds : Nat) :
    ∀ (m : List Host.Cell) (b0 : Bool) (p n : Nat), n + rounds = maxBits →
    DiffRun inp out maxBits m b0 p n (diffmLoop inp out rounds b0 ⟨m, n, p⟩).bmem
      (diffmLoop inp out rounds b0 ⟨m, n, p⟩).pos (diffmLoop inp out rounds b0 ⟨m, n, p⟩).count := by
  induction rounds with
  | zero => exact fun _ _ _ _ hmax => .enough hmax.ge
  | succ rounds ih =>
    intro m b0 p n hmax
    by_cases hpos : p + 2 < inp.bits
    · by_cases hmid : bget m inp (p + 1) = b0
      · simp only [diffmLoop, hpos, hmid, ↓reduceIte]
        exact .corrupt (by omega) hpos hmid
      · simp only [diffmLoop, hpos, hmid, ↓reduceIte, Bool.beq_eq_decide_eq]
        exact .bit (by omega) hpos hmid (ih _ _ _ _ (by omega))
    · simp only [diffmLoop, hpos, ↓reduceIte]
      exact .atEnd (Nat.le_of_not_lt hpos)

end DiffManchesterRun

theorem exec_lcDiffm {s : State} (h0 : s.pe.latch.arg 0 + s.pe.latch.arg 1 ≤ s.params.bmemBytes)
    (h3 : s.pe.latch.arg 3 + s.pe.latch.arg 4 ≤ s.params.bmemBytes) :
    exec .lcDiffm s = .next (s.setDecoded (diffManchester s.bmem s.pe.latch.buf0 s.pe.latch.buf3
      (s.pe.latch.arg 2) (s.pe.latch.arg 5))).completePe :=
  ifInRange_buf0_buf3 h0 h3 _

/-- Settles O26: the decoder reads its priming bit and runs the rule's loop, unless the start lies past the
input. -/
theorem lcDiffmRunsTheLoop : Obligations.LcDiffmRunsTheLoop := by
  intro s h0 h3
  rw [exec_lcDiffm h0 h3, diffManchester]
  constructor
  · intro hstart
    have hpast : ¬ s.pe.latch.arg 2 < s.pe.latch.buf0.bits := Nat.not_lt.2 hstart
    rw [if_neg hpast]
    rfl
  · intro hstart
    have hin : s.pe.latch.arg 2 < s.pe.latch.buf0.bits := hstart
    have hrun := diffmLoop_run (inp := s.pe.latch.buf0) (out := s.pe.latch.buf3) (s.pe.latch.arg 5)
      s.bmem (bget s.bmem s.pe.latch.buf0 (s.pe.latch.arg 2)) (s.pe.latch.arg 2) 0 (Nat.zero_add _)
    rw [if_pos hin]
    exact ⟨_, _, _, hrun, hrun.pos_count, rfl, fun a ha => hrun.onlyBitsWritten.keeps a fun j _ => ha j⟩

/-! The differential-Manchester code (R144, R146, R147). -/

section DiffManchesterSymbols

variable {inp out : Desc} {m : List Host.Cell} {raw : Nat → Bool} {start n : Nat}

/-- The loop on `n` symbols with their mid-bit transition: it goes on behind them, and bit `j` written tells
whether symbol `j + 1` starts without an edge (R143). -/
theorem diffmLoop_symbols (hdisj : NoSharedByte inp out) (hfit : start + 2 * n < inp.bits)
    (hraw : ∀ j, j ≤ 2 * n → bget m inp (start + j) = raw j)
    (hmid : ∀ j, j < n → raw (2 * j + 1) ≠ raw (2 * j)) : ∀ rounds : Nat,
    diffmLoop inp out (n + rounds) (raw 0) ⟨m, 0, start⟩ =
      diffmLoop inp out rounds (raw (2 * n))
        ⟨writeBits out (fun j => raw (2 * j + 1) == raw (2 * j + 2)) n m, n, start + 2 * n⟩ := by
  induction n with
  | zero => exact fun rounds => by rw [Nat.zero_add]; rfl
  | succ n ih =>
    intro rounds
    have hfirst := hraw (2 * n + 1) (by omega)
    have hsecond := hraw (2 * n + 2) (by omega)
    rw [Nat.succ_add_eq_add_succ, ih (by omega) (fun j hj => hraw j (by omega))
      (fun j hj => hmid j (hj.trans n.lt_succ_self)), diffmLoop, if_pos (by dsimp only; omega)]
    simp only [bget_writeBits_disjoint hdisj, Nat.add_assoc, hfirst, hsecond,
      if_neg (hmid n n.lt_succ_self)]
    rfl

/-- The loop stops on a symbol without its mid-bit transition, whether or not the input ends there. -/
theorem diffmLoop_corrupt {r : Decoded} {b0 : Bool} (h : bget r.bmem inp (r.pos + 1) = b0) (rounds : Nat) :
    diffmLoop inp out rounds b0 r = r := by
  cases rounds with
  | zero => rfl
  | succ rounds => rw [diffmLoop, if_pos h, ite_self]

/-- What the decoder makes of `n` symbols with their mid-bit transition, when they are all it is to decode
or the next symbol lacks its transition. -/
theorem diffManchester_of_symbols {maxBits : Nat} (hdisj : NoSharedByte inp out)
    (hfit : start + 2 * n < inp.bits) (hmax : n ≤ maxBits)
    (hraw : ∀ j, j ≤ 2 * n → bget m inp (start + j) = raw j)
    (hmid : ∀ j, j < n → raw (2 * j + 1) ≠ raw (2 * j))
    (hstop : n = maxBits ∨ bget m inp (start + (2 * n + 1)) = raw (2 * n)) :
    diffManchester m inp out start maxBits =
      ⟨writeBits out (fun j => raw (2 * j + 1) == raw (2 * j + 2)) n m, n, start + 2 * n + 1⟩ := by
  obtain ⟨rounds, rfl⟩ := Nat.exists_eq_add_of_le hmax
  have hprime : bget m inp start = raw 0 := hraw 0 (Nat.zero_le _)
  rw [diffManchester, if_pos (by omega), hprime, diffmLoop_symbols hdisj hfit hraw hmid]
  obtain hall | hcorrupt := hstop
  · obtain rfl : rounds = 0 := by omega
    rfl
  · rw [diffmLoop_corrupt ((bget_writeBits_disjoint hdisj _ n _).trans hcorrupt)]

end DiffManchesterSymbols

section DiffEncoding

variable {r d : Nat → Bool} {j k m : Nat}

theorem DiffEncodes.mid_edge (h : DiffEncodes r d k) (hj : j < k) : r (2 * j + 1) = !(r (2 * j)) :=
  (h j hj).1

/-- A symbol starts without an edge iff the data bit before it is 1. -/
theorem DiffEncodes.start_edge (h : DiffEncodes r d k) (hj : j < k) :
    r (2 * j + 2) = (r (2 * j + 1) ^^ !(d j)) := by
  rw [(h j hj).2]
  cases d j <;> simp

/-- The encoding `r` with the raw bit `m` flipped (R147). -/
def flipBit (r : Nat → Bool) (m j : Nat) : Bool := r j ^^ decide (j = m)

theorem flipBit_other (h : j ≠ m) : flipBit r m j = r j := by simp [flipBit, h]

theorem flipBit_self : flipBit r m m = !(r m) := by simp [flipBit]

/-- The symbols before the flipped bit keep their mid-bit transition. -/
theorem flipBit_mid_edge (h : DiffEncodes r d k) (hj : j < k) (hm : j < m / 2) :
    flipBit r m (2 * j + 1) ≠ flipBit r m (2 * j) := by
  rw [flipBit_other (by omega), flipBit_other (by omega), h.mid_edge hj]
  exact Bool.not_ne_self _

/-- The symbol of the flipped bit has lost its mid-bit transition. -/
theorem flipBit_mid_lost (h : DiffEncodes r d k) (hm : m / 2 < k) :
    flipBit r m (2 * (m / 2) + 1) = flipBit r m (2 * (m / 2)) := by
  have hedge := h.mid_edge hm
  obtain heven | hodd := Nat.mod_two_eq_zero_or_one m
  · have hfirst : 2 * (m / 2) = m := by omega
    rw [hfirst] at hedge ⊢
    rw [flipBit_other (by omega), flipBit_self, hedge]
  · have hsecond : 2 * (m / 2) + 1 = m := by omega
    rw [hsecond] at hedge ⊢
    rw [flipBit_self, flipBit_other (by omega), hedge, Bool.not_not]

/-- The bit emitted for a symbol boundary before the flipped bit: it is wrong iff the flipped bit stands
right behind the boundary. -/
theorem flipBit_start_edge (h : DiffEncodes r d k) (hj : j < k) (hm : j < m / 2) :
    (flipBit r m (2 * j + 1) == flipBit r m (2 * j + 2)) = (d j ^^ decide (2 * j + 2 = m)) := by
  rw [flipBit_other (by omega), flipBit, h.start_edge hj]
  cases r (2 * j + 1) <;> cases d j <;> simp

end DiffEncoding

/-- Settles O27: every symbol has its mid-bit transition, so all `K` bits are decoded. -/
theorem diffManchesterRoundTrip : Obligations.DiffManchesterRoundTrip := by
  rintro s k r d h0 h3 hdisj rfl hfit hcode hraw
  have hdec := diffManchester_of_symbols (maxBits := s.pe.latch.arg 5) hdisj (Nat.lt_of_succ_le hfit)
    le_rfl hraw (fun j hj => by rw [hcode.mid_edge hj]; exact Bool.not_ne_self _) (.inl rfl)
  refine ⟨_, exec_lcDiffm h0 h3, ?_⟩
  rw [hdec]
  refine ⟨rfl, rfl, fun j hj hout => (bget_writeBits (out := s.pe.latch.buf3) _ hj hout).trans ?_⟩
  rw [hcode.start_edge hj]
  cases r (2 * j + 1) <;> simp

/-- A decode of an encoding with the raw bit `m` flipped: `m / 2` bits come out, wrong iff the flipped bit
stands right behind their symbol boundary. -/
theorem exec_lcDiffm_flipBit {s : State} {k m : Nat} {r d : Nat → Bool}
    (h0 : s.pe.latch.arg 0 + s.pe.latch.arg 1 ≤ s.params.bmemBytes)
    (h3 : s.pe.latch.arg 3 + s.pe.latch.arg 4 ≤ s.params.bmemBytes)
    (hdisj : NoSharedByte s.pe.latch.buf0 s.pe.latch.buf3) (hmax : s.pe.latch.arg 5 = k)
    (hfit : s.pe.latch.arg 2 + 2 * k + 1 ≤ 8 * s.pe.latch.arg 1) (hcode : DiffEncodes r d k)
    (hm : m ≤ 2 * k)
    (hraw : ∀ j, j ≤ 2 * k → bget s.bmem s.pe.latch.buf0 (s.pe.latch.arg 2 + j) = flipBit r m j) :
    ∃ t, exec .lcDiffm s = .next t ∧ t.result0 = BitVec.ofNat 32 (m / 2) ∧
      ∀ j, j < m / 2 → j < 8 * s.pe.latch.arg 4 →
        bget t.bmem s.pe.latch.buf3 j = (d j ^^ decide (2 * j + 2 = m)) := by
  have hbits : s.pe.latch.buf0.bits = 8 * s.pe.latch.arg 1 := rfl
  have hstop : m / 2 = s.pe.latch.arg 5 ∨ bget s.bmem s.pe.latch.buf0
      (s.pe.latch.arg 2 + (2 * (m / 2) + 1)) = flipBit r m (2 * (m / 2)) := by
    obtain hlast | hlost : m = 2 * k ∨ m / 2 < k := by omega
    · exact .inl (by omega)
    · exact .inr ((hraw _ (by omega)).trans (flipBit_mid_lost hcode hlost))
  have hdec := diffManchester_of_symbols hdisj (n := m / 2) (by omega) (by omega)
    (fun j hj => hraw j (by omega)) (fun j hj => flipBit_mid_edge hcode (by omega) hj) hstop
  refine ⟨_, exec_lcDiffm h0 h3, ?_⟩
  rw [hdec]
  refine ⟨rfl, fun j hj hout => ?_⟩
  exact (bget_writeBits (out := s.pe.latch.buf3) _ hj hout).trans
    (flipBit_start_edge hcode (by omega) hj)

/-- Settles O28: the four clauses are the places where the flipped bit can stand. -/
theorem diffManchesterBitFlip : Obligations.DiffManchesterBitFlip := by
  intro s k m r d h0 h3 hdisj hmax hk hfit hcode hm hraw
  obtain ⟨t, hexec, hcount, hbit⟩ := exec_lcDiffm_flipBit h0 h3 hdisj hmax hfit hcode hm hraw
  have hwrong (heven : m % 2 = 0) (hpos : 2 ≤ m) (hout : m / 2 - 1 < 8 * s.pe.latch.arg 4) :
      bget t.bmem s.pe.latch.buf3 (m / 2 - 1) = !(d (m / 2 - 1)) := by
    have hflip : 2 * (m / 2 - 1) + 2 = m := by omega
    rw [hbit _ (by omega) hout, decide_eq_true hflip, Bool.xor_true]
  refine ⟨t, hexec, fun hfirst => ?_, fun hodd hpos => ?_, fun heven hpos hinner => ?_, fun hlast => ?_⟩
  · have hzero : m / 2 = 0 := by omega
    rw [hcount, hzero]
  · have hhalf : (m - 1) / 2 = m / 2 := by omega
    rw [hhalf]
    refine ⟨hcount, fun j hj hout => ?_⟩
    have hright : 2 * j + 2 ≠ m := by omega
    rw [hbit j hj hout, decide_eq_false hright, Bool.xor_false]
  · exact ⟨hcount, by omega, hwrong heven hpos⟩
  · obtain rfl : k = m / 2 := by omega
    exact ⟨hcount, hwrong (by omega) (by omega)⟩

end Sys2Proof.Machine
end

section
/-!
PROOFS. What the CRC generators compute (O29, O30; 42_crc.md). Both are one fold over the data, in which each
byte enters at the top of a register of `w` bits. A byte equal to the top byte of the register leaves no 1
to shift out, which gives the zero residue; an odd polynomial leaves the bit shifted out in bit 0, so no shift
step forgets anything.
-/

namespace Sys2Proof.Machine

section Crc

variable {w : Nat} {poly c : BitVec w} {n : Nat}

/-! The shift steps (R161, R162). -/

theorem crcShift_of_msb_false (h : c.msb = false) : crcShift poly c = c <<< 1 := by
  rw [crcShift, h, if_neg Bool.false_ne_true]

theorem crcShifts_eq_iterate (poly : BitVec w) (n : Nat) : crcShifts poly n = (crcShift poly)^[n] := by
  induction n with
  | zero => rfl
  | succ n ih =>
    funext c
    rw [crcShifts, ih, Function.iterate_succ_apply]

/-- While only zeros are shifted out, the polynomial never enters. -/
theorem crcShifts_of_top_zero (h : ∀ i, w ≤ i + n → c.getLsbD i = false) :
    crcShifts poly n c = c <<< n := by
  induction n generalizing c with
  | zero => exact (BitVec.shiftLeft_zero c).symm
  | succ n ih =>
    have hmsb : c.msb = false := by
      rw [BitVec.msb_eq_getLsbD_last]
      exact h _ (by omega)
    have hrest : ∀ i, w ≤ i + n → (c <<< 1).getLsbD i = false := by
      intro i hi
      rw [BitVec.getLsbD_shiftLeft]
      by_cases hlow : i < 1
      · simp [hlow]
      · rw [h (i - 1) (by omega), Bool.and_false]
    rw [crcShifts, crcShift_of_msb_false hmsb, ih hrest, ← BitVec.shiftLeft_add, Nat.add_comm]

/-- An odd polynomial leaves the bit shifted out in bit 0. -/
theorem crcShift_getLsbD_zero (hodd : poly.getLsbD 0 = true) (c : BitVec w) :
    (crcShift poly c).getLsbD 0 = c.msb := by
  rw [crcShift]
  cases hmsb : c.msb <;> simp [hodd]

theorem shiftLeft_one_injective_of_msb {a b : BitVec w} (hmsb : a.msb = b.msb)
    (h : a <<< 1 = b <<< 1) : a = b := by
  rw [BitVec.msb_eq_getLsbD_last, BitVec.msb_eq_getLsbD_last] at hmsb
  refine BitVec.eq_of_getLsbD_eq fun i hi => ?_
  by_cases hlast : i + 1 < w
  · have hbit := congrArg (·.getLsbD (i + 1)) h
    simpa [hlast, hi, BitVec.getLsbD_eq_getElem] using hbit
  · obtain rfl : i = w - 1 := by omega
    exact hmsb

theorem crcShift_injective (hodd : poly.getLsbD 0 = true) : Function.Injective (crcShift poly) := by
  intro a b h
  have hmsb : a.msb = b.msb := by
    rw [← crcShift_getLsbD_zero hodd, h, crcShift_getLsbD_zero hodd]
  refine shiftLeft_one_injective_of_msb hmsb ?_
  rw [crcShift, crcShift, hmsb] at h
  split at h
  · exact (BitVec.xor_left_inj _).1 h
  · exact h

/-! One byte, and the whole data. -/

/-- One byte enters at the top of the register and is shifted through (R161, R162). -/
def crcByte (poly c : BitVec w) (b : Byte) : BitVec w :=
  crcShifts poly 8 (c ^^^ (BitVec.setWidth w b <<< (w - 8)))

/-- The CRC of the data, a register of `w` bits (R160). -/
def crcOf (poly init : BitVec w) (data : List Byte) : BitVec w := data.foldl (crcByte poly) init

theorem crc8Of_eq_crcOf (poly init : BitVec 8) (data : List Byte) :
    crc8Of poly init data = crcOf poly init data := by
  induction data generalizing init with
  | nil => rfl
  | cons b rest ih =>
    rw [crc8Of, ih, crcOf, crcOf, List.foldl_cons, crcByte, BitVec.setWidth_eq, BitVec.shiftLeft_zero]

theorem crc16Of_eq_crcOf (poly init : BitVec 16) (data : List Byte) :
    crc16Of poly init data = crcOf poly init data := by
  induction data generalizing init with
  | nil => rfl
  | cons b rest ih => exact ih _

theorem crcOf_append (poly init : BitVec w) (xs ys : List Byte) :
    crcOf poly init (xs ++ ys) = crcOf poly (crcOf poly init xs) ys := List.foldl_append

/-- The register's own top byte cancels the top of the register; the rest moves up. -/
theorem crcByte_top_byte (hw : 8 ≤ w) (poly c : BitVec w) :
    crcByte poly c (c.extractLsb' (w - 8) 8) = c <<< 8 := by
  have hbit (i : Nat) : (c ^^^ (BitVec.setWidth w (c.extractLsb' (w - 8) 8) <<< (w - 8))).getLsbD i =
      (decide (i < w - 8) && c.getLsbD i) := by
    by_cases hlow : i < w - 8
    · simp [hlow]
    · by_cases hi : i < w
      · have hin : i - (w - 8) < 8 := by omega
        have hat : w - 8 + (i - (w - 8)) = i := by omega
        simp [hlow, hi, hin, hat]
      · simp [hi, hlow, BitVec.getLsbD_of_ge c i (by omega)]
  rw [crcByte, crcShifts_of_top_zero fun i hi => by rw [hbit, decide_eq_false (by omega), Bool.false_and]]
  refine BitVec.eq_of_getLsbD_eq fun i hi => ?_
  rw [BitVec.getLsbD_shiftLeft, BitVec.getLsbD_shiftLeft, hbit]
  by_cases hlow : i < 8
  · simp [hlow]
  · rw [decide_eq_true (by omega : i - 8 < w - 8), decide_eq_true hi, Bool.true_and, Bool.true_and]

theorem crcByte_injective (hodd : poly.getLsbD 0 = true) (b : Byte) :
    Function.Injective (crcByte poly · b) := by
  intro x y h
  have hshifts := (crcShift_injective hodd).iterate 8
  rw [← crcShifts_eq_iterate] at hshifts
  exact (BitVec.xor_left_inj _).1 (hshifts h)

theorem crcOf_injective (hodd : poly.getLsbD 0 = true) (data : List Byte) :
    Function.Injective (crcOf poly · data) := by
  induction data with
  | nil => exact fun _ _ h => h
  | cons b rest ih => exact fun _ _ h => crcByte_injective hodd b (ih h)

end Crc

/-- R164 for the CRC-8: the register's one byte is its top byte. -/
theorem crc8Of_zero_residue (poly init : BitVec 8) (data : List Byte) :
    crc8Of poly init (data ++ [crc8Of poly init data]) = 0#8 := by
  simp only [crc8Of_eq_crcOf, crcOf_append]
  generalize crcOf poly init data = c
  calc crcByte poly c c
    _ = crcByte poly c (c.extractLsb' 0 8) := by rw [BitVec.extractLsb'_eq_self]
    _ = c <<< 8 := crcByte_top_byte le_rfl poly c
    _ = 0#8 := BitVec.shiftLeft_eq_zero le_rfl

/-- R164 for the CRC-16: the high byte brings the low byte to the top. -/
theorem crc16Of_zero_residue (poly init : BitVec 16) (data : List Byte) :
    crc16Of poly init (data ++ [(crc16Of poly init data).extractLsb' 8 8,
      (crc16Of poly init data).extractLsb' 0 8]) = 0#16 := by
  simp only [crc16Of_eq_crcOf, crcOf_append]
  generalize crcOf poly init data = c
  have hlow : c.extractLsb' 0 8 = (c <<< 8).extractLsb' 8 8 := by
    refine BitVec.eq_of_getLsbD_eq fun i hi => ?_
    rw [BitVec.getLsbD_extractLsb', BitVec.getLsbD_extractLsb', BitVec.getLsbD_shiftLeft]
    simp [show 8 + i < 16 by omega]
  calc crcByte poly (crcByte poly c (c.extractLsb' 8 8)) (c.extractLsb' 0 8)
    _ = crcByte poly (c <<< 8) ((c <<< 8).extractLsb' 8 8) := by
      rw [crcByte_top_byte (by decide) poly c, hlow]
    _ = c <<< 8 <<< 8 := crcByte_top_byte (by decide) poly (c <<< 8)
    _ = 0#16 := by rw [← BitVec.shiftLeft_add, BitVec.shiftLeft_eq_zero le_rfl]

/-- R164's example: the check value 0x29B1 of "123456789" (R163) appended low byte first. -/
theorem crc16Of_low_byte_first : crc16Of 0x1021#16 0xFFFF#16 [0x31#8, 0x32#8, 0x33#8, 0x34#8, 0x35#8,
    0x36#8, 0x37#8, 0x38#8, 0x39#8, 0xB1#8, 0x29#8] = 0x93F3#16 := by decide +kernel

/-- Settles O30: a byte that is the register's top byte only moves the rest up, and with an odd polynomial
every byte acts on the register injectively. -/
theorem crcLaws : Obligations.CrcLaws := by
  refine ⟨crc8Of_zero_residue, crc16Of_zero_residue, crc16Of_low_byte_first,
    fun poly a b data hodd h => ?_, fun poly a b data hodd h => ?_⟩
  · rw [crc8Of_eq_crcOf, crc8Of_eq_crcOf] at h
    exact crcOf_injective hodd data h
  · rw [crc16Of_eq_crcOf, crc16Of_eq_crcOf] at h
    exact crcOf_injective hodd data h

/-! The loops on naturals (R160 to R162). -/

section CrcNat

variable {w : Nat}

theorem msb_iff_toNat (c : BitVec w) : c.msb = true ↔ c.toNat / 2 ^ (w - 1) % 2 = 1 := by
  rw [BitVec.msb_eq_getLsbD_last, BitVec.getLsbD, Nat.testBit_eq_decide_div_mod_eq, decide_eq_true_iff]

theorem crcShift_toNat (poly c : BitVec w) :
    (crcShift poly c).toNat = crcShiftNat w poly.toNat c.toNat := by
  have hup : (c <<< 1).toNat = c.toNat * 2 % 2 ^ w := by
    rw [BitVec.toNat_shiftLeft, Nat.shiftLeft_eq, pow_one]
  simp only [crcShift, crcShiftNat, apply_ite BitVec.toNat, BitVec.toNat_xor, hup, msb_iff_toNat,
    Nat.xor_mod_two_pow, BitVec.toNat_mod_cancel]

theorem crcShifts_toNat (poly c : BitVec w) (n : Nat) :
    (crcShifts poly n c).toNat = (crcShiftNat w poly.toNat)^[n] c.toNat := by
  rw [crcShifts_eq_iterate]
  exact Function.Semiconj.iterate_right (crcShift_toNat poly) n c

theorem crcByte_toNat (hw : 8 ≤ w) (poly c : BitVec w) (b : Byte) :
    (crcByte poly c b).toNat = crcByteNat w poly.toNat c.toNat b.toNat := by
  have htop : b.toNat * 2 ^ (w - 8) < 2 ^ w :=
    calc b.toNat * 2 ^ (w - 8)
      _ < 2 ^ 8 * 2 ^ (w - 8) := Nat.mul_lt_mul_of_pos_right b.isLt (Nat.two_pow_pos _)
      _ = 2 ^ w := by rw [← pow_add, Nat.add_sub_cancel' hw]
  have hfits : b.toNat < 2 ^ w := b.isLt.trans_le (Nat.pow_le_pow_right (by decide) hw)
  rw [crcByte, crcShifts_toNat, crcByteNat, BitVec.toNat_xor, BitVec.toNat_shiftLeft, BitVec.toNat_setWidth,
    Nat.shiftLeft_eq, Nat.mod_eq_of_lt hfits, Nat.mod_eq_of_lt htop]

theorem crcOf_readBytes_toNat (hw : 8 ≤ w) (poly init : BitVec w) (m : List Host.Cell) (base n : Nat) :
    (crcOf poly init (readBytes m base n)).toNat =
      crcNat w poly.toNat init.toNat (fun i => (memRead m (base + i)).toNat) n := by
  rw [crcOf, readBytes, List.foldl_map, crcNat]
  exact (List.foldl_hom BitVec.toNat fun c i => (crcByte_toNat hw poly c _).symm).symm

/-- What the generators put into `RESULT0`: the loop on the operands cut to the width of the register. -/
theorem setWidth_crcOf_readBytes (hw : 8 ≤ w) (poly init : Nat) (m : List Host.Cell) (base n : Nat) :
    BitVec.setWidth 32 (crcOf (BitVec.ofNat w poly) (BitVec.ofNat w init) (readBytes m base n)) =
      BitVec.ofNat 32 (crcNat w (poly % 2 ^ w) (init % 2 ^ w) (fun i => (memRead m (base + i)).toNat) n) := by
  rw [← BitVec.ofNat_toNat, crcOf_readBytes_toNat hw, BitVec.toNat_ofNat, BitVec.toNat_ofNat]

end CrcNat

/-- Settles O29: both commands are in range, and their registers step as the loops on naturals. -/
theorem crcCommandsRunTheLoops : Obligations.CrcCommandsRunTheLoops := by
  intro s h
  rw [← setWidth_crcOf_readBytes le_rfl, ← crc8Of_eq_crcOf, ← setWidth_crcOf_readBytes (by decide),
    ← crc16Of_eq_crcOf]
  exact ⟨ifInRange_buf0 h _, ifInRange_buf0 h _⟩

end Sys2Proof.Machine
end

section
/-!
PROOFS. Pulse memories, the run of the classifier and the pulse-to-bit conversion (O31 to O33, O35, O36;
43_classifier.md). An append and a slot copy are one write to a pulse memory, and a whole snapshot is the slot
copies left from any slot on. What holds of a run is kept by every step of the run walk. A conversion emits
one pulse's bits after those of the pulses before it.
-/

namespace Sys2Proof.Machine

/-! The pulse memories (R181 to R183). -/

@[simp] theorem pulseRead_store_self (which : PulseMemory) (m : List (Nat × Pulse)) (k : Nat) (p : Pulse) :
    pulseRead which (Memory.store m k p) k = p := by
  simp [pulseRead]

theorem pulseRead_store_other (which : PulseMemory) (m : List (Nat × Pulse)) {j k : Nat} (p : Pulse)
    (h : j ≠ k) : pulseRead which (Memory.store m k p) j = pulseRead which m j := by
  rw [pulseRead, pulseRead, Memory.find_store_other m p h]

/-- A scheduled capture takes its pulse off the schedule and appends it (R181). -/
theorem step_of_schedule_capture {s : State} {p : Pulse} {rest : List Event}
    (hs : s.schedule = .capture p :: rest) :
    step s = .next ({ s with schedule := rest }.appendPulse p) := by
  rw [step, nextTurn, hs]

/-- Settles O31: both are an append, which is one write to the ring at the write index. -/
theorem appendTakesTheWriteSlot : Obligations.AppendTakesTheWriteSlot := fun s =>
  ⟨fun _ _ hs => ⟨_, step_of_schedule_capture hs, pulseRead_store_self _ _ _ _,
      fun _ hk => pulseRead_store_other _ _ _ hk⟩,
    fun d => ⟨_, hostStep_write_reg s .pushDur rfl d, pulseRead_store_self _ _ _ _,
      fun _ hk => pulseRead_store_other _ _ _ hk⟩⟩

/-- Settles O32: a slot copy is one write to the snapshot. -/
theorem pcSnapCopiesOneSlot : Obligations.PcSnapCopiesOneSlot := fun s =>
  ⟨(s.copySlot s.pe.sampledW s.pe.copyIdx).snap, pulseRead_store_self _ _ _ _,
    fun _ hk => pulseRead_store_other _ _ _ hk, fun hmore => if_pos hmore,
    fun hlast => if_neg (Nat.not_lt.2 hlast)⟩

section Snapshot

variable {s : State}

/-- The machine after the last step of a `PC.SNAP` that leaves `m` in the snapshot (R183). -/
def State.snapshotTaken (s : State) (m : List (Nat × Pulse)) : State :=
  { s with
    snap := m, snapWidx := BitVec.ofNat 32 s.pe.sampledW, result0 := BitVec.ofNat 32 s.pe.sampledW
    pe := { s.pe with pending := false, copyIdx := s.params.pulseCap - 1 }
    irqStatus := s.irqStatus ||| irqDone }

/-- With nothing scheduled, a pending `PC.SNAP` takes the next step. -/
theorem step_of_pcSnap (hs : s.schedule = []) (hp : s.pe.pending = true)
    (hw : s.pe.latch.word = 0x00000040#32) : step s = exec .pcSnap s :=
  ((stepRunsLatchedCommand s .pcSnap).1 hp (hw ▸ rfl)).1 hs

/-- The slot copies left from the copy index on take the snapshot: they copy their slots and leave the
others. -/
theorem stepN_pcSnap (n : Nat) : ∀ s : State, s.schedule = [] → s.pe.pending = true →
    s.pe.latch.word = 0x00000040#32 → s.pe.copyIdx + (n + 1) = s.params.pulseCap →
    ∃ m, stepN (n + 1) s = .next (s.snapshotTaken m) ∧
      (∀ c < s.pe.copyIdx, pulseRead .snap m c = pulseRead .snap s.snap c) ∧
      ∀ c, s.pe.copyIdx ≤ c → c < s.params.pulseCap →
        pulseRead .snap m c = pulseRead .ring s.ring ((s.pe.sampledW + c) % s.params.pulseCap) := by
  induction n with
  | zero =>
    intro s hs hp hw hn
    obtain ⟨m, hslot, hother, -, hlast⟩ := pcSnapCopiesOneSlot s
    have hstep := (step_of_pcSnap hs hp hw).trans (hlast hn.ge)
    refine ⟨m, ?_, fun c hc => hother c hc.ne, fun c hlo hhi => ?_⟩
    · rw [stepN_succ_of_next hstep, stepN, State.snapshotTaken, ← hn]
      rfl
    · obtain rfl : c = s.pe.copyIdx := by omega
      exact hslot
  | succ n ih =>
    intro s hs hp hw hn
    obtain ⟨m, hslot, hother, hmore, -⟩ := pcSnapCopiesOneSlot s
    have hstep := (step_of_pcSnap hs hp hw).trans (hmore (by omega))
    obtain ⟨m', hrun, hbefore, hafter⟩ :=
      ih { s with snap := m, pe := { s.pe with copyIdx := s.pe.copyIdx + 1 } } hs hp hw (by
        dsimp only
        omega)
    refine ⟨m', (stepN_succ_of_next hstep _).trans hrun, fun c hc => ?_, fun c hlo hhi => ?_⟩
    · exact (hbefore c (Nat.lt_succ_of_lt hc)).trans (hother c hc.ne)
    · obtain rfl | hlt := hlo.eq_or_lt
      · exact (hbefore _ (Nat.lt_succ_self _)).trans hslot
      · exact hafter c hlt hhi

end Snapshot

/-- Settles O33: from copy index 0 on, every slot is left to copy. -/
theorem pcSnapCopiesTheRing : Obligations.PcSnapCopiesTheRing := by
  rintro s ⟨⟨hcap, -⟩, -⟩ hs hp hw hc
  obtain ⟨m, hrun, -, hcopied⟩ := stepN_pcSnap (s.params.pulseCap - 1) s hs hp hw (by omega)
  rw [Nat.sub_add_cancel hcap] at hrun
  exact ⟨s.snapshotTaken m, hrun, rfl, fun c => hcopied c (by omega), rfl, rfl, rfl, rfl, rfl, rfl, rfl,
    rfl⟩

/-! The run walk (R187, R191). -/

section RunWalk

variable {cfg : ConfigRegs} {pulse pulse' : Nat → Pulse} {cap start len len' : Nat} {t t' : ClassTable Nat}

theorem LevelTable.slot_setSlot (t : LevelTable Nat) (k k' : Fin 3) (sl : Slot Nat) :
    (t.setSlot k sl).slot k' = if k' = k then sl else t.slot k' := by
  fin_cases k <;> fin_cases k' <;> rfl

theorem ClassTable.slot_setSlot (t : ClassTable Nat) (level level' : Bool) (k k' : Fin 3) (sl : Slot Nat) :
    (t.setSlot level k sl).slot level' k' = if level' = level ∧ k' = k then sl else t.slot level' k' := by
  rw [ClassTable.setSlot_eq]
  cases level <;> cases level' <;> simp [ClassTable.slot, LevelTable.slot_setSlot]

/-- The sum of the sample counts of a level. -/
def LevelTable.samples (t : LevelTable Nat) : Nat := t.s0.cnt + t.s1.cnt + t.s2.cnt

theorem ClassTable.samples_eq_levels (t : ClassTable Nat) : t.samples = t.low.samples + t.high.samples := rfl

theorem LevelTable.samples_setSlot (t : LevelTable Nat) (k : Fin 3) (sl : Slot Nat) :
    (t.setSlot k sl).samples + (t.slot k).cnt = t.samples + sl.cnt := by
  fin_cases k <;> simp [LevelTable.samples, LevelTable.slot, LevelTable.setSlot] <;> omega

/-- Replacing a slot changes the sum of the sample counts by that slot's count. -/
theorem ClassTable.samples_setSlot (t : ClassTable Nat) (level : Bool) (k : Fin 3) (sl : Slot Nat) :
    (t.setSlot level k sl).samples + (t.slot level k).cnt = t.samples + sl.cnt := by
  have hlow := t.low.samples_setSlot k sl
  have hhigh := t.high.samples_setSlot k sl
  simp only [ClassTable.setSlot_eq, ClassTable.samples_eq_levels, ClassTable.slot]
  cases level <;> simp only [Bool.false_eq_true, ↓reduceIte] <;> omega

/-- A duration between `MIN_DUR` and `MAX_DUR` (R187). -/
def DurWithin (cfg : ConfigRegs) (d : Nat) : Prop := cfg.minDur.toNat ≤ d ∧ d ≤ cfg.maxDur.toNat

theorem durWithin_of_not_rejected {p : Pulse} (h : ¬ Rejected cfg p) : DurWithin cfg p.dur.toNat := by
  simpa [DurWithin, Rejected, BitVec.lt_def] using h

/-- A running average stays between the bounds of what it averages. -/
theorem DurWithin.running {avg cnt d : Nat} (ha : DurWithin cfg avg) (hd : DurWithin cfg d) :
    DurWithin cfg ((avg * cnt + d) / (cnt + 1)) := by
  obtain ⟨halo, hahi⟩ := ha
  obtain ⟨hdlo, hdhi⟩ := hd
  refine ⟨(Nat.le_div_iff_mul_le cnt.succ_pos).2 ?_, Nat.div_le_of_le_mul ?_⟩
  · exact Nat.add_le_add (Nat.mul_le_mul_right cnt halo) hdlo
  · rw [Nat.mul_comm (cnt + 1)]
    exact Nat.add_le_add (Nat.mul_le_mul_right cnt hahi) hdhi

/-- What holds of the table after `len` pulses of a run (R191). -/
structure TableOfRun (cfg : ConfigRegs) (len : Nat) (t : ClassTable Nat) : Prop where
  samples_eq : t.samples = len
  avg_within : ∀ level k, (t.slot level k).cnt ≠ 0 → DurWithin cfg (t.slot level k).avg

theorem tableOfRun_empty (cfg : ConfigRegs) : TableOfRun cfg 0 (ClassTable.empty 0) where
  samples_eq := rfl
  avg_within level k h := absurd (by rw [ClassTable.slot_empty]; rfl) h

/-- A class that takes a pulse counts it and keeps its average within the bounds. -/
theorem TableOfRun.setSlot {level : Bool} {k : Fin 3} {sl : Slot Nat} (h : TableOfRun cfg len t)
    (hcnt : sl.cnt = (t.slot level k).cnt + 1) (havg : DurWithin cfg sl.avg) :
    TableOfRun cfg (len + 1) (t.setSlot level k sl) where
  samples_eq := by
    have hsum := t.samples_setSlot level k sl
    have hlen := h.samples_eq
    omega
  avg_within level' k' := by
    rw [ClassTable.slot_setSlot]
    split
    · exact fun _ => havg
    · exact h.avg_within level' k'

/-- The run walk keeps what holds of its table. -/
theorem ClassWalk.tableOfRun (h : ClassWalk cfg pulse cap start len t len' t')
    (ht : TableOfRun cfg len t) : TableOfRun cfg len' t' := by
  induction h with
  | full => exact ht
  | rejected => exact ht
  | noClass => exact ht
  | opened k _ hacc _ hfree _ ih =>
    exact ih (ht.setSlot (by rw [hfree]) (durWithin_of_not_rejected hacc))
  | joined k sl _ hacc _ hsl hcnt _ _ ih =>
    subst hsl
    exact ih (ht.setSlot rfl ((ht.avg_within _ k hcnt).running (durWithin_of_not_rejected hacc)))

theorem ClassWalk.len_le (h : ClassWalk cfg pulse cap start len t len' t') : len ≤ len' := by
  induction h with
  | full => exact le_rfl
  | rejected => exact le_rfl
  | noClass => exact le_rfl
  | opened _ _ _ _ _ _ ih => exact Nat.le_of_succ_le ih
  | joined _ _ _ _ _ _ _ _ _ ih => exact Nat.le_of_succ_le ih

/-- The least average of a level is the average of an occupied class (R188). -/
theorem TableOfRun.levelLeast_within {level : Bool} {v : Nat} (h : TableOfRun cfg len t)
    (hv : LevelLeast cfg t level (some v)) : DurWithin cfg v := by
  obtain ⟨⟨k, ⟨hocc, -⟩, rfl⟩, -⟩ := hv
  exact h.avg_within level k (Nat.ne_of_gt hocc)

/-- A nonzero unit is the mean of two averages, or one of them twice (R189). -/
theorem TableOfRun.unit_within (h : TableOfRun cfg len t) (hu : 0 < unitOf cfg t) :
    DurWithin cfg (unitOf cfg t) := by
  obtain ⟨a, b, ha, hb, heq⟩ := unitOf_isUnit (cfg := cfg) t
  rw [heq] at hu ⊢
  unfold DurWithin
  cases a with
  | none =>
    cases b with
    | none => simp at hu
    | some w =>
      obtain ⟨hlo, hhi⟩ := h.levelLeast_within hb
      dsimp only [Option.getD]
      omega
  | some v =>
    obtain ⟨hlo, hhi⟩ := h.levelLeast_within ha
    cases b with
    | none =>
      dsimp only [Option.getD]
      omega
    | some w =>
      obtain ⟨hlo', hhi'⟩ := h.levelLeast_within hb
      dsimp only [Option.getD]
      omega

/-- The walk looks at no pulse after the one that ends the run. -/
theorem classifyLoop_congr (fuel : Nat) : ∀ (len : Nat) (t : ClassTable Nat),
    (∀ j, j < len + fuel → j ≤ (classifyLoop cfg pulse start fuel len t).1 →
      pulse' (start + j) = pulse (start + j)) →
    classifyLoop cfg pulse' start fuel len t = classifyLoop cfg pulse start fuel len t := by
  induction fuel with
  | zero => exact fun _ _ _ => rfl
  | succ fuel ih =>
    intro len t hsame
    have hle := (classifyLoop_walk (cfg := cfg) pulse (len + (fuel + 1)) start _ len t rfl).len_le
    have hnow := hsame len (by omega) hle
    by_cases hacc : pulseAccepted cfg (pulse (start + len)) = true
    · cases hplace : tablePlace cfg (pulse (start + len)) t with
      | none => simp [classifyLoop, hnow, hacc, hplace]
      | some t' =>
        simp only [classifyLoop, hacc, hplace, ↓reduceIte] at hsame
        simpa [classifyLoop, hnow, hacc, hplace] using
          ih (len + 1) t' fun j hj => hsame j (by omega)
    · simp [classifyLoop, hnow, hacc]

end RunWalk

/-- Settles O35: the bounds hold of the empty table and every step of the walk keeps them; no pulse after
the end is looked at. -/
theorem classifierInvariants : Obligations.ClassifierInvariants := by
  intro cfg pulse cap start
  have htable := (classifyRun_walk (cfg := cfg) pulse cap start).tableOfRun (tableOfRun_empty cfg)
  exact ⟨classifyRun_len_le cfg pulse cap start, htable.samples_eq, htable.avg_within, htable.unit_within,
    fun _ hsame => classifyLoop_congr cap 0 _ fun j hj => hsame j (by omega)⟩

/-! The conversion (R194, R196). -/

section Conversion

variable {repCap u start count nb : Nat} {pulse : Nat → Pulse} {out : Desc} {m m' : List Host.Cell}

theorem reps_eq_repsSpec (repCap d u : Nat) : reps repCap d u = repsSpec repCap d u := by
  unfold reps repsSpec
  split <;> rfl

theorem bitStart_succ (repCap u : Nat) (pulse : Nat → Pulse) (start j : Nat) :
    bitStart repCap u pulse start (j + 1) =
      bitStart repCap u pulse start j + repsSpec repCap (pulse (start + j)).dur.toNat u :=
  Finset.sum_range_succ _ _

/-- A pulse's bits lie before those of the pulses after it. -/
theorem bitStart_add_lt {i r : Nat} (hi : i < count)
    (hr : r < repsSpec repCap (pulse (start + i)).dur.toNat u) :
    bitStart repCap u pulse start i + r < bitStart repCap u pulse start count :=
  calc bitStart repCap u pulse start i + r
    _ < bitStart repCap u pulse start (i + 1) := by rw [bitStart_succ]; omega
    _ ≤ bitStart repCap u pulse start count :=
      Finset.sum_le_sum_of_subset (Finset.range_subset_range.2 hi)

theorem bget_emitBits (v : Bool) {p : Nat} (n : Nat) : ∀ (pos : Nat) (m : List Host.Cell),
    bget (emitBits out v pos n m) out p =
      if pos ≤ p ∧ p < pos + n ∧ p < out.bits then v else bget m out p := by
  induction n with
  | zero =>
    intro pos m
    rw [if_neg (by omega), emitBits]
  | succ n ih =>
    intro pos m
    rw [emitBits, ih]
    by_cases hp : p = pos
    · subst hp
      by_cases hin : p < out.bits
      · rw [if_neg (by omega), if_pos (by omega), bget_bset_self hin]
      · rw [if_neg (by omega), if_neg (by omega), bset, if_neg hin]
    · rw [bget_bset_other hp]
      exact if_congr (by omega) rfl rfl

theorem emitBits_onlyBitsWritten (v : Bool) (n : Nat) : ∀ (pos : Nat) (m : List Host.Cell),
    OnlyBitsWritten out pos (pos + n) m (emitBits out v pos n m) := by
  induction n with
  | zero => exact fun pos m => .refl out pos m
  | succ n ih =>
    intro pos m
    have hrest := (ih (pos + 1) (bset m out pos v)).of_bset
    rwa [Nat.succ_add_eq_add_succ] at hrest

/-- The last pulse of a conversion comes after the others. -/
theorem toBitsLoop_succ (n : Nat) : ∀ (k pos : Nat) (m : List Host.Cell),
    toBitsLoop repCap u pulse out k (n + 1) pos m =
      (emitBits out (pulse (k + n)).level (toBitsLoop repCap u pulse out k n pos m).2
          (reps repCap (pulse (k + n)).dur.toNat u) (toBitsLoop repCap u pulse out k n pos m).1,
        (toBitsLoop repCap u pulse out k n pos m).2 + reps repCap (pulse (k + n)).dur.toNat u) := by
  induction n with
  | zero => exact fun _ _ _ => rfl
  | succ n ih =>
    intro k pos m
    rw [toBitsLoop, ih, Nat.succ_add_eq_add_succ]
    rfl

/-- One more pulse's bits after a conversion make a conversion of one pulse more. -/
theorem Converted.emit (hu : u ≠ 0) (h : Converted repCap u pulse start count out m m' nb) :
    Converted repCap u pulse start (count + 1) out m
      (emitBits out (pulse (start + count)).level nb (reps repCap (pulse (start + count)).dur.toNat u) m')
      (nb + reps repCap (pulse (start + count)).dur.toNat u) := by
  obtain ⟨-, hconv, hrest, hbytes⟩ := h
  obtain ⟨rfl, hbits⟩ := hconv hu
  rw [reps_eq_repsSpec]
  refine ⟨fun h0 => absurd h0 hu, fun _ => ⟨(bitStart_succ ..).symm, fun j hj r hr hin => ?_⟩,
    fun p hp => ?_, fun a ha => ?_⟩
  · rw [bget_emitBits]
    obtain rfl | hlt := (Nat.le_of_lt_succ hj).eq_or_lt
    · exact if_pos ⟨by omega, by omega, hin⟩
    · have hbefore := bitStart_add_lt hlt hr
      rw [if_neg (by omega), hbits j hlt r hr hin]
  · rw [bget_emitBits, if_neg (by omega), hrest p (by omega)]
  · rw [(emitBits_onlyBitsWritten _ _ _ _).keeps a fun p _ => ha p]
    exact hbytes a fun p hp => ha p (by omega)

theorem toBitsLoop_converted (hu : u ≠ 0) (count : Nat) :
    Converted repCap u pulse start count out m (toBitsLoop repCap u pulse out start count 0 m).1
      (toBitsLoop repCap u pulse out start count 0 m).2 := by
  induction count with
  | zero =>
    exact ⟨fun h0 => absurd h0 hu, fun _ => ⟨rfl, fun _ hj => absurd hj (Nat.not_lt_zero _)⟩,
      fun _ _ => rfl, fun _ _ => rfl⟩
  | succ n ih =>
    rw [toBitsLoop_succ]
    exact ih.emit hu

/-- The model's `ToBits` is the conversion of the rule. -/
theorem toBits_converted (repCap : Nat) (pulse : Nat → Pulse) (start count u : Nat) (out : Desc)
    (m : List Host.Cell) : Converted repCap u pulse start count out m
      (toBits repCap pulse start count u out m).1 (toBits repCap pulse start count u out m).2 := by
  unfold toBits
  split
  · exact ⟨fun _ => ⟨rfl, rfl⟩, fun hu => absurd ‹_› hu, fun _ _ => rfl, fun _ _ => rfl⟩
  · exact toBitsLoop_converted ‹_› count

end Conversion

theorem ifInRange_buf3 {s : State} (h : s.pe.latch.arg 3 + s.pe.latch.arg 4 ≤ s.params.bmemBytes)
    (t : State) : ifInRange [s.pe.latch.buf3] s t = .next t :=
  ifInRange_of_inRange (by simpa [Latch.buf3] using h)

/-- Settles O36: the command is the conversion between latch and results. -/
theorem pcTobitsConvertsThePulses : Obligations.PcTobitsConvertsThePulses := by
  intro s src h
  refine ⟨_, _, ?_, ifInRange_buf3 h _⟩
  cases src <;> exact toBits_converted _ _ _ _ _ _ _

end Sys2Proof.Machine
end

section
/-!
PROOFS. The steps of the scan sequencer, phase by phase, and the verdict write (O37 to O42; 44_scan.md). Each
statement is the equation of its phase, the branch its clause names, and what the walk, the unit, the
conversion or the memory write of that branch is already known to be.
-/

namespace Sys2Proof.Machine

/-! `PC.SCAN` in each phase (R211). -/

section Phases

variable {s : State}

theorem exec_pcScan_copy (h : s.sq.phase = .copy) : exec .pcScan s = .next s.scanCopy := by
  rw [exec, execPcScan, h]

theorem exec_pcScan_classify (h : s.sq.phase = .classify) : exec .pcScan s = .next s.scanClassify := by
  rw [exec, execPcScan, h]

theorem exec_pcScan_convert (h : s.sq.phase = .convert) :
    exec .pcScan s = ifInRange [s.sq.latch.window] s s.scanConvert := by
  rw [exec, execPcScan, h]

theorem exec_pcScan_update (h : s.sq.phase = .update) : exec .pcScan s = .next s.scanUpdate := by
  rw [exec, execPcScan, h]

theorem exec_pcScan_done (h : s.sq.phase = .done) : exec .pcScan s = .next s.scanDone := by
  rw [exec, execPcScan, h]

/-- Idle or waiting, the sequencer has no step (log 18). -/
theorem exec_pcScan_disabled (h : s.sq.phase = .wait ∨ s.sq.phase = .idle) :
    exec .pcScan s = .next s := by
  obtain h | h := h <;> rw [exec, execPcScan, h]

theorem ifInRange_window
    (h : s.sq.latch.cfg.winBase.toNat + s.sq.latch.cfg.winLen.toNat ≤ s.params.bmemBytes) (t : State) :
    ifInRange [s.sq.latch.window] s t = .next t :=
  ifInRange_of_inRange (by simpa [Latch.window] using h)

end Phases

/-- Settles O37: a slot copy is one write to the snapshot. -/
theorem scanCopyStep : Obligations.ScanCopyStep := fun s hph =>
  ⟨(s.copySlot s.sq.sampledW s.sq.copyIdx).snap, pulseRead_store_self _ _ _ _,
    fun _ hk => pulseRead_store_other _ _ _ hk,
    fun hmore => (exec_pcScan_copy hph).trans (congrArg _ (if_pos hmore)),
    fun hlast => (exec_pcScan_copy hph).trans (congrArg _ (if_neg (Nat.not_lt.2 hlast)))⟩

/-- Settles O38: the walk and the unit of the step are those of the rules, and the length picks its branch. -/
theorem scanClassifyStep : Obligations.ScanClassifyStep := fun s hph =>
  ⟨_, _, _, classifyRun_walk (s.pulseAt .snap) s.params.pulseCap s.sq.cursor, unitOf_isUnit _,
    fun hshort => (exec_pcScan_classify hph).trans (congrArg _ (if_pos hshort)),
    fun hlong => (exec_pcScan_classify hph).trans (congrArg _ (if_neg (Nat.not_lt.2 hlong)))⟩

/-! The window (R214). -/

theorem memRead_fillBytes (v : Byte) (a n : Nat) : ∀ (base : Nat) (m : List Host.Cell),
    memRead (fillBytes v base n m) a = if base ≤ a ∧ a < base + n then v else memRead m a := by
  induction n with
  | zero =>
    intro base m
    rw [if_neg (by omega), fillBytes]
  | succ n ih =>
    intro base m
    rw [fillBytes, ih, memRead_memWrite]
    by_cases ha : a = base
    · rw [if_neg (by omega), if_pos ha, if_pos (by omega)]
    · rw [if_neg ha]
      exact if_congr (by omega) rfl rfl

/-- Going back by `LOOKBACK` and forward by what its remainder leaves of `CAP` lead to the same slot. -/
theorem windowStart_eq_emod {cap : Nat} (hcap : 1 ≤ cap) (cursor lookback : Nat) :
    (windowStart cap cursor lookback : Int) = ((cursor : Int) - lookback) % cap := by
  have hle : lookback % cap ≤ cap := (Nat.mod_lt lookback hcap).le
  have hsplit : (lookback : Int) = cap * (lookback / cap : Nat) + (lookback % cap : Nat) := by
    exact_mod_cast (Nat.div_add_mod lookback cap).symm
  rw [windowStart]
  push_cast [Nat.cast_sub hle] at hsplit ⊢
  refine Int.ModEq.symm (Int.modEq_iff_dvd.2 ⟨lookback / cap + 1, ?_⟩)
  linarith

/-- Settles O39: the region is cleared and the run converted from the slot before it; `DEC_BYPASS` picks the
branch. -/
theorem scanConvertStep : Obligations.ScanConvertStep := by
  intro s hph hcap hwin
  have hexec : exec .pcScan s = .next s.scanConvert :=
    (exec_pcScan_convert hph).trans (ifInRange_window hwin _)
  refine ⟨_, _, _, _, fun a => memRead_fillBytes 0#8 a _ _ s.bmem, windowStart_eq_emod hcap _ _,
    toBits_converted _ (s.pulseAt .snap) _ _ _ _ _, fun hask => ?_, fun hbypass => ?_⟩
  · exact hexec.trans (congrArg _ (if_neg (by simp [hask])))
  · exact hexec.trans (congrArg _ (if_pos hbypass))

/-! The update (R219 to R221). -/

theorem better_iff (s : State) :
    s.better = true ↔ s.best.decoded = false ∧ (s.best.len.toNat < s.sq.len ∨ s.sq.vd = true) := by
  simp [State.better]

theorem pulseRead_tabulate (which : PulseMemory) {cap j : Nat} (f : Nat → Pulse) (h : j < cap) :
    pulseRead which (Memory.tabulate cap f) j = f j := by
  simp [pulseRead, h]

/-- Settles O40: `Better` picks the branch, and the replacement reads as the rotated snapshot. -/
theorem scanUpdateStep : Obligations.ScanUpdateStep := fun s hph =>
  ⟨_, s.replaceBest.det, rfl, fun _ hj => pulseRead_tabulate _ _ hj,
    fun hbetter => (exec_pcScan_update hph).trans (congrArg _ (if_pos ((better_iff s).2 hbetter))),
    fun hnot => (exec_pcScan_update hph).trans (congrArg _ (if_neg (mt (better_iff s).1 hnot)))⟩

/-- Settles O41: the equations of the three phases, the step of DONE being one record update. -/
theorem scanDoneAndDisabledSteps : Obligations.ScanDoneAndDisabledSteps := fun _ =>
  ⟨fun hdone => exec_pcScan_done hdone, exec_pcScan_disabled⟩

/-- Settles O42: the write reaches `DEC_VERDICT`, whose window is the test it makes. -/
theorem verdictOnlyInItsWindow : Obligations.VerdictOnlyInItsWindow := by
  intro s v
  rw [hostStep_write_reg s .decVerdict rfl]
  refine ⟨fun hwait hfree => congrArg _ (if_pos ?_), fun hnot => congrArg _ (if_neg ?_)⟩
  · simp [hwait, hfree]
  · simpa using hnot

end Sys2Proof.Machine
end

section
/-!
PROOFS. A bypassed scan ends (O43; 44_scan.md R218, R223). Every step of such a scan leaves fewer steps to
take, and the requests made never run ahead of the cursor.
-/

namespace Sys2Proof.Machine

/-! The bounds of a scan, phase by phase. -/

/-- The most steps that a bypassed scan has left (R223): the slots to copy, three steps for each cursor
position still ahead, and the DONE step. -/
def State.scanStepsLeft (s : State) : Nat :=
  match s.sq.phase with
  | .copy => s.params.pulseCap - s.sq.copyIdx + (3 * s.params.pulseCap + 1)
  | .classify => 3 * (s.params.pulseCap - s.sq.cursor) + 1
  | .convert => 3 * (s.params.pulseCap - s.sq.cursor)
  | .update => 3 * (s.params.pulseCap - s.sq.cursor) - 1
  | .done => 1
  | .wait => 0
  | .idle => 0

/-- The requests made so far by a bypassed scan, which never waits: at most one per cursor position left
behind, and one at the cursor once the window is built. -/
def State.RequestsBounded (s : State) : Prop :=
  match s.sq.phase with
  | .copy => s.sq.nreq = 0
  | .classify => s.sq.nreq ≤ s.sq.cursor
  | .convert => s.sq.nreq ≤ s.sq.cursor
  | .update => s.sq.nreq ≤ s.sq.cursor + 1
  | .done => s.sq.nreq ≤ s.params.pulseCap
  | .wait => False
  | .idle => False

/-- A scan that answers its own requests, with no other agent scheduled. -/
structure BypassedScan (s : State) : Prop where
  inv : Inv s
  unscheduled : s.schedule = []
  bypass : s.sq.latch.cfg.decBypass = true
  requests : s.RequestsBounded

/-- What a scan reports when it has ended (R222, R223). -/
structure ScanReported (s : State) : Prop where
  idle : s.sq.phase = .idle
  requests_le : s.result0.toNat ≤ s.params.pulseCap
  cursor_ge : s.params.pulseCap ≤ s.scanCur.toNat
  cursor_lt : s.scanCur.toNat < 2 * s.params.pulseCap

section Bounds

variable {s t : State}

/-- Wherever the cursor has moved, at most three steps per position ahead of it are left, and DONE. -/
theorem scanStepsLeft_of_phaseAt (hp : s.sq.phase = phaseAt s.params.pulseCap s.sq.cursor) :
    s.scanStepsLeft = 3 * (s.params.pulseCap - s.sq.cursor) + 1 := by
  unfold phaseAt at hp
  split at hp
  · rw [State.scanStepsLeft, hp]
    dsimp only
    omega
  · rw [State.scanStepsLeft, hp]

theorem requestsBounded_of_phaseAt (hp : s.sq.phase = phaseAt s.params.pulseCap s.sq.cursor)
    (hcursor : s.sq.nreq ≤ s.sq.cursor) (hcap : s.sq.nreq ≤ s.params.pulseCap) : s.RequestsBounded := by
  unfold phaseAt at hp
  split at hp
  · rwa [State.RequestsBounded, hp]
  · rwa [State.RequestsBounded, hp]

/-! The steps of a bypassed scan. -/

namespace BypassedScan

theorem sqEnabled (h : BypassedScan s) : s.sqEnabled = true := by
  have hreq := h.requests
  rw [sqEnabled_iff]
  constructor
  · intro hidle
    rwa [State.RequestsBounded, hidle] at hreq
  · intro hwait
    rwa [State.RequestsBounded, hwait] at hreq

/-- With nothing scheduled the sequencer takes the next step. -/
theorem step_eq (h : BypassedScan s) : step s = exec .pcScan s := by
  have he := h.sqEnabled
  obtain ⟨hword, -⟩ := h.inv.sqLegal.latched (sqEnabled_iff.1 he).1
  exact ((stepRunsLatchedCommand s .pcScan).2 he hword).1 (h.inv.not_pending he) h.unscheduled

/-- A step of the scan leads to a bypassed scan again, or to the report, with fewer steps left. -/
def Advances (s t : State) : Prop :=
  step s = .next t ∧ t.scanStepsLeft < s.scanStepsLeft ∧ t.params = s.params ∧
    (BypassedScan t ∨ ScanReported t)

/-- A step that leaves schedule and latch alone, fewer steps to take and its requests bounded. -/
theorem advances_of_exec (h : BypassedScan s) (hx : exec .pcScan s = .next t)
    (hsched : t.schedule = s.schedule) (hlatch : t.sq.latch = s.sq.latch)
    (hleft : t.scanStepsLeft < s.scanStepsLeft) (hreq : t.RequestsBounded) : Advances s t := by
  have hstep : step s = .next t := h.step_eq.trans hx
  obtain ⟨hinv, hparams⟩ := step_keepsInv h.inv hstep
  exact ⟨hstep, hleft, hparams,
    .inl ⟨hinv, hsched.trans h.unscheduled, hlatch ▸ h.bypass, hreq⟩⟩

/-- A COPY step leaves one slot fewer, the last one the whole snapshot to classify (R212). -/
theorem advances_of_copy (h : BypassedScan s) (hph : s.sq.phase = .copy) : ∃ t, Advances s t := by
  obtain ⟨m, -, -, hmore, hlast⟩ := scanCopyStep s hph
  have hslot := h.inv.sqLegal.copyIdx_lt hph
  have hreq : s.sq.nreq = 0 := by simpa [State.RequestsBounded, hph] using h.requests
  obtain hlt | hge := Nat.lt_or_ge (s.sq.copyIdx + 1) s.params.pulseCap
  · refine ⟨_, h.advances_of_exec (hmore hlt) rfl rfl ?_ ?_⟩
    · simp only [State.scanStepsLeft, hph]
      omega
    · simpa [State.RequestsBounded, hph] using hreq
  · refine ⟨_, h.advances_of_exec (hlast hge) rfl rfl ?_ ?_⟩
    · simp only [State.scanStepsLeft, hph]
      omega
    · simp [State.RequestsBounded, hreq]

/-- A CLASSIFY step goes on to CONVERT at its position, or skips a short run (R213). -/
theorem advances_of_classify (h : BypassedScan s) (hph : s.sq.phase = .classify) : ∃ t, Advances s t := by
  obtain ⟨len, u, tbl, -, -, hshort, hlong⟩ := scanClassifyStep s hph
  have hcur := h.inv.sqLegal.cursor_lt (.inl hph)
  have hreq : s.sq.nreq ≤ s.sq.cursor := by simpa [State.RequestsBounded, hph] using h.requests
  obtain hlt | hge := Nat.lt_or_ge len s.sq.latch.cfg.minRun.toNat
  · refine ⟨_, h.advances_of_exec (hshort hlt) rfl rfl ?_ ?_⟩
    · rw [scanStepsLeft_of_phaseAt rfl]
      simp only [State.scanStepsLeft, hph]
      omega
    · exact requestsBounded_of_phaseAt rfl (hreq.trans (Nat.le_succ _)) (hreq.trans hcur.le)
  · refine ⟨_, h.advances_of_exec (hlong hge) rfl rfl ?_ hreq⟩
    simp only [State.scanStepsLeft, hph]
    omega

/-- A CONVERT step makes one request and answers it (R218). -/
theorem advances_of_convert (h : BypassedScan s) (hph : s.sq.phase = .convert) : ∃ t, Advances s t := by
  obtain ⟨-, hwin, -⟩ := h.inv.sqLegal.latched (by simp [hph])
  obtain ⟨_, m, _, nb, -, -, -, -, hbypass⟩ := scanConvertStep s hph h.inv.pulseCap_pos
    ((Desc.inRange_iff _ _).1 (inRange_single hwin))
  have hcur := h.inv.sqLegal.cursor_lt (.inr (.inl hph))
  have hreq : s.sq.nreq ≤ s.sq.cursor := by simpa [State.RequestsBounded, hph] using h.requests
  refine ⟨_, h.advances_of_exec (hbypass h.bypass) rfl rfl ?_ (Nat.succ_le_succ hreq)⟩
  simp only [State.scanStepsLeft, hph]
  omega

/-- An UPDATE step moves the cursor on by at least 1, past the request it made (R221, R223). -/
theorem advances_of_update (h : BypassedScan s) (hph : s.sq.phase = .update) : ∃ t, Advances s t := by
  obtain ⟨q, d, hq, -, hreplace, hkeep⟩ := scanUpdateStep s hph
  have hcur := h.inv.sqLegal.cursor_lt (.inr (.inr (.inr hph)))
  have hreq : s.sq.nreq ≤ s.sq.cursor + 1 := by simpa [State.RequestsBounded, hph] using h.requests
  have hmoved : s.sq.cursor + 1 ≤ s.sq.cursor + max s.sq.len 1 := by omega
  have hleft : 3 * (s.params.pulseCap - (s.sq.cursor + max s.sq.len 1)) + 1 < s.scanStepsLeft := by
    simp only [State.scanStepsLeft, hph]
    omega
  subst hq
  by_cases hbetter : s.best.decoded = false ∧ (s.best.len.toNat < s.sq.len ∨ s.sq.vd = true)
  · exact ⟨_, h.advances_of_exec (hreplace hbetter) rfl rfl
      ((scanStepsLeft_of_phaseAt rfl).trans_lt hleft)
      (requestsBounded_of_phaseAt rfl (hreq.trans hmoved) (hreq.trans hcur))⟩
  · exact ⟨_, h.advances_of_exec (hkeep hbetter) rfl rfl
      ((scanStepsLeft_of_phaseAt rfl).trans_lt hleft)
      (requestsBounded_of_phaseAt rfl (hreq.trans hmoved) (hreq.trans hcur))⟩

/-- The DONE step reports the requests and the cursor, which fit in their registers (R222). -/
theorem advances_of_done (h : BypassedScan s) (hph : s.sq.phase = .done) : ∃ t, Advances s t := by
  have hreq : s.sq.nreq ≤ s.params.pulseCap := by simpa [State.RequestsBounded, hph] using h.requests
  obtain ⟨-, -, -, -, hdone⟩ := h.inv.sqLegal (by simp [hph])
  obtain ⟨hlo, hhi⟩ := hdone hph
  obtain ⟨⟨⟨-, hcap⟩, -⟩, -⟩ := h.inv
  unfold Config.maxPulseCap at hcap
  have hcursor : (BitVec.ofNat 32 s.sq.cursor).toNat = s.sq.cursor := Nat.mod_eq_of_lt (by omega)
  refine ⟨_, h.step_eq.trans ((scanDoneAndDisabledSteps s).1 hph), ?_, rfl, .inr ⟨rfl, ?_, ?_, ?_⟩⟩
  · simp [State.scanStepsLeft, hph]
  · exact (Nat.mod_le _ _).trans hreq
  · exact hlo.trans_eq hcursor.symm
  · exact hcursor.trans_lt hhi

theorem advances (h : BypassedScan s) : ∃ t, Advances s t := by
  have he := sqEnabled_iff.1 h.sqEnabled
  cases hph : s.sq.phase with
  | idle => exact absurd hph he.1
  | copy => exact h.advances_of_copy hph
  | classify => exact h.advances_of_classify hph
  | convert => exact h.advances_of_convert hph
  | wait => exact absurd hph he.2
  | update => exact h.advances_of_update hph
  | done => exact h.advances_of_done hph

/-- A scan with at most `n` steps left reports within `n` steps. -/
theorem ends (n : Nat) : ∀ s, BypassedScan s → s.scanStepsLeft ≤ n →
    ∃ k t, k ≤ n ∧ stepN k s = .next t ∧ t.params = s.params ∧ ScanReported t := by
  induction n with
  | zero =>
    intro s h hn
    obtain ⟨t, -, hleft, -⟩ := h.advances
    omega
  | succ n ih =>
    intro s h hn
    obtain ⟨t, hstep, hleft, hparams, hscan | hend⟩ := h.advances
    · obtain ⟨k, u, hk, hrun, hkept, hend⟩ := ih t hscan (by omega)
      exact ⟨k + 1, u, by omega, (stepN_succ_of_next hstep k).trans hrun, hkept.trans hparams, hend⟩
    · exact ⟨1, t, by omega, stepN_succ_of_next hstep 0, hparams, hend⟩

end BypassedScan

end Bounds

/-- Settles O43: at its start the scan has `CAP` slots to copy, `CAP` positions ahead and DONE. -/
theorem bypassedScanEnds : Obligations.BypassedScanEnds := by
  intro s hinv hsched _ hph hcopy hreq hbypass
  have hscan : BypassedScan s := ⟨hinv, hsched, hbypass, by simpa [State.RequestsBounded, hph] using hreq⟩
  obtain ⟨n, t, hn, hrun, hparams, hend⟩ :=
    hscan.ends (4 * s.params.pulseCap + 1) s (by simp only [State.scanStepsLeft, hph]; omega)
  rw [← hparams]
  exact ⟨n, t, hparams ▸ hn, hrun, hend.idle, hend.requests_le, hend.cursor_ge, hend.cursor_lt⟩

end Sys2Proof.Machine
end

section
/-!
PROOFS. The held best (O44 to O46; 44_scan.md R219, R224, R226). `Det` is the snapshot turned so that the run
stands first, so reading it from an index is reading the snapshot from the run's start on; a classification
and a conversion depend only on the pulses they read. A decoded best is never a worse one.
-/

namespace Sys2Proof.Machine

/-! The snapshot turned to the run's start (R220). -/

section Rotation

variable {cap cursor : Nat} {det snap : List (Nat × Pulse)}

/-- Reading the turned snapshot at a logical index is reading the snapshot that far past the cursor. -/
theorem pulsesOf_det_of_rotated (hcap : 1 ≤ cap)
    (hrot : ∀ j, j < cap → pulseRead .det det j = pulseRead .snap snap ((cursor + j) % cap)) (k : Nat) :
    pulsesOf .det det cap k = pulsesOf .snap snap cap (cursor + k) := by
  rw [pulsesOf, hrot _ (Nat.mod_lt k hcap), Nat.add_mod_mod, pulsesOf]

theorem pulsesOf_mod_add (which : PulseMemory) (m : List (Nat × Pulse)) (cap k j : Nat) :
    pulsesOf which m cap (k % cap + j) = pulsesOf which m cap (k + j) := by
  rw [pulsesOf, Nat.mod_add_mod, pulsesOf]

end Rotation

/-! Classification again (R187, R189, R224). -/

section Reclassify

variable {cfg : ConfigRegs} {pulse pulse' : Nat → Pulse} {cap start start' len len' : Nat}
  {t t' : ClassTable Nat} {p : Pulse} {level : Bool}

/-- The walk looks at nothing but the pulses from its start on. -/
theorem classifyLoop_shift (hsame : ∀ j, pulse' (start' + j) = pulse (start + j)) (fuel : Nat) :
    ∀ (len : Nat) (t : ClassTable Nat),
      classifyLoop cfg pulse' start' fuel len t = classifyLoop cfg pulse start fuel len t := by
  induction fuel with
  | zero => exact fun _ _ => rfl
  | succ fuel ih =>
    intro len t
    simp only [classifyLoop, hsame, ih]

theorem tablePlace_of_all_passed (h : ∀ k : Fin 3, Passed cfg p.dur.toNat (t.slot p.level k)) :
    tablePlace cfg p t = none := by
  obtain ⟨-, hnone⟩ | ⟨k, -, hk, -⟩ := tablePlace_cases cfg p t
  · exact hnone
  · exact absurd (h k) hk

/-- The lowest class that does not pass the pulse is the one that takes it. -/
theorem tablePlace_of_lowest {k : Fin 3} (hlow : ∀ k' < k, Passed cfg p.dur.toNat (t.slot p.level k'))
    (hk : ¬ Passed cfg p.dur.toNat (t.slot p.level k)) :
    tablePlace cfg p t = some (t.setSlot p.level k (slotJoin p.dur.toNat (t.slot p.level k))) := by
  obtain ⟨hall, -⟩ | ⟨j, hlow', hj, hsome⟩ := tablePlace_cases cfg p t
  · exact absurd (hall k) hk
  · obtain hlt | rfl | hgt := lt_trichotomy j k
    · exact absurd (hlow j hlt) hj
    · exact hsome
    · exact absurd (hlow' k hgt) hk

/-- The run walk of the rule has one end: the one the model's loop finds with what is left of `CAP`. -/
theorem ClassWalk.eq_classifyLoop (h : ClassWalk cfg pulse cap start len t len' t') :
    ∀ fuel, len + fuel = cap → classifyLoop cfg pulse start fuel len t = (len', t') := by
  induction h with
  | full hcap =>
    intro fuel hfuel
    obtain rfl : fuel = 0 := by omega
    rfl
  | rejected hlen hrej =>
    intro fuel hfuel
    obtain ⟨n, rfl⟩ := Nat.exists_eq_add_one.2 (show 0 < fuel by omega)
    simp [classifyLoop, mt (pulseAccepted_iff _).1 (not_not.2 hrej)]
  | noClass hlen hacc hall =>
    intro fuel hfuel
    obtain ⟨n, rfl⟩ := Nat.exists_eq_add_one.2 (show 0 < fuel by omega)
    simp [classifyLoop, (pulseAccepted_iff _).2 hacc, tablePlace_of_all_passed hall]
  | opened k hlen hacc hlow hfree _ ih =>
    intro fuel hfuel
    obtain ⟨n, rfl⟩ := Nat.exists_eq_add_one.2 (show 0 < fuel by omega)
    have hplace := tablePlace_of_lowest hlow (fun hpass => hpass.1 hfree)
    rw [slotJoin, if_pos hfree] at hplace
    simpa [classifyLoop, (pulseAccepted_iff _).2 hacc, hplace] using ih n (by omega)
  | joined k sl hlen hacc hlow hsl hcnt hnear _ ih =>
    intro fuel hfuel
    obtain ⟨n, rfl⟩ := Nat.exists_eq_add_one.2 (show 0 < fuel by omega)
    have hplace := tablePlace_of_lowest hlow (fun hpass => hpass.2 (hsl ▸ hnear))
    rw [hsl, slotJoin, if_neg hcnt] at hplace
    simpa [classifyLoop, (pulseAccepted_iff _).2 hacc, hplace] using ih n (by omega)

theorem ClassWalk.eq_classifyRun (h : ClassWalk cfg pulse cap start 0 (ClassTable.empty 0) len' t') :
    classifyRun cfg pulse cap start = (len', t') :=
  h.eq_classifyLoop cap (Nat.zero_add cap)

/-- A level has one least average (R189). -/
theorem levelLeast_unique {a b : Option Nat} (ha : LevelLeast cfg t level a)
    (hb : LevelLeast cfg t level b) : a = b := by
  cases a with
  | none =>
    cases b with
    | none => rfl
    | some w =>
      obtain ⟨⟨k, hk, -⟩, -⟩ := hb
      exact absurd hk (ha k)
  | some v =>
    obtain ⟨⟨k, hk, hv⟩, hle⟩ := ha
    cases b with
    | none => exact absurd hk (hb k)
    | some w =>
      obtain ⟨⟨k', hk', hw⟩, hle'⟩ := hb
      exact congrArg some (le_antisymm (hw ▸ hle k' hk') (hv ▸ hle' k hk))

/-- The unit of the rule is the one the model computes. -/
theorem IsUnit.eq_unitOf {u : Nat} (h : IsUnit cfg t u) : u = unitOf cfg t := by
  obtain ⟨a, b, ha, hb, rfl⟩ := h
  obtain ⟨a', b', ha', hb', heq⟩ := unitOf_isUnit (cfg := cfg) t
  rw [heq, levelLeast_unique ha ha', levelLeast_unique hb hb']

end Reclassify

/-- Settles O44: `Det` read from 0 is the snapshot read from the cursor, and walk and unit are functions of
what is read. -/
theorem heldBestReclassifies : Obligations.HeldBestReclassifies := by
  intro s t r tbl hcap hph hwalk hunit hdec hbetter hx hparams hdet hcfg harg
  obtain ⟨q, d, -, hrot, hreplace, -⟩ := scanUpdateStep s hph
  obtain rfl := Host.Outcome.next.inj ((hreplace ⟨hdec, hbetter⟩).symm.trans hx)
  replace hparams : r.params = s.params := hparams
  replace hdet : r.det = d := hdet
  have hpulse (j : Nat) : r.pulseAt .det (0 + j) =
      pulsesOf .snap s.snap s.params.pulseCap (s.sq.cursor + j) := by
    rw [← pulsesOf_det_of_rotated hcap hrot j, Nat.zero_add, ← hdet, ← hparams]
    rfl
  have hrun : classifyRun s.sq.latch.cfg (r.pulseAt .det) s.params.pulseCap 0 = (s.sq.len, tbl) :=
    (classifyLoop_shift hpulse _ _ _).trans hwalk.eq_classifyRun
  refine ⟨_, rfl, ?_, ?_⟩
  · simp [hcfg, hparams, harg, hrun]
  · simp [hcfg, hparams, harg, hrun, hunit.eq_unitOf]

/-! Conversion again (R196, R224). -/

section Reconvert

variable {repCap u : Nat} {pulse pulse' : Nat → Pulse} {start start' : Nat} {out : Desc}
  {m m' : List Host.Cell}

/-- A conversion looks at nothing but its pulses: on buffers that read alike it writes the same bits, and
counts as many. -/
theorem toBitsLoop_shift (hsame : ∀ j, pulse' (start' + j) = pulse (start + j))
    (hout : ∀ p, bget m' out p = bget m out p) (n : Nat) :
    (toBitsLoop repCap u pulse' out start' n 0 m').2 = (toBitsLoop repCap u pulse out start n 0 m).2 ∧
      ∀ p, bget (toBitsLoop repCap u pulse' out start' n 0 m').1 out p =
        bget (toBitsLoop repCap u pulse out start n 0 m).1 out p := by
  induction n with
  | zero => exact ⟨rfl, hout⟩
  | succ n ih =>
    obtain ⟨hcount, hbits⟩ := ih
    rw [toBitsLoop_succ, toBitsLoop_succ, hsame, hcount]
    exact ⟨rfl, fun p => by rw [bget_emitBits, bget_emitBits, hbits]⟩

theorem toBits_shift (hsame : ∀ j, pulse' (start' + j) = pulse (start + j))
    (hout : ∀ p, bget m' out p = bget m out p) (count : Nat) :
    (toBits repCap pulse' start' count u out m').2 = (toBits repCap pulse start count u out m).2 ∧
      ∀ p, bget (toBits repCap pulse' start' count u out m').1 out p =
        bget (toBits repCap pulse start count u out m).1 out p := by
  unfold toBits
  split
  · exact ⟨rfl, hout⟩
  · exact toBitsLoop_shift hsame hout count

/-- A region of zero bytes reads 0 everywhere. -/
theorem bget_fillBytes_zero (d : Desc) (m : List Host.Cell) (p : Nat) :
    bget (fillBytes 0#8 d.base d.len m) d p = false := by
  by_cases hp : p < d.bits
  · have hbyte : p / 8 < d.len := by
      rw [Desc.bits] at hp
      omega
    rw [bget_of_lt hp, memRead_fillBytes, if_pos (by omega)]
    exact BitVec.getLsbD_zero
  · exact bget_of_le (Nat.le_of_not_lt hp)

end Reconvert

theorem scanConvert_bmem (s : State) : s.scanConvert.bmem = s.scanWindow.1 := by
  unfold State.scanConvert; split <;> rfl

theorem scanConvert_nb (s : State) : s.scanConvert.sq.nb = s.scanWindow.2 := by
  unfold State.scanConvert; split <;> rfl

/-- Settles O45: the window starts `LOOKBACK` slots before the cursor in the snapshot, and before slot 0 in
`Det`: both conversions read the same pulses. -/
theorem heldBestRebuildsItsWindow : Obligations.HeldBestRebuildsItsWindow := by
  intro s t r hcap hph hx hparams hrot hrep hstart hcount hunit hbase hlen hclear
  obtain ⟨hwin, rfl⟩ := ifInRange_next ((exec_pcScan_convert hph).symm.trans hx)
  have hout : r.pe.latch.buf3 = s.sq.latch.window := by
    rw [Latch.buf3, hbase, hlen, Latch.window]
  have hpulse (j : Nat) : r.pulseAt .det (r.pe.latch.arg 0 + j) = s.pulseAt .snap
      (windowStart s.params.pulseCap s.sq.cursor s.sq.latch.cfg.lookback.toNat + j) :=
    calc pulsesOf .det r.det r.params.pulseCap (r.pe.latch.arg 0 + j)
      _ = pulsesOf .det r.det s.params.pulseCap
          (s.params.pulseCap - s.sq.latch.cfg.lookback.toNat % s.params.pulseCap + j) := by
        rw [hparams, hstart, pulsesOf_mod_add]
      _ = pulsesOf .snap s.snap s.params.pulseCap (s.sq.cursor +
          (s.params.pulseCap - s.sq.latch.cfg.lookback.toNat % s.params.pulseCap) + j) := by
        rw [pulsesOf_det_of_rotated hcap hrot, Nat.add_assoc]
      _ = pulsesOf .snap s.snap s.params.pulseCap
          (windowStart s.params.pulseCap s.sq.cursor s.sq.latch.cfg.lookback.toNat + j) := by
        rw [windowStart, pulsesOf_mod_add]
  have hcleared (p : Nat) : bget r.bmem s.sq.latch.window p = bget
      (fillBytes 0#8 s.sq.latch.window.base s.sq.latch.window.len s.bmem) s.sq.latch.window p :=
    (hclear p).trans (bget_fillBytes_zero _ _ _).symm
  obtain ⟨hnb, hbits⟩ := toBits_shift (repCap := s.sq.latch.cfg.repCap.toNat) (u := s.sq.unit) hpulse
    hcleared (s.sq.latch.cfg.lookback.toNat + s.sq.len + s.sq.latch.cfg.lookahead.toNat)
  refine ⟨_, ifInRange_of_inRange (by rwa [hout, hparams]), ?_, fun p => ?_⟩
  · rw [scanConvert_nb]
    simp only [State.completePe_result0, State.setResult0_result0, hrep, hcount, hunit, hout]
    exact congrArg sat32 hnb
  · rw [scanConvert_bmem]
    simp only [State.completePe_bmem, State.setResult0_bmem, State.setBmem_bmem, hrep, hcount, hunit, hout]
    exact hbits p

/-! A decoded best (R219, R225, R226). -/

section DecodedBest

variable {s t : State}

theorem scanCopy_best (s : State) : s.scanCopy.best = s.best := by
  unfold State.scanCopy; split <;> rfl

theorem scanClassify_best (s : State) : s.scanClassify.best = s.best := by
  unfold State.scanClassify; dsimp only; split <;> rfl

theorem scanConvert_best (s : State) : s.scanConvert.best = s.best := by
  unfold State.scanConvert; split <;> rfl

/-- No command replaces a decoded best: only an UPDATE step writes it, and no candidate is better. -/
theorem exec_best_of_decoded {i : Instr} (hdec : s.best.decoded = true) (hx : exec i s = .next t) :
    t.best = s.best := by
  cases i with
  | pcSnap =>
    rw [exec, execPcSnap] at hx
    split at hx <;> cases hx <;> rfl
  | pcClassify src => cases hx; rfl
  | pcScan =>
    cases hph : s.sq.phase with
    | idle => cases (exec_pcScan_disabled (.inr hph)).symm.trans hx; rfl
    | copy =>
      cases (exec_pcScan_copy hph).symm.trans hx
      exact scanCopy_best s
    | classify =>
      cases (exec_pcScan_classify hph).symm.trans hx
      exact scanClassify_best s
    | convert =>
      obtain ⟨-, rfl⟩ := ifInRange_next ((exec_pcScan_convert hph).symm.trans hx)
      exact scanConvert_best s
    | wait => cases (exec_pcScan_disabled (.inl hph)).symm.trans hx; rfl
    | update =>
      obtain ⟨q, d, -, -, -, hkeep⟩ := scanUpdateStep s hph
      cases (hkeep (by simp [hdec])).symm.trans hx
      rfl
    | done => cases (exec_pcScan_done hph).symm.trans hx; rfl
  | _ =>
    obtain ⟨-, rfl⟩ := ifInRange_next hx
    rfl

theorem runLatched_next {word : Word} (hx : runLatched word s = .next t) : ∃ i, exec i s = .next t := by
  obtain ⟨i, -, hrun⟩ | ⟨e, -, hrun⟩ := runLatched_cases word s
  · exact ⟨i, hrun.symm.trans hx⟩
  · cases hrun.symm.trans hx

/-- An engine's turn that goes on is a command's step, or nothing happens. -/
theorem peTurn_next (hx : peTurn s = .next t) : t = s ∨ ∃ i, exec i s = .next t := by
  unfold peTurn at hx
  split at hx
  · exact .inr (runLatched_next hx)
  · exact .inl (Host.Outcome.next.inj hx).symm

theorem sqTurn_next (hx : sqTurn s = .next t) : t = s ∨ ∃ i, exec i s = .next t := by
  unfold sqTurn at hx
  split at hx
  · exact .inr (runLatched_next hx)
  · exact .inl (Host.Outcome.next.inj hx).symm

theorem engineTurn_next (hx : engineTurn s = .next t) : t = s ∨ ∃ i, exec i s = .next t := by
  unfold engineTurn at hx
  split at hx
  · exact peTurn_next hx
  · exact sqTurn_next hx

theorem best_of_turn (hdec : s.best.decoded = true) (hx : t = s ∨ ∃ i, exec i s = .next t) :
    t.best = s.best := by
  obtain rfl | ⟨i, hx⟩ := hx
  · rfl
  · exact exec_best_of_decoded hdec hx

theorem issue_best (s : State) (x : Word) : (s.issue x).best = s.best := by
  obtain ⟨code, -, hrej⟩ | ⟨i, -, hacc⟩ := issue_cases s x
  · rw [hrej, State.reject_best]
  · rw [hacc]
    cases i <;> rfl

theorem writeVerdict_best (s : State) (v : Word) : (s.writeVerdict v).best = s.best := by
  obtain ⟨-, -, hw⟩ | hw := writeVerdict_cases s v
  · rw [hw]
  · rw [hw, State.overrun, State.raise_best]

/-- A write to `CTRL` with neither `CLR_BEST` nor `SOFT_RST` keeps the held best (R22, R225). -/
theorem writeCtrl_best (hclr : v.getLsbD 0 = false) (hrst : v.getLsbD 1 = false) :
    (s.writeCtrl v).best = s.best := by
  obtain ⟨h, -⟩ | ⟨u, rfl, hw | hw | ⟨-, -, hw⟩⟩ := writeCtrl_cases s v
  · cases hrst.symm.trans h
  · rw [hw]
  · rw [hw]
    rfl
  · rw [hw, ctrlActions_eq, hclr]
    rfl

/-- Of the registers, only `CTRL` can change the held best. -/
theorem writeReg_best (v : Word) {r : Reg} (hr : r ≠ .ctrl) : (writeReg s v r).best = s.best := by
  cases r with
  | ctrl => exact absurd rfl hr
  | cmd => exact issue_best s v
  | decVerdict => exact writeVerdict_best s v
  | _ => rfl

theorem writeTarget_best (v : Word) {g : Target} (hg : g ≠ .reg .ctrl) :
    (writeTarget s v g).best = s.best := by
  cases g with
  | reg r => exact writeReg_best v (fun h => hg (h ▸ rfl))
  | bmem a =>
    rw [writeTarget]
    split <;> rfl
  | snap j half => rfl
  | det j half => rfl
  | unmapped => rfl

/-- An offset that names a register is that register's (R20). -/
theorem offset_of_targetAt_reg {p : Params} {o : Nat} {r : Reg} (h : targetAt p o = .reg r) :
    r.offset = o := by
  unfold targetAt at h
  split at h
  · cases hr : Reg.ofOffset o with rw [hr] at h
    | none => cases h
    | some r' =>
      cases h
      simpa using List.find?_some hr
  · split_ifs at h

/-- A write that changes the held best goes to `CTRL` with `CLR_BEST` or `SOFT_RST` set. -/
theorem writeTarget_best_or_ctrl (s : State) (o : BitVec 22) (v : Word) :
    (writeTarget s v (targetAt s.params o.toNat)).best = s.best ∨
      o = 0x004#22 ∧ (v.getLsbD 0 = true ∨ v.getLsbD 1 = true) := by
  by_cases hg : targetAt s.params o.toNat = .reg .ctrl
  · have ho : o = 0x004#22 := BitVec.eq_of_toNat_eq (offset_of_targetAt_reg hg).symm
    by_cases hact : v.getLsbD 0 = true ∨ v.getLsbD 1 = true
    · exact .inr ⟨ho, hact⟩
    · obtain ⟨hclr, hrst⟩ := not_or.1 hact
      rw [hg]
      exact .inl (writeCtrl_best (Bool.eq_false_iff.2 hclr) (Bool.eq_false_iff.2 hrst))
  · exact .inl (writeTarget_best v hg)

end DecodedBest

/-- Settles O46: whoever takes the turn, only a write can change a decoded best, and of these only one to
`CTRL`. -/
theorem decodedBestStaysUntilCleared : Obligations.DecodedBestStaysUntilCleared := by
  intro s t hdec hx
  obtain ⟨-, hturn⟩ | ⟨op, rest, hs, hturn⟩ | ⟨p, rest, -, hturn⟩ | ⟨rest, -, hturn⟩ | ⟨rest, -, hturn⟩ |
    ⟨rest, -, hturn | hturn⟩ := step_cases s
  · exact .inl (best_of_turn hdec (engineTurn_next (hturn.symm.trans hx)))
  · obtain ⟨o, -, -, rfl⟩ | ⟨o, v, rfl, -, rfl⟩ := hostStep_next (hturn.symm.trans hx)
    · rw [hostRead_frame]
      exact .inl rfl
    · obtain hkept | ⟨rfl, hact⟩ := writeTarget_best_or_ctrl { s with schedule := rest } o v
      · exact .inl hkept
      · exact .inr ⟨v, rest, hs, hact⟩
  · cases hturn.symm.trans hx
    exact .inl rfl
  · exact .inl (best_of_turn (s := { s with schedule := rest }) hdec (peTurn_next (hturn.symm.trans hx)))
  · exact .inl (best_of_turn (s := { s with schedule := rest }) hdec (sqTurn_next (hturn.symm.trans hx)))
  · cases hturn.symm.trans hx
    exact .inl rfl
  · exact .inl (best_of_turn hdec (engineTurn_next (hturn.symm.trans hx)))

end Sys2Proof.Machine
end

section
/-!
PROOFS. The report of a `CMD` write and the interrupt output (O6, O7, O58; 60_exceptions.md R240 to R248).
A word is refused at the first check of R242 that fails: busy, its class (O4), the scan conflict, the
descriptors. The last two tests are on the command, which the opcode byte determines.
-/

namespace Sys2Proof.Machine

open Sys2Proof.Laws (opcodeOf)

section Issue

variable {s : State} {w : Word} {i : Instr}

/-! The checks, in the order of R242. -/

theorem issueCheck_of_busy (hb : s.busy = true) : issueCheck s w = .error .busy := if_pos hb

theorem issueCheck_of_conflict (hb : s.busy = false) (hd : decode w = .ok i)
    (hc : conflictsWithScan i = true ∧ s.scanning = true) : issueCheck s w = .error .scanConflict := by
  simp [issueCheck, hb, hd, hc]

theorem issueCheck_of_no_conflict (hb : s.busy = false) (hd : decode w = .ok i)
    (hc : ¬ (conflictsWithScan i = true ∧ s.scanning = true)) :
    issueCheck s w = if inRange (descriptors i (Latch.capture s w)) s.params.bmemBytes = true then .ok i
      else .error .bufferRange := by
  rw [← Bool.and_eq_true] at hc
  simp [issueCheck, hb, hd, hc]

/-! The tests on the command, read off the opcode byte. -/

theorem conflictsWithScan_iff_of_opcode (hop : w.toNat % 256 = (opcodeOf i).toNat) :
    conflictsWithScan i = true ↔ w.toNat % 256 = 0x40 ∨ w.toNat % 256 = 0x43 := by
  rw [hop]
  cases i <;> simp [conflictsWithScan, opcodeOf]

/-- The descriptors a command names are those of its row in the operand table (R96, R112). -/
theorem descriptorOutside_iff_of_opcode (hop : w.toNat % 256 = (opcodeOf i).toNat) :
    DescriptorOutside s w ↔ ¬ inRange (descriptors i (Latch.capture s w)) s.params.bmemBytes = true := by
  unfold DescriptorOutside
  rw [hop]
  cases i <;>
    simp [opcodeOf, descriptors, Latch.buf0, Latch.buf3, Latch.window, Latch.arg, Latch.capture,
      or_iff_not_imp_left]

/-! The code that is reported (R240, R241). -/

theorem issue_errCode_of_error {code : ErrCode} (h : issueCheck s w = .error code) :
    (s.issue w).errCode = code.toByte := by
  rw [State.issue, h]
  rfl

theorem accept_errCode (s : State) (i : Instr) (w : Word) : (s.accept i w).errCode = 0x00#8 := by
  cases i <;> rfl

theorem issue_errCode_of_ok (h : issueCheck s w = .ok i) : (s.issue w).errCode = 0x00#8 := by
  rw [State.issue, h]
  exact accept_errCode s i w

/-- A code other than 0 is reported only by a rejection. -/
theorem issue_rejects_of_errCode_ne_zero (h : (s.issue w).errCode ≠ 0x00#8) :
    ∃ code, s.issue w = s.reject w code := by
  obtain ⟨code, -, hrej⟩ | ⟨i, hok, -⟩ := issue_cases s w
  · exact ⟨code, hrej⟩
  · exact absurd (issue_errCode_of_ok hok) h

end Issue

/-- Settles O6: the class of the word says whether it decodes, and each check that fails has its code; the
last two tests are on the opcode of the command. -/
theorem issueReportsFirstError : Obligations.IssueReportsFirstError := by
  intro s w
  obtain ⟨hopcode, hreserved, hfield, hcommand⟩ := fourClassesOfWords w
  have herror {e : DecodeError} (hb : s.busy = false) (hd : decode w = .error e) :
      (s.issue w).errCode = (ErrCode.ofDecodeError e).toByte := by
    rw [issue_of_decode_error hb hd, State.reject_errCode]
  refine ⟨s.issue w, hostStep_write_reg s .cmd rfl w,
    fun hb => issue_errCode_of_error (issueCheck_of_busy hb),
    fun hb hmap => herror hb (hopcode.2 hmap),
    fun hb hmap hclean => herror hb (hreserved.2 ⟨hmap, hclean⟩),
    fun hb hclean hill => herror hb (hfield.2 ⟨hclean, hill⟩), fun hb hclean hlegal => ?_⟩
  obtain ⟨i, hd⟩ := hcommand.2 ⟨hclean, hlegal⟩
  have hop : w.toNat % 256 = (opcodeOf i).toNat := (opcodeField_eq_iff w _).1 (opcodeOf_of_decode hd).symm
  rw [← conflictsWithScan_iff_of_opcode hop, descriptorOutside_iff_of_opcode hop, not_not]
  refine ⟨fun hc => issue_errCode_of_error (issueCheck_of_conflict hb hd hc), fun hc => ?_⟩
  have hcheck := issueCheck_of_no_conflict hb hd hc
  exact ⟨fun hout => issue_errCode_of_error (hcheck.trans (if_neg hout)),
    fun hin => issue_errCode_of_ok (hcheck.trans (if_pos hin))⟩

/-- Settles O7: a code other than 0 is that of a rejection, which writes the three registers of the report. -/
theorem rejectionChangesOnlyTheReport : Obligations.RejectionChangesOnlyTheReport := by
  intro s t w hx hcode
  obtain rfl : s.issue w = t := by
    rw [hostStep_write_reg s .cmd rfl] at hx
    cases hx
    rfl
  obtain ⟨code, hrej⟩ := issue_rejects_of_errCode_ne_zero hcode
  rw [hrej]
  rfl

/-! Interrupts (R28, R247, R248). -/

theorem irq_iff (s : State) : s.irq = true ↔
    ∃ b, b < 5 ∧ s.irqStatus.getLsbD b = true ∧ s.irqEn.getLsbD b = true := by
  rw [State.irq, bne_iff_ne, Ne, BitVec.eq_of_getLsbD_eq_iff]
  simp

/-- Settles O58: the write reaches `IRQ_STATUS`, whose bits go where a 1 is written. -/
theorem interruptStatusAndOutput : Obligations.InterruptStatusAndOutput := by
  intro s v
  refine ⟨⟨s.irqStatus &&& ~~~(v.setWidth 5), hostStep_write_reg s .irqStatus rfl v, fun b hb => ?_⟩,
    irq_iff s⟩
  rw [BitVec.getLsbD_and, BitVec.getLsbD_not, BitVec.getLsbD_setWidth]
  simp [hb]

end Sys2Proof.Machine
end

section
/-!
PROOFS. The soft reset (O55; 70_reset_and_hazards.md R271): bit 1 of a `CTRL` write decides alone, whatever
the engines do, and the state after it differs from power-on only in fields that no register but `RING_WIDX`
shows.
-/

namespace Sys2Proof.Machine

section SoftReset

variable {s : State} {v : Word}

/-- `SOFT_RST` is tested before the other bits, `BUSY` and `SCAN` (R22, R271). -/
theorem writeCtrl_of_softRst (hrst : v.getLsbD 1 = true) : s.writeCtrl v = s.softReset := if_pos hrst

/-- The memories and the write index that a soft reset keeps show in `RING_WIDX` only (R271). -/
theorem readReg_softReset {r : Reg} (hr : r ≠ .ringWidx) :
    readReg s.softReset r = readReg (State.powerOn s.params.pulseCap s.params.bmemBytes) r := by
  cases r with
  | ringWidx => exact absurd rfl hr
  | _ => rfl

end SoftReset

/-- Settles O55: the write goes to `CTRL`, and the soft reset takes all but the memories and `WIDX` from
power-on. -/
theorem softResetFromAnyState : Obligations.SoftResetFromAnyState := by
  intro s v hrst
  refine ⟨s.softReset, ?_, fun r hr => readReg_softReset hr, rfl, rfl, rfl, rfl, rfl, rfl, rfl, rfl⟩
  rw [hostStep_write_reg s .ctrl rfl]
  exact congrArg _ (writeCtrl_of_softRst hrst)

end Sys2Proof.Machine
end
